-- ==== Sys2Proof/Word.lean ====
section
/-! DEFINITION. The two widths the block computes with (R8, R20): bytes, and 32-bit register words. -/

namespace Sys2Proof

/-- A byte: 8 bits, values 0..255 (R8). -/
abbrev Byte := BitVec 8

/-- A register word: every register is 32 bits wide (R20). -/
abbrev Word := BitVec 32

end Sys2Proof
end

