-- ==== Sys2Proof/Config.lean ====
section
/-! DEFINITION. What is fixed for every machine the spec describes, and the type of the parameters that R6 lets a machine
choose (sizes, log 7; resolver, log 3; hash, log 4; the two policies, log 6), whose values are plain data carried by a
run. -/

namespace Sys2Proof

namespace Config

/-- MAX_FRAME: the longest frame, version 2, signed, 255 payload bytes (R6, R93). -/
def maxFrame : Nat := 280

/-- The host window's offset of FRAME_RAM byte 0 (R20, R36). -/
def frameRamBase : Nat := 0x8000

/-- The bytes of each key window (R29, R30). -/
def keyWindow : Nat := 64

/-- The identity register's value (R21). -/
def idValue : Word := 0x4D41564C#32

end Config

/-- What the resolver knows of a message: `(crc_extra, length_v1, length_v2)`, a byte each (R40). -/
structure MsgMeta where
  crcExtra : Byte
  lengthV1 : Byte
  lengthV2 : Byte
  deriving DecidableEq, Repr

/-- REPLAY_COMMIT (R6, R187): when an anti-replay update takes effect. -/
inductive ReplayCommit where
  | atCheck
  | onAccept
  deriving DecidableEq, Repr

/-- UNKNOWN_MSG_CHECKS (R6, R188): what strict mode does with an allowed unknown message. -/
inductive UnknownMsgChecks where
  | skip
  | reject
  deriving DecidableEq, Repr

/-- One pair at which KEYED_HASH is overridden (log 4): its 32-byte digest (R5). -/
structure HashEntry where
  key    : List Byte
  msg    : List Byte
  digest : Vector Byte 32
  deriving DecidableEq, Repr

/-- The parameters of R6, as plain data: fixed for a run, changed by no step. -/
structure Params where
  /-- MEM_SIZE: bytes of FRAME_RAM (R36, D4). -/
  memSize          : Nat
  /-- KEY_MAX: the most key bytes in each key slot (D9). -/
  keyMax           : Nat
  /-- RA_INIT_CAP: initial logical capacity of the accumulation buffer (D21). -/
  raInitCap        : Nat
  /-- RA_CAP_MAX: the most bytes the accumulation buffer holds (D21). -/
  raCapMax         : Nat
  /-- RESYNC_THRESHOLD: the accumulated length past which the reassembler forces resynchronisation (R214, D22). -/
  resyncThreshold  : Nat
  /-- RESOLVE as a table; an id it does not list resolves to none (R40; log 3). -/
  resolver         : List (BitVec 24 × MsgMeta)
  /-- KEYED_HASH where it differs from the spec's default (D8; log 4). -/
  hashOverrides    : List HashEntry
  /-- REPLAY_COMMIT (D18). -/
  replayCommit     : ReplayCommit
  /-- UNKNOWN_MSG_CHECKS (D19). -/
  unknownMsgChecks : UnknownMsgChecks
  deriving DecidableEq, Repr

/-- The defaults of R6; RESOLVE has none, and starts as the table that lists no message (log 3). -/
def Params.default : Params where
  memSize          := 8192
  keyMax           := 64
  raInitCap        := 2048
  raCapMax         := 32768
  resyncThreshold  := 4 * Config.maxFrame
  resolver         := []
  hashOverrides    := []
  replayCommit     := .atCheck
  unknownMsgChecks := .skip

/-- The sizes a machine of the spec may have: MEM_SIZE as R6 says; and, read off the rules that use them (DEDUCED, log 7),
a key fits its window (R29, R30), `RA_INIT_CAP <= RA_CAP_MAX` (R37) in a 32-bit register (R33), and RESYNC_THRESHOLD a
multiple of the longest frame's length, so no less than it. No definition of a meaning asks for it. -/
abbrev Params.Legal (p : Params) : Prop :=
  (512 ≤ p.memSize ∧ p.memSize ≤ 32768) ∧ p.keyMax ≤ Config.keyWindow ∧
    (p.raInitCap ≤ p.raCapMax ∧ p.raCapMax < 2 ^ 32) ∧ Config.maxFrame ≤ p.resyncThreshold

end Sys2Proof
end

