-- ==== Sys2Proof/Syntax.lean ====
section
/-! DEFINITION. The rows of spec/opcode_table.json: thirteen commands and three wire formats. -/

namespace Sys2Proof

/-- The fields of a version 1 frame (R81). The magic and the payload length are not stored: the first is the
constructor, the second the payload's length. -/
structure FrameV1 where
  sequence    : Byte
  systemId    : Byte
  componentId : Byte
  messageId   : Byte
  payload     : List Byte
  checksum    : BitVec 16
  deriving DecidableEq, Repr

/-- The fields of a version 2 frame up to its checksum (R82). -/
structure FrameV2 where
  incompat    : Byte
  compat      : Byte
  sequence    : Byte
  systemId    : Byte
  componentId : Byte
  messageId   : BitVec 24
  payload     : List Byte
  checksum    : BitVec 16
  deriving DecidableEq, Repr

/-- The 13-byte signature trailer (R84): link id, 48-bit timestamp, the 6 bytes of the truncated digest. -/
structure Trailer where
  linkId    : Byte
  timestamp : BitVec 48
  hash      : List Byte
  deriving DecidableEq, Repr

/-- One constructor per row of spec/opcode_table.json. A command's operands stand in ARG0..ARG8, not in its word
(R95), so its constructor has no argument; a wire format's fields are its bytes (R81, R82, R84). -/
inductive Instr where
  | cksum
  | fvDecode
  | fvValidateCrc
  | fvHasSig
  | fvValidateSig
  | fvSigTimestamp
  | fvSigLinkId
  | packV1
  | packV2
  | scan
  | rplGet
  | raPush
  | raDrop
  | frameV1 (f : FrameV1)
  | frameV2 (f : FrameV2)
  | frameV2Signed (f : FrameV2) (t : Trailer)
  deriving DecidableEq, Repr

end Sys2Proof
end

