-- ==== Sys2Proof/WellFormed.lean ====
section
/-! DEFINITION. Which instructions are well-formed: the field ranges of R81, R82 and R84 that the types do not already
say. A command is always well-formed. -/

namespace Sys2Proof

/-- The payload length is one byte (R81, R82): at most 255 payload bytes. -/
def FrameV1.wf (f : FrameV1) : Bool := decide (f.payload.length ≤ 255)

/-- The payload length is one byte (R82). -/
def FrameV2.wf (f : FrameV2) : Bool := decide (f.payload.length ≤ 255)

/-- The trailer's hash is 6 bytes (R84). -/
def Trailer.wf (t : Trailer) : Bool := decide (t.hash.length = 6)

/-- Incompatibility-flags bit 0: the signed bit (R86, R92). -/
def FrameV2.signedBit (f : FrameV2) : Bool := f.incompat.getLsbD 0

/-- FRAME_V2 has the signed bit 0, FRAME_V2_SIGNED has it 1 (R80). -/
def Instr.wf : Instr → Bool
  | .cksum | .fvDecode | .fvValidateCrc | .fvHasSig | .fvValidateSig | .fvSigTimestamp | .fvSigLinkId => true
  | .packV1 | .packV2 | .scan | .rplGet | .raPush | .raDrop => true
  | .frameV1 f => f.wf
  | .frameV2 f => f.wf && !f.signedBit
  | .frameV2Signed f t => f.wf && f.signedBit && t.wf

end Sys2Proof
end

