-- ==== Sys2Proof/Decode.lean ====
section
/-! DEFINITION. The decoder, total on any bytes and rejecting by name, and after it the encoder, both written from
30_encoding.md: the wire formats of R80 to R94 and the command words of R95 to R97. Here stand too the byte-order
helpers (R9, R62). -/

namespace Sys2Proof

/-! ### Byte order (R9, R62) -/

/-- `le_n(v)`: the `n` low bytes of `v`, least significant first (R9). -/
def leBytes : Nat → Nat → List Byte
  | 0, _ => []
  | n + 1, v => BitVec.ofNat 8 v :: leBytes n (v / 256)

/-- `LE(L)`: the sum over `i` of `L[i] << (8 * i)` (R9). -/
def fromLE : List Byte → Nat
  | [] => 0
  | b :: bs => b.toNat + 256 * fromLE bs

/-! ### Magic bytes and lengths (R80, R85) -/

/-- Byte 0 of a version 1 frame (R80). -/
def magicV1 : Byte := 0xFE#8

/-- Byte 0 of a version 2 frame (R80). -/
def magicV2 : Byte := 0xFD#8

/-- The wire version of a frame (R85). -/
inductive Version where
  | v1
  | v2
  deriving DecidableEq, Repr

/-- `version(s)`: which frame a byte 0 begins; any other value begins no frame (R80, R85). -/
def versionOf (b : Byte) : Option Version :=
  if b = magicV1 then some .v1 else if b = magicV2 then some .v2 else none

/-- A magic byte (R11): 0xFE or 0xFD. -/
def isMagic (b : Byte) : Bool := (versionOf b).isSome

/-- `header_len(s)`: 6 for version 1, 10 for version 2 (R85). -/
def Version.headerLen : Version → Nat
  | .v1 => 6
  | .v2 => 10

/-! ### Commands (R95 to R97) -/

/-- A row of the opcode map of R97. -/
structure CommandRow where
  opcode : Byte
  instr  : Instr
  deriving DecidableEq, Repr

/-- The opcode map (R97). -/
def commandRows : List CommandRow :=
  [⟨0x01#8, .cksum⟩,
   ⟨0x10#8, .fvDecode⟩, ⟨0x11#8, .fvValidateCrc⟩, ⟨0x12#8, .fvHasSig⟩, ⟨0x13#8, .fvValidateSig⟩,
   ⟨0x14#8, .fvSigTimestamp⟩, ⟨0x15#8, .fvSigLinkId⟩,
   ⟨0x20#8, .packV1⟩, ⟨0x21#8, .packV2⟩,
   ⟨0x30#8, .scan⟩, ⟨0x31#8, .rplGet⟩,
   ⟨0x40#8, .raPush⟩, ⟨0x41#8, .raDrop⟩]

/-- Why bytes are no instruction. -/
inductive DecodeError where
  /-- No byte at all. -/
  | noBytes
  /-- Fewer than the 4 bytes of a command word (R95). -/
  | truncatedCommand
  /-- A command word with a nonzero bit in 31:8 (R96). -/
  | reservedBits
  /-- An opcode that R97 does not assign (R96). -/
  | unassignedOpcode
  /-- Byte 0 begins no frame (R80). -/
  | notAMagic
  /-- Fewer bytes than the header (R94). -/
  | truncatedHeader
  /-- Fewer bytes than the frame's total length (R87). -/
  | truncatedFrame
  deriving DecidableEq, Repr

/-- The word written to COMMAND (R95, R96): legal when bits 31:8 are 0 and the opcode is assigned. -/
def decodeCommand (w : Word) : Except DecodeError Instr :=
  if w.extractLsb' 8 24 ≠ 0#24 then .error .reservedBits
  else
    match commandRows.find? (fun r => r.opcode == w.extractLsb' 0 8) with
    | some r => .ok r.instr
    | none => .error .unassignedOpcode

/-! ### Wire frames (R80 to R94) -/

/-- The bytes after a version 1 magic (R81): header, payload, checksum; the rest is what follows the frame. -/
def decodeV1 : List Byte → Except DecodeError (Instr × List Byte)
  | n :: seq :: sys :: comp :: msg :: rest =>
    if rest.length < n.toNat + 2 then .error .truncatedFrame
    else
      .ok (.frameV1 ⟨seq, sys, comp, msg, rest.take n.toNat,
        BitVec.ofNat 16 (fromLE ((rest.drop n.toNat).take 2))⟩, rest.drop (n.toNat + 2))
  | _ => .error .truncatedHeader

/-- The bytes after the checksum of a signed frame (R84): link id, timestamp, hash. -/
def decodeTrailer (bs : List Byte) : Trailer :=
  ⟨bs.headD 0#8, BitVec.ofNat 48 (fromLE ((bs.drop 1).take 6)), (bs.drop 7).take 6⟩

/-- The bytes after a version 2 magic (R82, R84): bit 0 of the incompatibility flags says whether the 13-byte trailer
follows (R80, R94). -/
def decodeV2 : List Byte → Except DecodeError (Instr × List Byte)
  | n :: inc :: cmp :: seq :: sys :: comp :: m0 :: m1 :: m2 :: rest =>
    let frame : FrameV2 := ⟨inc, cmp, seq, sys, comp, BitVec.ofNat 24 (fromLE [m0, m1, m2]), rest.take n.toNat,
      BitVec.ofNat 16 (fromLE ((rest.drop n.toNat).take 2))⟩
    if inc.getLsbD 0 then
      if rest.length < n.toNat + 15 then .error .truncatedFrame
      else .ok (.frameV2Signed frame (decodeTrailer (rest.drop (n.toNat + 2))), rest.drop (n.toNat + 15))
    else
      if rest.length < n.toNat + 2 then .error .truncatedFrame
      else .ok (.frameV2 frame, rest.drop (n.toNat + 2))
  | _ => .error .truncatedHeader

/-- A frame from the front of a byte list (R80, R94). -/
def decodeFrame : List Byte → Except DecodeError (Instr × List Byte)
  | [] => .error .noBytes
  | m :: bs =>
    match versionOf m with
    | some .v1 => decodeV1 bs
    | some .v2 => decodeV2 bs
    | none => .error .notAMagic

/-- The decoder, on any bytes: a magic byte begins a frame, anything else a little-endian command word. The two never
meet, since neither magic is an assigned opcode (R80, R97). -/
def decode (bs : List Byte) : Except DecodeError (Instr × List Byte) :=
  match bs with
  | [] => .error .noBytes
  | b :: _ =>
    if isMagic b then decodeFrame bs
    else if bs.length < 4 then .error .truncatedCommand
    else
      match decodeCommand (BitVec.ofNat 32 (fromLE (bs.take 4))) with
      | .ok i => .ok (i, bs.drop 4)
      | .error e => .error e

/-! ### The encoder, from the same tables -/

/-- The opcode of a command (R97); a wire format has none. -/
def opcodeOf : Instr → Option Byte
  | .cksum => some 0x01#8
  | .fvDecode => some 0x10#8
  | .fvValidateCrc => some 0x11#8
  | .fvHasSig => some 0x12#8
  | .fvValidateSig => some 0x13#8
  | .fvSigTimestamp => some 0x14#8
  | .fvSigLinkId => some 0x15#8
  | .packV1 => some 0x20#8
  | .packV2 => some 0x21#8
  | .scan => some 0x30#8
  | .rplGet => some 0x31#8
  | .raPush => some 0x40#8
  | .raDrop => some 0x41#8
  | .frameV1 _ => none
  | .frameV2 _ => none
  | .frameV2Signed _ _ => none

/-- The command word of an opcode: `zext_32(OPCODE)` (R95, R101). -/
def commandWord (op : Byte) : Word := op.setWidth 32

/-- The 6 header bytes of a version 1 frame (R81, R160). -/
def FrameV1.header (f : FrameV1) : List Byte :=
  [magicV1, BitVec.ofNat 8 f.payload.length, f.sequence, f.systemId, f.componentId, f.messageId]

/-- The 10 header bytes of a version 2 frame (R82, R160). -/
def FrameV2.header (f : FrameV2) : List Byte :=
  [magicV2, BitVec.ofNat 8 f.payload.length, f.incompat, f.compat, f.sequence, f.systemId, f.componentId]
    ++ leBytes 3 f.messageId.toNat

/-- A version 1 frame's bytes: header, payload, little-endian checksum (R81, R83). -/
def FrameV1.bytes (f : FrameV1) : List Byte := f.header ++ f.payload ++ leBytes 2 f.checksum.toNat

/-- A version 2 frame's bytes up to its checksum (R82, R83). -/
def FrameV2.bytes (f : FrameV2) : List Byte := f.header ++ f.payload ++ leBytes 2 f.checksum.toNat

/-- The 7 trailer bytes that the signature covers: link id and little-endian timestamp (R84, R91). -/
def Trailer.covered (t : Trailer) : List Byte := t.linkId :: leBytes 6 t.timestamp.toNat

/-- The trailer's 13 bytes (R84). -/
def Trailer.bytes (t : Trailer) : List Byte := t.covered ++ t.hash

/-- The bytes of a wire format (R81, R82, R84); a command is no frame. -/
def frameBytes : Instr → List Byte
  | .frameV1 f => f.bytes
  | .frameV2 f => f.bytes
  | .frameV2Signed f t => f.bytes ++ t.bytes
  | .cksum | .fvDecode | .fvValidateCrc | .fvHasSig | .fvValidateSig | .fvSigTimestamp | .fvSigLinkId => []
  | .packV1 | .packV2 | .scan | .rplGet | .raPush | .raDrop => []

/-- The bytes of an instruction: a command's word as the bus stores it, little-endian (R62, R95), or a frame. -/
def encode (i : Instr) : List Byte :=
  match opcodeOf i with
  | some op => leBytes 4 (commandWord op).toNat
  | none => frameBytes i

/-! ### The host's numbering of a table row -/

/-- The longest instruction, in bytes: a signed frame with 255 payload bytes (R93). -/
def longestInstr : Nat := Config.maxFrame

/-- The bytes of a table row whose bits are `w`, zeros above its `nbits` bits, up to the longest instruction. -/
def tableBytes (nbits w : Nat) : List Byte :=
  leBytes ((nbits + 7) / 8) (w % 2 ^ nbits) ++ List.replicate longestInstr 0#8

/-- The instruction the decoder reads from a table row's bits. -/
def decodeTableWord (nbits w : Nat) : Option Instr :=
  match decode (tableBytes nbits w) with
  | .ok (i, _) => some i
  | .error _ => none

end Sys2Proof
end

