-- ==== Sys2Proof/Machine/State.lean ====
section
/-! DEFINITION. Everything the spec gives the machine (R43), as plain data, the three fields of the model's own beside
it (log 1, 2, 3), and the state after hardware reset (R271). -/

namespace Sys2Proof.Machine

/-- The STATUS.ERR codes (R251); 0x0D..0xFF are never produced and have no constructor (I15). -/
inductive ErrCode where
  | ok
  | illegalCmd
  | notEnabled
  | outOfRange
  | notAFrame
  | payloadTooLarge
  | msgidRange
  | signedFlagWithoutKey
  | dstTooSmall
  | badKeyLen
  | raOverflow
  | badConfig
  | cfgLocked
  deriving DecidableEq, Repr

/-- Data held at natural-number keys: rising keys, no key twice (`Sparse.wf`, Machine/Ops.lean). -/
abbrev Sparse (α : Type) := List (Nat × α)

/-- A byte memory: a list of `Host.Cell`. An unlisted byte is unwritten and reads as nothing (R272; log 10), so no
listed cell can equal what an unlisted address reads as. -/
abbrev Memory := List Host.Cell

/-- REPLAY_MAP (R38, R130): 64-bit values at 32-bit keys. -/
abbrev ReplayMap := List (Nat × BitVec 64)

/-- An access the host makes through its window (R61, R239). `off` is the host byte offset (16 bits: the window is
64 KiB, R20). A write carries its bytes in memory order, least significant first (R62), so their number is the access's
width. -/
inductive HostAccess where
  | read (off : BitVec 16) (width : Nat)
  | write (off : BitVec 16) (data : List Byte)
  deriving DecidableEq, Repr

/-- What the bus answered the latest access (R61, R237, R258); the model's own field (log 2). -/
inductive Response where
  /-- Nothing answered yet. -/
  | silent
  /-- A write was taken. -/
  | done
  /-- The bytes a read returned, least significant first. -/
  | data (bytes : List Byte)
  /-- The error response of a forbidden width or alignment (R61, R258). -/
  | busError
  deriving DecidableEq, Repr

/-- The machine (R43). -/
structure State where
  /-- CTRL.ENABLE (R23). -/
  enable        : Bool
  /-- STATUS.ERR (R24). -/
  err           : ErrCode
  /-- OPTIONS bits 4:0 (R26). -/
  options       : BitVec 5
  /-- REPLAY_WINDOW_LO (R27). -/
  windowLo      : Word
  /-- REPLAY_WINDOW_HI (R27). -/
  windowHi      : Word
  /-- MAP_INIT_CAP (R28). -/
  mapInitCap    : Word
  /-- MAP_LOAD_FACTOR bits 15:0 (R28). -/
  mapLoadFactor : BitVec 16
  /-- RX_KEY_LEN bits 7:0 (R29). -/
  rxKeyLen      : BitVec 8
  /-- The RX_KEY window, byte index 0..63 (R29). -/
  rxKey         : Memory
  /-- OP_KEY_LEN bits 7:0 (R30). -/
  opKeyLen      : BitVec 8
  /-- The OP_KEY window, byte index 0..63 (R30). -/
  opKey         : Memory
  /-- ARG0..ARG8 (R31). -/
  args          : Vector Word 9
  /-- RES0..RES3 (R32). -/
  res           : Vector Word 4
  /-- FRAME_RAM, byte index 0..MEM_SIZE-1 (R36). -/
  frameRam      : Memory
  /-- ACC, whose length is RA_LEN (R33, R37). -/
  acc           : List Byte
  /-- RA_CAP (R33). -/
  raCap         : Nat
  /-- REPLAY_MAP (R38). -/
  replayMap     : ReplayMap
  /-- FRAME_OUT, oldest record first (R41). -/
  frameOut      : List (List Byte)
  /-- The model's own: the accesses the host has still to make, next first (log 1). -/
  pending       : List HostAccess
  /-- The model's own: the bus's answer to the latest access (log 2). -/
  response      : Response
  /-- The model's own: the parameters of R6, which no step changes (log 3, 4, 6, 7). -/
  params        : Params
  deriving DecidableEq, Repr

/-- Why the run has no defined continuation (R272, I1). Each is SAFE: the model stops where the spec defines nothing. -/
inductive Fault where
  /-- A host read or a command read FRAME_RAM byte `a`, never written since hardware reset (R272). Safe. -/
  | unwrittenByte (a : Nat)
  /-- A host read or a signature check read RX_KEY byte `a`, never written since hardware reset (R272). Safe. -/
  | unwrittenRxKey (a : Nat)
  /-- A host read, FV_VALIDATE_SIG or PACK_V2 read OP_KEY byte `a`, never written since hardware reset (R272). Safe. -/
  | unwrittenOpKey (a : Nat)
  deriving DecidableEq, Repr

/-- Why the model gives an instruction no meaning. -/
inductive Refusal where
  /-- Raised by an arm of `exec` whose instruction has no meaning yet. Safe: the model stops. No arm raises it now. -/
  | notModelled (mnemonic : String)
  deriving DecidableEq, Repr

/-- The machine of the parameters `p` right after hardware reset (R271). The key windows and FRAME_RAM are unwritten
(R272); the last three fields are the model's own (log 1, 2, 3, 7). -/
def State.resetWith (p : Params) : State where
  enable        := false
  err           := .ok
  options       := 0x01#5
  windowLo      := 0#32
  windowHi      := 0#32
  mapInitCap    := 16#32
  mapLoadFactor := 0xC000#16
  rxKeyLen      := 0#8
  rxKey         := []
  opKeyLen      := 0#8
  opKey         := []
  args          := Vector.replicate 9 0#32
  res           := Vector.replicate 4 0#32
  frameRam      := []
  acc           := []
  raCap         := p.raInitCap
  replayMap     := []
  frameOut      := []
  pending       := []
  response      := .silent
  params        := p

/-- The machine of R6's default parameters right after hardware reset. -/
def State.reset : State := State.resetWith Params.default

end Sys2Proof.Machine
end

