-- ==== Sys2Proof/Machine/Ops.lean ====
section
/-! DEFINITION. The named operations over memory, keyed data and registers (R10), the range check (R70), and the block's
only form of taking an exception, an error code (R253, R260). -/

namespace Sys2Proof.Machine

/-- How a command's computation ends without a result: an error code (R253) or a fault (R272). -/
inductive Stop where
  | raise (code : ErrCode)
  | fault (f : Fault)
  deriving DecidableEq, Repr

/-- A computation of a command. -/
abbrev Run (α : Type) := Except Stop α

/-! ### Keyed data in canonical form -/

/-- What key `k` holds. -/
def Sparse.get {α : Type} : Sparse α → Nat → Option α
  | [], _ => none
  | (j, v) :: m, k => if k = j then some v else if k < j then none else Sparse.get m k

/-- Key `k` made to hold `v`, the keys still rising. -/
def Sparse.put {α : Type} : Sparse α → Nat → α → Sparse α
  | [], k, v => [(k, v)]
  | (j, w) :: m, k, v =>
    if k = j then (k, v) :: m else if k < j then (k, v) :: (j, w) :: m else (j, w) :: Sparse.put m k v

/-- The canonical form: keys strictly rising, so that equal contents are equal lists. -/
def Sparse.wf {α : Type} : Sparse α → Bool
  | [] => true
  | [_] => true
  | (j, _) :: (k, w) :: m => decide (j < k) && Sparse.wf ((k, w) :: m)

/-- The bytes read as nothing where unlisted (R272; log 10). -/
def Memory.read (m : Memory) (a : Nat) : Option Byte := Sparse.get m a

/-- One byte stored. -/
def Memory.write (m : Memory) (a : Nat) (b : Byte) : Memory := Sparse.put m a b

/-- `WriteBytes(a, L)`: the list stored at `a..a+len(L)` (R10). -/
def Memory.writeBytes : Memory → Nat → List Byte → Memory
  | m, _, [] => m
  | m, a, b :: bs => Memory.writeBytes (Memory.write m a b) (a + 1) bs

/-- The canonical form of a memory: addresses strictly rising. What an unlisted address reads as is nothing, which no
cell equals. -/
def Memory.wf (m : Memory) : Bool := Sparse.wf m

/-! ### Reading buffers (R10, R71, R272) -/

/-- A byte buffer as a command sees it: FRAME_RAM, or ACC. -/
abbrev Buffer := Nat → Option Byte

/-- One byte; reading an unwritten one is a fault (R272). -/
def readByte (b : Buffer) (a : Nat) : Run Byte :=
  match b a with
  | some v => .ok v
  | none => .error (.fault (.unwrittenByte a))

/-- `Bytes(a, n)`: the bytes at `a..a+n`, in order (R10). -/
def readBytes (b : Buffer) : Nat → Nat → Run (List Byte)
  | _, 0 => .ok []
  | a, n + 1 => do
    let v ← readByte b a
    let vs ← readBytes b (a + 1) n
    .ok (v :: vs)

/-- FRAME_RAM as a buffer. -/
def State.ram (s : State) : Buffer := s.frameRam.read

/-- ACC as a buffer (R37). -/
def accBuffer (acc : List Byte) : Buffer := fun a => acc[a]?

/-- The first `n` bytes from index `a` on of a key window, or the fault of the first unwritten one (R272). -/
def readKey (m : Memory) (unwritten : Nat → Fault) : Nat → Nat → Run (List Byte)
  | _, 0 => .ok []
  | a, n + 1 =>
    match m.read a with
    | none => .error (.fault (unwritten a))
    | some v => do
      let vs ← readKey m unwritten (a + 1) n
      .ok (v :: vs)

/-- `RX_KEY[0 .. RX_KEY_LEN)` (R29). -/
def State.readRxKey (s : State) : Run (List Byte) := readKey s.rxKey .unwrittenRxKey 0 s.rxKeyLen.toNat

/-- `OP_KEY[0 .. OP_KEY_LEN)` (R30). -/
def State.readOpKey (s : State) : Run (List Byte) := readKey s.opKey .unwrittenOpKey 0 s.opKeyLen.toNat

/-! ### Checks and the end of a command -/

/-- `if not p: raise Error(code)` (R10). -/
def require (p : Prop) [Decidable p] (code : ErrCode) : Run Unit :=
  if p then .ok () else .error (.raise code)

/-- `InMem(a, n)`: `a + n <= MEM_SIZE` on unbounded integers (R70). -/
abbrev State.inMem (s : State) (a n : Nat) : Prop := a + n ≤ s.params.memSize

/-- STATUS.ERR <- code. -/
def State.setErr (s : State) (code : ErrCode) : State := { s with err := code }

/-- TAKING AN EXCEPTION: `raise Error(code)` ends the command with STATUS.ERR <- code and no other change (R253). There
is no saved state, no vector and no return (R260): the host's next access simply follows. -/
def raise (code : ErrCode) (s : State) : Host.Outcome State Fault Refusal := .next (s.setErr code)

/-- The end of a command started in `s`: its result with STATUS.ERR <- OK (R256), its error (R253), or the fault that
leaves the run without a continuation (R272). -/
def finish (s : State) : Run State → Host.Outcome State Fault Refusal
  | .ok t => .next (t.setErr .ok)
  | .error (.raise code) => raise code s
  | .error (.fault f) => .fault f

/-! ### Registers -/

/-- `ARG[i]` (R10). -/
def State.arg (s : State) (i : Fin 9) : Word := s.args[i]

/-- ARGi written by the host (R31). -/
def State.setArg (s : State) (i : Fin 9) (v : Word) : State := { s with args := s.args.set i v }

/-- `RES[i] <- v` (R10). -/
def State.setRes (s : State) (i : Fin 4) (v : Word) : State := { s with res := s.res.set i v }

/-- All four result registers written, as by the commands that fill R100's whole row. -/
def State.setResults (s : State) (r0 r1 r2 r3 : Word) : State := { s with res := #v[r0, r1, r2, r3] }

/-- FRAME_RAM replaced. -/
def State.setFrameRam (s : State) (m : Memory) : State := { s with frameRam := m }

/-- REPLAY_MAP replaced. -/
def State.setReplayMap (s : State) (m : ReplayMap) : State := { s with replayMap := m }

/-- ACC and RA_CAP replaced (R37). -/
def State.setAcc (s : State) (acc : List Byte) (cap : Nat) : State := { s with acc := acc, raCap := cap }

/-- `emit` of each record in turn (R10, R41). -/
def State.emit (s : State) (records : List (List Byte)) : State := { s with frameOut := s.frameOut ++ records }

/-- The bus's answer (log 2). -/
def State.respond (s : State) (r : Response) : State := { s with response := r }

/-- The host's next access taken from those it has still to make (log 1). -/
def State.setPending (s : State) (p : List HostAccess) : State := { s with pending := p }

/-- RESOLVE (R6, R40). -/
def State.resolve (s : State) (id : BitVec 24) : Option MsgMeta :=
  (s.params.resolver.find? (fun e => e.1 == id)).map Prod.snd

/-- RA_LEN: the length of ACC (R33). -/
def State.raLen (s : State) : Nat := s.acc.length

end Sys2Proof.Machine
end

