-- ==== Sys2Proof/Machine/Operands.lean ====
section
/-! DEFINITION. Every operand form of R99 (a bit field of an ARG register, R98) and every option bit of R26. -/

namespace Sys2Proof.Machine

/-- Byte `i` of a word: bits `8i+7 : 8i`. -/
def byteField (w : Word) (i : Nat) : Byte := w.extractLsb' (8 * i) 8

/-- A full-register offset or length, as the unsigned integer it is (R98). -/
def State.argNat (s : State) (i : Fin 9) : Nat := (s.arg i).toNat

/-- CKSUM ARG2[7:0] and FV_VALIDATE_CRC ARG1[7:0]: a crc_extra byte (R99). -/
def State.argByte (s : State) (i : Fin 9) : Byte := byteField (s.arg i) 0

/-- A 64-bit operand in two registers: RPL_GET's default (R99). -/
def State.argWide (s : State) (lo hi : Fin 9) : BitVec 64 := s.arg hi ++ s.arg lo

/-! ### PACK_V1 and PACK_V2 (R99, R163, R164) -/

/-- ARG0: the destination index. -/
def State.packDst (s : State) : Nat := s.argNat 0

/-- ARG1: the bytes available at the destination. -/
def State.packDstLen (s : State) : Nat := s.argNat 1

/-- ARG2: the payload's index. -/
def State.packSrc (s : State) : Nat := s.argNat 2

/-- ARG3[15:0]: the payload length. -/
def State.packPayloadLen (s : State) : Nat := ((s.arg 3).extractLsb' 0 16).toNat

/-- ARG3[23:16]: the message's v1-defined length. -/
def State.packV1Len (s : State) : Nat := (byteField (s.arg 3) 2).toNat

/-- ARG3[24]: TRIM. -/
def State.packTrim (s : State) : Bool := (s.arg 3).getLsbD 24

/-- ARG4[7:0]: sequence. -/
def State.packSequence (s : State) : Byte := byteField (s.arg 4) 0

/-- ARG4[15:8]: system id. -/
def State.packSystemId (s : State) : Byte := byteField (s.arg 4) 1

/-- ARG4[23:16]: component id. -/
def State.packComponentId (s : State) : Byte := byteField (s.arg 4) 2

/-- ARG4[31:24]: crc_extra. -/
def State.packCrcExtra (s : State) : Byte := byteField (s.arg 4) 3

/-- ARG5[23:0]: message id. -/
def State.packMessageId (s : State) : BitVec 24 := (s.arg 5).extractLsb' 0 24

/-- ARG5[31:24]: incompatibility flags. -/
def State.packIncompat (s : State) : Byte := byteField (s.arg 5) 3

/-- ARG6[7:0]: compatibility flags. -/
def State.packCompat (s : State) : Byte := byteField (s.arg 6) 0

/-- ARG6[15:8]: link id. -/
def State.packLinkId (s : State) : Byte := byteField (s.arg 6) 1

/-- ARG8[15:0] above ARG7: the 48-bit timestamp. -/
def State.packTimestamp (s : State) : BitVec 48 := (s.arg 8).extractLsb' 0 16 ++ s.arg 7

/-! ### The scanner's options (R26, R27) -/

/-- OPTIONS.STRICT. -/
def State.strict (s : State) : Bool := s.options.getLsbD 0

/-- OPTIONS.ALLOW_UNKNOWN. -/
def State.allowUnknown (s : State) : Bool := s.options.getLsbD 1

/-- OPTIONS.REQUIRE_SIGNATURE. -/
def State.requireSignature (s : State) : Bool := s.options.getLsbD 2

/-- OPTIONS.REQUIRE_SIGNED_V2. -/
def State.requireSignedV2 (s : State) : Bool := s.options.getLsbD 3

/-- OPTIONS.REPLAY_ENABLE. -/
def State.replayEnable (s : State) : Bool := s.options.getLsbD 4

/-- `W = REPLAY_WINDOW_HI << 32 | REPLAY_WINDOW_LO` (R27). -/
def State.window (s : State) : Nat := (s.windowHi ++ s.windowLo).toNat

end Sys2Proof.Machine
end

