-- ==== Sys2Proof/Machine/Flags.lean ====
section
/-! DEFINITION. The STATUS word and the result layouts of R100. The block has no other flag (R42). -/

namespace Sys2Proof.Machine

/-- The code's number (R251). -/
def ErrCode.toByte : ErrCode → Byte
  | .ok => 0x00#8
  | .illegalCmd => 0x01#8
  | .notEnabled => 0x02#8
  | .outOfRange => 0x03#8
  | .notAFrame => 0x04#8
  | .payloadTooLarge => 0x05#8
  | .msgidRange => 0x06#8
  | .signedFlagWithoutKey => 0x07#8
  | .dstTooSmall => 0x08#8
  | .badKeyLen => 0x09#8
  | .raOverflow => 0x0A#8
  | .badConfig => 0x0B#8
  | .cfgLocked => 0x0C#8

/-- STATUS: ERR in bits 7:0, ENABLED, the copy of CTRL.ENABLE, in bit 8, the rest 0 (R24). -/
def State.statusWord (s : State) : Word := 0#23 ++ BitVec.ofBool s.enable ++ s.err.toByte

/-- CTRL as read: ENABLE in bit 0, SOFT_RESET and the rest 0 (R23). -/
def State.ctrlWord (s : State) : Word := 0#31 ++ BitVec.ofBool s.enable

/-- A boolean result: RES0 bit 0, the rest 0 (R42). -/
def boolWord (p : Bool) : Word := 0#31 ++ BitVec.ofBool p

/-- Four bytes of a result, the first in bits 7:0 (R100). -/
def word4 (b0 b1 b2 b3 : Byte) : Word := b3 ++ b2 ++ b1 ++ b0

/-- A 16-bit result, the rest 0 (R100). -/
def halfWord (v : BitVec 16) : Word := 0#16 ++ v

/-- A number as a 32-bit result. -/
def natWord (n : Nat) : Word := BitVec.ofNat 32 n

/-- A 64-bit result in two registers: `v[31:0]` in the first, `v[63:32]` in the second (R100). -/
def State.setResWide (s : State) (lo hi : Fin 4) (v : BitVec 64) : State :=
  (s.setRes lo (v.extractLsb' 0 32)).setRes hi (v.extractLsb' 32 32)

end Sys2Proof.Machine
end

