-- ==== Sys2Proof/Machine/Control.lean ====
section
/-! DEFINITION. The scanner instance's life cycle (46_control.md R230 to R233) and the freezing of the OPTIONS group
(R35, R234). -/

namespace Sys2Proof.Machine

/-- No instance: CTRL.ENABLE 0, map and ACC empty, RA_CAP back at RA_INIT_CAP (R232, R233). -/
def State.dropInstance (s : State) : State :=
  { s with enable := false, replayMap := [], acc := [], raCap := s.params.raInitCap }

/-- `enable()` (R231): refused with BAD_CONFIG, or a fresh instance. -/
def enable (s : State) : State :=
  if s.mapLoadFactor = 0#16 ∨ s.params.keyMax < s.rxKeyLen.toNat then s.setErr .badConfig
  else { s with enable := true, replayMap := [], acc := [], raCap := s.params.raInitCap, err := .ok }

/-- `disable()` (R232). -/
def disable (s : State) : State := s.dropInstance.setErr .ok

/-- `soft_reset()` (R233). -/
def softReset (s : State) : State := s.dropInstance.setErr .ok

/-- A write of `v` to CTRL (R230): SOFT_RESET first, then the changes of ENABLE; bits 31:2 are ignored. -/
def writeCtrl (v : Word) (s : State) : State :=
  if v.getLsbD 1 then softReset s
  else if v.getLsbD 0 && !s.enable then enable s
  else if !v.getLsbD 0 && s.enable then disable s
  else s.setErr .ok

/-- A write to the frozen group (R234): CFG_LOCKED and nothing else while enabled, else the store, silently (log 14). -/
def frozenWrite (s stored : State) : State := if s.enable then s.setErr .cfgLocked else stored

end Sys2Proof.Machine
end

