-- ==== Sys2Proof/Machine/Checksum.lean ====
section
/-! DEFINITION. The Checksum Engine (40_checksum.md). -/

namespace Sys2Proof.Machine

/-- The byte-wise update (R120): `tmp` is 8 bits wide after each line, then zero-extended to 16. -/
def crcAccumulate (b : Byte) (crc : BitVec 16) : BitVec 16 :=
  let mixed : Byte := b ^^^ crc.setWidth 8
  let tmp : BitVec 16 := (mixed ^^^ (mixed <<< 4)).setWidth 16
  (crc >>> 8) ^^^ (tmp <<< 8) ^^^ (tmp <<< 3) ^^^ (tmp >>> 4)

/-- The bytes folded in increasing index order (R121). -/
def crcFold (crc : BitVec 16) : List Byte → BitVec 16
  | [] => crc
  | b :: bs => crcFold (crcAccumulate b crc) bs

/-- `checksum(buf, off, len, extra)` on the bytes of the range (R121): seed 0xFFFF, the bytes, then the one extra byte,
no final XOR (C6). -/
def checksum (bytes : List Byte) (extra : Byte) : BitVec 16 := crcAccumulate extra (crcFold 0xFFFF#16 bytes)

/-- CKSUM (R122): ARG0 the range's start, ARG1 its length, ARG2[7:0] the extra byte. -/
def execCksum (s : State) : Host.Outcome State Fault Refusal :=
  finish s (do
    require (s.inMem (s.argNat 0) (s.argNat 1)) .outOfRange
    let bytes ← readBytes s.ram (s.argNat 0) (s.argNat 1)
    .ok (s.setRes 0 (halfWord (checksum bytes (s.argByte 2)))))

end Sys2Proof.Machine
end

