-- ==== Sys2Proof/Machine/KeyedHash.lean ====
section
/-! DEFINITION. KEYED_HASH (R6): by default SHA-256 of the key followed by the message (D8). The spec names SHA-256 and
does not restate it; its text is FIPS 180-4's (PRESUMED, log 5). A run may override it at any pair (log 4). -/

namespace Sys2Proof.Machine

namespace Sha256

/-- The round constants. -/
def roundConstants : List Word :=
  [0x428a2f98#32, 0x71374491#32, 0xb5c0fbcf#32, 0xe9b5dba5#32, 0x3956c25b#32, 0x59f111f1#32, 0x923f82a4#32,
   0xab1c5ed5#32, 0xd807aa98#32, 0x12835b01#32, 0x243185be#32, 0x550c7dc3#32, 0x72be5d74#32, 0x80deb1fe#32,
   0x9bdc06a7#32, 0xc19bf174#32]
  ++ [0xe49b69c1#32, 0xefbe4786#32, 0x0fc19dc6#32, 0x240ca1cc#32, 0x2de92c6f#32, 0x4a7484aa#32, 0x5cb0a9dc#32,
   0x76f988da#32, 0x983e5152#32, 0xa831c66d#32, 0xb00327c8#32, 0xbf597fc7#32, 0xc6e00bf3#32, 0xd5a79147#32,
   0x06ca6351#32, 0x14292967#32]
  ++ [0x27b70a85#32, 0x2e1b2138#32, 0x4d2c6dfc#32, 0x53380d13#32, 0x650a7354#32, 0x766a0abb#32, 0x81c2c92e#32,
   0x92722c85#32, 0xa2bfe8a1#32, 0xa81a664b#32, 0xc24b8b70#32, 0xc76c51a3#32, 0xd192e819#32, 0xd6990624#32,
   0xf40e3585#32, 0x106aa070#32]
  ++ [0x19a4c116#32, 0x1e376c08#32, 0x2748774c#32, 0x34b0bcb5#32, 0x391c0cb3#32, 0x4ed8aa4a#32, 0x5b9cca4f#32,
   0x682e6ff3#32, 0x748f82ee#32, 0x78a5636f#32, 0x84c87814#32, 0x8cc70208#32, 0x90befffa#32, 0xa4506ceb#32,
   0xbef9a3f7#32, 0xc67178f2#32]

/-- The eight working words. -/
structure Hash where
  a : Word
  b : Word
  c : Word
  d : Word
  e : Word
  f : Word
  g : Word
  h : Word
  deriving DecidableEq, Repr

/-- The initial hash value. -/
def initial : Hash :=
  ⟨0x6a09e667#32, 0xbb67ae85#32, 0x3c6ef372#32, 0xa54ff53a#32,
   0x510e527f#32, 0x9b05688c#32, 0x1f83d9ab#32, 0x5be0cd19#32⟩

/-- Rotation to the right. -/
def rotr (x : Word) (n : Nat) : Word := (x >>> n) ||| (x <<< (32 - n))

/-- One round with schedule word `w` and constant `k`. -/
def round (x : Hash) (k w : Word) : Hash :=
  let s1 := rotr x.e 6 ^^^ rotr x.e 11 ^^^ rotr x.e 25
  let ch := (x.e &&& x.f) ^^^ (~~~x.e &&& x.g)
  let t1 := x.h + s1 + ch + k + w
  let s0 := rotr x.a 2 ^^^ rotr x.a 13 ^^^ rotr x.a 22
  let maj := (x.a &&& x.b) ^^^ (x.a &&& x.c) ^^^ (x.b &&& x.c)
  ⟨t1 + (s0 + maj), x.a, x.b, x.c, x.d + t1, x.e, x.f, x.g⟩

/-- The schedule word that follows a window of the last sixteen. -/
def nextWord (ws : List Word) : Word :=
  let w0 := ws.getD 0 0#32
  let w1 := ws.getD 1 0#32
  let w9 := ws.getD 9 0#32
  let w14 := ws.getD 14 0#32
  let g0 := rotr w1 7 ^^^ rotr w1 18 ^^^ (w1 >>> 3)
  let g1 := rotr w14 17 ^^^ rotr w14 19 ^^^ (w14 >>> 10)
  w0 + g0 + w9 + g1

/-- The rounds, one per constant, over a sliding window of sixteen schedule words. -/
def rounds (x : Hash) (ws : List Word) : List Word → Hash
  | [] => x
  | k :: ks => rounds (round x k (ws.getD 0 0#32)) (ws.drop 1 ++ [nextWord ws]) ks

/-- One block's words added to the hash. -/
def compress (x : Hash) (block : List Word) : Hash :=
  let y := rounds x block roundConstants
  ⟨x.a + y.a, x.b + y.b, x.c + y.c, x.d + y.d, x.e + y.e, x.f + y.f, x.g + y.g, x.h + y.h⟩

/-- A big-endian word of four bytes. -/
def beWord (b0 b1 b2 b3 : Byte) : Word := b0 ++ b1 ++ b2 ++ b3

/-- Bytes as big-endian words. -/
def words : List Byte → List Word
  | b0 :: b1 :: b2 :: b3 :: bs => beWord b0 b1 b2 b3 :: words bs
  | _ => []

/-- The message followed by 0x80, zeros, and its length in bits as eight big-endian bytes. -/
def pad (m : List Byte) : List Byte :=
  m ++ 0x80#8 :: (List.replicate ((119 - m.length % 64) % 64) 0#8 ++ (leBytes 8 (8 * m.length)).reverse)

/-- `n` blocks of sixteen words each. -/
def blocks : Nat → Hash → List Word → Hash
  | 0, x, _ => x
  | n + 1, x, ws => blocks n (compress x (ws.take 16)) (ws.drop 16)

/-- A word's bytes, most significant first. -/
def beBytes (w : Word) : List Byte := (leBytes 4 w.toNat).reverse

/-- The 32-byte digest. -/
def digest (m : List Byte) : List Byte :=
  let ws := words (pad m)
  let x := blocks (ws.length / 16) initial ws
  beBytes x.a ++ beBytes x.b ++ beBytes x.c ++ beBytes x.d ++ beBytes x.e ++ beBytes x.f ++ beBytes x.g ++ beBytes x.h

end Sha256

/-- KEYED_HASH (R5, R6): the run's override for the pair, and by default SHA-256 of key ++ message (D8). -/
def State.keyedHash (s : State) (key msg : List Byte) : List Byte :=
  match s.params.hashOverrides.find? (fun e => e.key == key && e.msg == msg) with
  | some e => e.digest.toList
  | none => Sha256.digest (key ++ msg)

/-- `prefix6(D)` (R9): the truncated digest of R84. -/
def State.mac (s : State) (key msg : List Byte) : List Byte := (s.keyedHash key msg).take 6

end Sys2Proof.Machine
end

