-- ==== Sys2Proof/Machine/FrameWriter.lean ====
section
/-! DEFINITION. The Frame Writer (43_frame_writer.md). A packed frame is written as the encoder writes it (Decode.lean),
with its checksum and trailer computed here. -/

namespace Sys2Proof.Machine

/-- `crc` of R160: the checksum over the header without its magic, then the payload, then crc_extra. -/
def sealChecksum (header payload : List Byte) (extra : Byte) : BitVec 16 :=
  checksum ((header ++ payload).drop 1) extra

/-- A version 1 frame given its checksum (R160). -/
def FrameV1.withChecksum (f : FrameV1) (extra : Byte) : FrameV1 :=
  { f with checksum := sealChecksum f.header f.payload extra }

/-- A version 2 frame given its checksum (R160). -/
def FrameV2.withChecksum (f : FrameV2) (extra : Byte) : FrameV2 :=
  { f with checksum := sealChecksum f.header f.payload extra }

/-- `trim_len(P, plen, v1_len)` (R161), from the length `n` downwards. -/
def trimLen (payload : List Byte) (v1Len : Nat) : Nat → Nat
  | 0 => 0
  | n + 1 => if v1Len < n + 1 ∧ payload[n]? = some 0#8 then trimLen payload v1Len n else n + 1

/-- The signature trailer of a frame whose bytes through the checksum are `bytes` (R162). -/
def State.signTrailer (s : State) (bytes key : List Byte) (link : Byte) (ts : BitVec 48) : Trailer :=
  { linkId := link, timestamp := ts, hash := s.mac key (bytes ++ link :: leBytes 6 ts.toNat) }

/-- PACK_V1 (R163). -/
def execPackV1 (s : State) : Host.Outcome State Fault Refusal :=
  finish s (do
    require (s.packPayloadLen ≤ 255) .payloadTooLarge
    require (s.packMessageId.toNat ≤ 255) .msgidRange
    require (s.inMem s.packSrc s.packPayloadLen) .outOfRange
    require (6 + s.packPayloadLen + 2 ≤ s.packDstLen) .dstTooSmall
    require (s.inMem s.packDst (6 + s.packPayloadLen + 2)) .outOfRange
    let payload ← readBytes s.ram s.packSrc s.packPayloadLen
    let frame := FrameV1.withChecksum
      ⟨s.packSequence, s.packSystemId, s.packComponentId, s.packMessageId.setWidth 8, payload, 0#16⟩ s.packCrcExtra
    .ok ((s.setFrameRam (s.frameRam.writeBytes s.packDst frame.bytes)).setRes 0 (natWord (6 + s.packPayloadLen + 2))))

/-- `inc` of R164: the caller's flags with the signed bit forced on when a key is present. -/
def State.packFlags (s : State) : Byte := s.packIncompat ||| (if s.opKeyLen = 0#8 then 0#8 else 1#8)

/-- `total` of R164 for an effective payload length. -/
def State.packTotal (s : State) (n : Nat) : Nat := 10 + n + 2 + (if s.opKeyLen = 0#8 then 0 else 13)

/-- The frame bytes PACK_V2 writes (R164): `F1` of R160, and when a key is present `F` of R162. -/
def State.packBytes (s : State) (payload : List Byte) : Run (List Byte) :=
  let frame := FrameV2.withChecksum
    ⟨s.packFlags, s.packCompat, s.packSequence, s.packSystemId, s.packComponentId, s.packMessageId, payload, 0#16⟩
    s.packCrcExtra
  if s.opKeyLen = 0#8 then .ok frame.bytes
  else do
    let key ← s.readOpKey
    .ok (frame.bytes ++ (s.signTrailer frame.bytes key s.packLinkId s.packTimestamp).bytes)

/-- PACK_V2 (R164); the payload is read where the rule reads it, before the destination is checked (log 13). -/
def execPackV2 (s : State) : Host.Outcome State Fault Refusal :=
  finish s (do
    require (s.packPayloadLen ≤ 255) .payloadTooLarge
    require (s.opKeyLen.toNat ≤ s.params.keyMax) .badKeyLen
    require (¬ (s.packIncompat.getLsbD 0 = true ∧ s.opKeyLen = 0#8)) .signedFlagWithoutKey
    require (s.inMem s.packSrc s.packPayloadLen) .outOfRange
    let payload ← readBytes s.ram s.packSrc s.packPayloadLen
    let n := if s.packTrim then trimLen payload s.packV1Len s.packPayloadLen else s.packPayloadLen
    require (s.packTotal n ≤ s.packDstLen) .dstTooSmall
    require (s.inMem s.packDst (s.packTotal n)) .outOfRange
    let bytes ← s.packBytes (payload.take n)
    .ok (((s.setFrameRam (s.frameRam.writeBytes s.packDst bytes)).setRes 0 (natWord (s.packTotal n))).setRes 1
      (natWord n)))

end Sys2Proof.Machine
end

