-- ==== Sys2Proof/Machine/FrameView.lean ====
section
/-! DEFINITION. The Frame View (42_frame_view.md): the shared functions over a buffer, and the six FV_ commands over
FRAME_RAM. Every field is recomputed from the bytes each time (R141). -/

namespace Sys2Proof.Machine

/-- The header fields of R85. -/
structure Header where
  version     : Version
  payloadLen  : Byte
  incompat    : Byte
  compat      : Byte
  sequence    : Byte
  systemId    : Byte
  componentId : Byte
  messageId   : BitVec 24
  deriving DecidableEq, Repr

/-- `header_len` (R85). -/
def Header.headerLen (h : Header) : Nat := h.version.headerLen

/-- `N` (R85). -/
def Header.n (h : Header) : Nat := h.payloadLen.toNat

/-- `signed` (R86): a version 2 frame with incompatibility bit 0 set. -/
def Header.signed (h : Header) : Bool := h.version == .v2 && h.incompat.getLsbD 0

/-- `header_len + N + 2`: through the checksum (R91). -/
def Header.throughChecksum (h : Header) : Nat := h.headerLen + h.n + 2

/-- `total_len` (R87). -/
def Header.totalLen (h : Header) : Nat := h.throughChecksum + (if h.signed then 13 else 0)

/-- `version` as the number FV_DECODE reports (R85, R142). -/
def versionNumber : Version → Byte
  | .v1 => 1#8
  | .v2 => 2#8

/-- The fields of a version 1 header's bytes; incompat and compat are 0 (R81, R85). -/
def headerV1 (hs : List Byte) : Header where
  version     := .v1
  payloadLen  := hs.getD 1 0#8
  incompat    := 0#8
  compat      := 0#8
  sequence    := hs.getD 2 0#8
  systemId    := hs.getD 3 0#8
  componentId := hs.getD 4 0#8
  messageId   := (hs.getD 5 0#8).setWidth 24

/-- The fields of a version 2 header's bytes (R82, R85, R89). -/
def headerV2 (hs : List Byte) : Header where
  version     := .v2
  payloadLen  := hs.getD 1 0#8
  incompat    := hs.getD 2 0#8
  compat      := hs.getD 3 0#8
  sequence    := hs.getD 4 0#8
  systemId    := hs.getD 5 0#8
  componentId := hs.getD 6 0#8
  messageId   := hs.getD 9 0#8 ++ hs.getD 8 0#8 ++ hs.getD 7 0#8

/-- The fields of `header_len` header bytes (R85). -/
def headerFields : Version → List Byte → Header
  | .v1, hs => headerV1 hs
  | .v2, hs => headerV2 hs

/-- `Decode(b, s, limit)` (R140): only header bytes are read, all of them (log 11). -/
def decodeHeader (b : Buffer) (start limit : Nat) : Run Header := do
  require (start + 1 ≤ limit) .outOfRange
  let magic ← readByte b start
  match versionOf magic with
  | none => .error (.raise .notAFrame)
  | some v => do
    require (start + v.headerLen ≤ limit) .outOfRange
    let hs ← readBytes b start v.headerLen
    .ok (headerFields v hs)

/-- `WholeFrame(b, s, limit)` (R140). -/
def wholeFrame (h : Header) (start limit : Nat) : Run Unit :=
  require (start + h.totalLen ≤ limit) .outOfRange

/-- The checksum of a frame's covered range `[s+1, s+header_len+N)` (R90, R143; C1). -/
def computedChecksum (b : Buffer) (start : Nat) (h : Header) (extra : Byte) : Run (BitVec 16) := do
  let covered ← readBytes b (start + 1) (h.headerLen - 1 + h.n)
  .ok (checksum covered extra)

/-- The checksum field, `LE` of the two bytes after the payload (R83). -/
def storedChecksum (b : Buffer) (start : Nat) (h : Header) : Run (BitVec 16) := do
  let field ← readBytes b (start + h.headerLen + h.n) 2
  .ok (BitVec.ofNat 16 (fromLE field))

/-- `validate_crc(b, s, crc_extra)` (R143). -/
def validateCrc (b : Buffer) (start : Nat) (h : Header) (extra : Byte) : Run Bool := do
  let computed ← computedChecksum b start h extra
  let stored ← storedChecksum b start h
  .ok (computed == stored)

/-- `sig_link_id` of a signed frame: the byte after the checksum (R149). -/
def sigLinkId (b : Buffer) (start : Nat) (h : Header) : Run Byte := readByte b (start + h.throughChecksum)

/-- `sig_timestamp` of a signed frame: the six bytes after the link id, little-endian (R149). -/
def sigTimestamp (b : Buffer) (start : Nat) (h : Header) : Run (BitVec 48) := do
  let field ← readBytes b (start + h.throughChecksum + 1) 6
  .ok (BitVec.ofNat 48 (fromLE field))

/-- `validate_signature(b, s, key)` past its fail-fast line, for a signed frame and a non-empty key (R147). -/
def validateSignature (s : State) (b : Buffer) (start : Nat) (h : Header) (key : List Byte) : Run Bool := do
  let frame ← readBytes b start h.throughChecksum
  let link ← sigLinkId b start h
  let ts ← sigTimestamp b start h
  let hash ← readBytes b (start + h.throughChecksum + 7) 6
  .ok (s.mac key (frame ++ [link] ++ leBytes 6 ts.toNat) == hash)

/-! ### Commands -/

/-- FV_DECODE's four results (R100, R142). -/
def State.setHeader (s : State) (start : Nat) (h : Header) : State :=
  s.setResults (word4 (versionNumber h.version) h.payloadLen h.incompat h.compat)
    (word4 h.sequence h.systemId h.componentId (BitVec.ofNat 8 h.headerLen))
    (0#7 ++ BitVec.ofBool h.signed ++ h.messageId)
    (BitVec.ofNat 16 h.totalLen ++ BitVec.ofNat 16 (start + h.headerLen))

/-- `Decode(FRAME_RAM, s, MEM_SIZE)` at the operand every FV_ command takes in ARG0 (R99, R140). -/
def State.viewHeader (s : State) : Run Header := decodeHeader s.ram (s.argNat 0) s.params.memSize

/-- FV_DECODE (R142). -/
def execFvDecode (s : State) : Host.Outcome State Fault Refusal :=
  finish s (do
    let h ← s.viewHeader
    .ok (s.setHeader (s.argNat 0) h))

/-- FV_VALIDATE_CRC (R144): ARG1[7:0] the crc_extra byte. -/
def execFvValidateCrc (s : State) : Host.Outcome State Fault Refusal :=
  finish s (do
    let h ← s.viewHeader
    wholeFrame h (s.argNat 0) s.params.memSize
    let computed ← computedChecksum s.ram (s.argNat 0) h (s.argByte 1)
    let stored ← storedChecksum s.ram (s.argNat 0) h
    .ok (((s.setRes 0 (boolWord (computed == stored))).setRes 1 (halfWord computed)).setRes 2 (halfWord stored)))

/-- FV_HAS_SIG (R146). -/
def execFvHasSig (s : State) : Host.Outcome State Fault Refusal :=
  finish s (do
    let h ← s.viewHeader
    .ok (s.setRes 0 (boolWord h.signed)))

/-- FV_VALIDATE_SIG (R148), with the per-call key. -/
def execFvValidateSig (s : State) : Host.Outcome State Fault Refusal :=
  finish s (do
    let h ← s.viewHeader
    require (s.opKeyLen.toNat ≤ s.params.keyMax) .badKeyLen
    if h.signed = false ∨ s.opKeyLen = 0#8 then .ok (s.setRes 0 (boolWord false))
    else do
      wholeFrame h (s.argNat 0) s.params.memSize
      let key ← s.readOpKey
      let valid ← validateSignature s s.ram (s.argNat 0) h key
      .ok (s.setRes 0 (boolWord valid)))

/-- FV_SIG_TIMESTAMP (R150): the timestamp, or -1 in 64 bits. -/
def execFvSigTimestamp (s : State) : Host.Outcome State Fault Refusal :=
  finish s (do
    let h ← s.viewHeader
    if h.signed then do
      wholeFrame h (s.argNat 0) s.params.memSize
      let ts ← sigTimestamp s.ram (s.argNat 0) h
      .ok (s.setResWide 0 1 (ts.setWidth 64))
    else .ok (s.setResWide 0 1 (BitVec.allOnes 64)))

/-- FV_SIG_LINK_ID (R151): the link id, or -1 in 32 bits. -/
def execFvSigLinkId (s : State) : Host.Outcome State Fault Refusal :=
  finish s (do
    let h ← s.viewHeader
    if h.signed then do
      wholeFrame h (s.argNat 0) s.params.memSize
      let link ← sigLinkId s.ram (s.argNat 0) h
      .ok (s.setRes 0 (link.setWidth 32))
    else .ok (s.setRes 0 (BitVec.allOnes 32)))

end Sys2Proof.Machine
end

