-- ==== Sys2Proof/Machine/IntegerMap.lean ====
section
/-! DEFINITION. The Fixed-Capacity Integer Map by its observable contract (41_integer_map.md): a finite partial function.
Its table, capacity and load factor are unobservable (R133; log 17). -/

namespace Sys2Proof.Machine

/-- The reserved sentinel, which is in no map's domain (R130). -/
def mapSentinel : Nat := 0xFFFFFFFF

/-- `M(key)` where the key is in the domain of `M`, which excludes the sentinel (R130, R131). -/
def ReplayMap.lookup (m : ReplayMap) (key : Nat) : Option (BitVec 64) :=
  if key = mapSentinel then none else Sparse.get m key

/-- `get_or_default(key, default)` (R131). -/
def ReplayMap.getOrDefault (m : ReplayMap) (key : Nat) (dflt : BitVec 64) : BitVec 64 := (m.lookup key).getD dflt

/-- `put(key, value)`: the key added, or its value replaced (R132). -/
def ReplayMap.put (m : ReplayMap) (key : Nat) (value : BitVec 64) : ReplayMap := Sparse.put m key value

/-- The composite key `(sys << 16) OR (comp << 8) OR link` (R134). -/
def compositeKey (sys comp link : Byte) : Nat := (sys ++ comp ++ link : BitVec 24).toNat

/-- RPL_GET (R135): ARG0 the key, ARG2:ARG1 the default. -/
def execRplGet (s : State) : Host.Outcome State Fault Refusal :=
  finish s (do
    require (s.enable = true) .notEnabled
    .ok ((s.setResWide 0 1 (s.replayMap.getOrDefault (s.argNat 0) (s.argWide 1 2))).setRes 2
      (boolWord (s.replayMap.lookup (s.argNat 0)).isSome)))

end Sys2Proof.Machine
end

