-- ==== Sys2Proof/Machine/FrameScanner.lean ====
section
/-! DEFINITION. The Frame Scanner (44_scanner.md). The policy (options, window, receive key, parameters) is read from the
state; the anti-replay map, which a scan may change, is passed along. -/

namespace Sys2Proof.Machine

/-- What a strict check says of a candidate. -/
inductive Verdict where
  | accept
  | reject
  deriving DecidableEq, Repr

/-- `f.incompat AND 0xFE != 0` (R183). -/
def Header.unknownFlags (h : Header) : Bool := (h.incompat &&& 0xFE#8) != 0#8

/-- REQUIRE_SIGNED_V2 against an unsigned version 2 frame (R184). -/
def State.refusesUnsigned (s : State) (h : Header) : Bool := s.requireSignedV2 && h.version == .v2 && !h.signed

/-- The signature condition passes (R185): only a signed frame under REQUIRE_SIGNATURE is checked, and without a key it
fails; the key is read only when it is used (log 12). -/
def State.signaturePasses (s : State) (b : Buffer) (c : Nat) (h : Header) : Run Bool :=
  if h.signed && s.requireSignature then
    if s.rxKeyLen = 0#8 then .ok false
    else do
      let key ← s.readRxKey
      validateSignature s b c h key
  else .ok true

/-- A map update: key and timestamp (R186). -/
abbrev Update := Nat × BitVec 64

/-- `replay_check` on the record of a key (R186): none when refused, else the update it asks for. The sum is on
unbounded integers. -/
def replayCheck (m : ReplayMap) (window key : Nat) (ts : BitVec 48) : Option (Option Update) :=
  match m.lookup key with
  | none => some (some (key, ts.setWidth 64))
  | some last =>
    if last.toNat ≤ ts.toNat + window then
      some (if last.toNat < ts.toNat then some (key, ts.setWidth 64) else none)
    else none

/-- The anti-replay condition (R182, R186): applied to a signed frame under REPLAY_ENABLE. -/
def State.replayStage (s : State) (b : Buffer) (c : Nat) (h : Header) (m : ReplayMap) : Run (Option (Option Update)) :=
  if h.signed && s.replayEnable then do
    let link ← sigLinkId b c h
    let ts ← sigTimestamp b c h
    .ok (replayCheck m s.window (compositeKey h.systemId h.componentId link) ts)
  else .ok (some none)

/-- An update put into the map. -/
def ReplayMap.apply (m : ReplayMap) : Option Update → ReplayMap
  | none => m
  | some (k, v) => m.put k v

/-- `length_ok(f, m)` (R189). -/
def lengthOk (h : Header) (m : MsgMeta) : Bool :=
  match h.version with
  | .v1 => h.payloadLen == m.lengthV1
  | .v2 => decide (m.lengthV1.toNat ≤ h.n) && decide (h.n ≤ m.lengthV2.toNat)

/-- The message conditions pass (R188 to R190). -/
def State.messagePasses (s : State) (b : Buffer) (c : Nat) (h : Header) : Run Bool :=
  match s.resolve h.messageId with
  | none => .ok (s.allowUnknown && s.params.unknownMsgChecks == .skip)
  | some m => if lengthOk h m then validateCrc b c h m.crcExtra else .ok false

/-- The map after a candidate that passed the anti-replay condition (R187): AT_CHECK writes the update whatever the
verdict, ON_ACCEPT only with an accept. -/
def State.commit (s : State) (m : ReplayMap) (upd : Option Update) (accepted : Bool) : ReplayMap :=
  match s.params.replayCommit with
  | .atCheck => m.apply upd
  | .onAccept => if accepted then m.apply upd else m

/-- `strict_ok(b, c, f)` (R182): the conditions in the listed order, stopping at the first that holds; with the verdict,
the map it leaves. -/
def State.strictOk (s : State) (b : Buffer) (c : Nat) (h : Header) (m : ReplayMap) : Run (Verdict × ReplayMap) :=
  if h.unknownFlags then .ok (.reject, m)
  else if s.refusesUnsigned h then .ok (.reject, m)
  else do
    let signature ← s.signaturePasses b c h
    if signature = false then .ok (.reject, m)
    else do
      let replay ← s.replayStage b c h m
      match replay with
      | none => .ok (.reject, m)
      | some upd => do
        let message ← s.messagePasses b c h
        .ok (if message then .accept else .reject, s.commit m upd message)

/-- The result of one scan call (R180): the accepted span, if any, the candidates rejected, and the map. -/
structure Scan where
  accepted : Option (Nat × Nat)
  rejects  : Nat
  map      : ReplayMap
  deriving DecidableEq, Repr

/-- `scan` from cursor `c` (R181). The fuel is `stop - c`, the bytes still in the scanned range, so it runs out exactly
where the range does (R193). -/
def State.scanFrom (s : State) (b : Buffer) (stop : Nat) : Nat → Nat → Nat → ReplayMap → Run Scan
  | 0, _, rejects, m => .ok ⟨none, rejects, m⟩
  | fuel + 1, c, rejects, m => do
    let x ← readByte b c
    match versionOf x with
    | none => s.scanFrom b stop fuel (c + 1) rejects m
    | some v =>
      if stop - c < v.headerLen then .ok ⟨none, rejects, m⟩
      else do
        let h ← decodeHeader b c stop
        if stop - c < h.totalLen then .ok ⟨none, rejects, m⟩
        else if s.strict = false then .ok ⟨some (c, h.totalLen), rejects, m⟩
        else do
          let r ← s.strictOk b c h m
          match r.1 with
          | .accept => .ok ⟨some (c, h.totalLen), rejects, r.2⟩
          | .reject => s.scanFrom b stop fuel (c + 1) (rejects + 1) r.2

/-- `scan(b, start, end)` (R181). -/
def State.scanBuffer (s : State) (b : Buffer) (start stop : Nat) (m : ReplayMap) : Run Scan :=
  s.scanFrom b stop (stop - start) start 0 m

/-- SCAN's four results and the map it leaves (R100, R192). -/
def State.setScan (s : State) (r : Scan) : State :=
  match r.accepted with
  | some (start, total) =>
    (s.setReplayMap r.map).setResults 1#32 (natWord start) (natWord total) (natWord r.rejects)
  | none =>
    (s.setReplayMap r.map).setResults 0#32 0#32 0#32 (natWord r.rejects)

/-- SCAN (R192): ARG0 the range's start, ARG1 its end. -/
def execScan (s : State) : Host.Outcome State Fault Refusal :=
  finish s (do
    require (s.enable = true) .notEnabled
    require (s.argNat 1 ≤ s.params.memSize ∧ s.argNat 0 ≤ s.argNat 1) .outOfRange
    let r ← s.scanBuffer s.ram (s.argNat 0) (s.argNat 1) s.replayMap
    .ok (s.setScan r))

end Sys2Proof.Machine
end

