-- ==== Sys2Proof/Machine/Reassembler.lean ====
section
/-! DEFINITION. The Stream Reassembler (45_reassembler.md). -/

namespace Sys2Proof.Machine

/-- RA_CAP after an append that needs `required` bytes, RA_CAP_MAX being `most` (R211). -/
def growCap (most cap required : Nat) : Nat :=
  if cap < required then min (max (2 * cap) required) most else cap

/-- What the scan loop of R212 leaves: the cursor, the records in acceptance order, and the map. -/
structure Drain where
  cursor  : Nat
  records : List (List Byte)
  map     : ReplayMap
  deriving DecidableEq, Repr

/-- `ACC[s .. s+t)` (R212). -/
def slice (acc : List Byte) (start total : Nat) : List Byte := (acc.drop start).take total

/-- The scan loop (R212), from a cursor with the records so far. Each accepted frame moves the cursor on by at least 8
bytes (R93), so `len(ACC) + 1` rounds are more than it ever takes (R219). -/
def State.drainFrom (s : State) (acc : List Byte) : Nat → Nat → List (List Byte) → ReplayMap → Run Drain
  | 0, cur, out, m => .ok ⟨cur, out, m⟩
  | fuel + 1, cur, out, m => do
    let r ← s.scanBuffer (accBuffer acc) cur acc.length m
    match r.accepted with
    | none => .ok ⟨cur, out, r.map⟩
    | some (start, total) => s.drainFrom acc fuel (start + total) (out ++ [slice acc start total]) r.map

/-- The scan loop from cursor 0 (R212). -/
def State.drain (s : State) (acc : List Byte) : Run Drain := s.drainFrom acc (acc.length + 1) 0 [] s.replayMap

/-- The bytes a forced resynchronisation discards (R214): up to the first magic byte past offset 0, or all. -/
def resyncDrop (acc : List Byte) : Nat :=
  match (acc.drop 1).findIdx? isMagic with
  | some i => i + 1
  | none => acc.length

/-- The bytes R214 discards after a loop that left the cursor at `cur`. -/
def State.discarded (s : State) (acc : List Byte) (cur : Nat) : Nat :=
  if cur = 0 ∧ s.params.resyncThreshold < acc.length then resyncDrop acc else 0

/-- The bytes dropped from the front of ACC after the loop: compaction (R213) or forced resynchronisation (R214), of
which one is always 0. -/
def State.dropped (s : State) (acc : List Byte) (cur : Nat) : Nat := cur + s.discarded acc cur

/-- What a push leaves, given the appended buffer and its drain (R213 to R215). -/
def State.setDrain (s : State) (acc : List Byte) (d : Drain) : State :=
  let left := acc.drop (s.dropped acc d.cursor)
  (((s.setReplayMap d.map).emit d.records).setAcc left (growCap s.params.raCapMax s.raCap acc.length)).setResults
    (natWord d.records.length) (natWord left.length) (natWord d.cursor) (natWord (s.discarded acc d.cursor))

/-- The per-chunk algorithm on a chunk that fits (R211 to R214), with its results (R215). -/
def State.pushChunk (s : State) (chunk : List Byte) : Run State := do
  let d ← s.drain (s.acc ++ chunk)
  .ok (s.setDrain (s.acc ++ chunk) d)

/-- RA_PUSH (R215): ARG0 the chunk's index, ARG1 its length. -/
def execRaPush (s : State) : Host.Outcome State Fault Refusal :=
  finish s (do
    require (s.enable = true) .notEnabled
    require (s.inMem (s.argNat 0) (s.argNat 1)) .outOfRange
    require (s.raLen + s.argNat 1 ≤ s.params.raCapMax) .raOverflow
    let chunk ← readBytes s.ram (s.argNat 0) (s.argNat 1)
    s.pushChunk chunk)

/-- RA_DROP (R216): ACC emptied, nothing else changed. -/
def execRaDrop (s : State) : Host.Outcome State Fault Refusal :=
  finish s (.ok (s.setAcc [] s.raCap))

end Sys2Proof.Machine
end

