-- ==== Sys2Proof/Machine/WireFrame.lean ====
section
/-! DEFINITION. The wire formats FRAME_V1, FRAME_V2 and FRAME_V2_SIGNED. A frame is no command: its effect on the machine
is what the engine does when it arrives, and the spec lets a frame arrive as an inbound chunk of the Stream Reassembler
(R4, R211 to R215; log 8). -/

namespace Sys2Proof.Machine

/-- The engine takes in bytes that arrive as one inbound chunk: RA_PUSH of R215 once its chunk is read. -/
def receive (bytes : List Byte) (s : State) : Host.Outcome State Fault Refusal :=
  finish s (do
    require (s.enable = true) .notEnabled
    require (s.raLen + bytes.length ≤ s.params.raCapMax) .raOverflow
    s.pushChunk bytes)

/-- A version 1 frame arrives (R81, R211). -/
def execFrameV1 (f : FrameV1) (s : State) : Host.Outcome State Fault Refusal := receive f.bytes s

/-- An unsigned version 2 frame arrives (R82, R211). -/
def execFrameV2 (f : FrameV2) (s : State) : Host.Outcome State Fault Refusal := receive f.bytes s

/-- A signed version 2 frame arrives (R84, R211). -/
def execFrameV2Signed (f : FrameV2) (t : Trailer) (s : State) : Host.Outcome State Fault Refusal :=
  receive (f.bytes ++ t.bytes) s

end Sys2Proof.Machine
end

