-- ==== Sys2Proof/Machine/Dispatch.lean ====
section
/-! DEFINITION. One arm per row of spec/opcode_table.json. -/

namespace Sys2Proof.Machine

/-- The meaning of an instruction. -/
def exec (i : Instr) (s : State) : Host.Outcome State Fault Refusal :=
  match i with
  | .cksum => Sys2Proof.Machine.execCksum s
  | .fvDecode => Sys2Proof.Machine.execFvDecode s
  | .fvValidateCrc => Sys2Proof.Machine.execFvValidateCrc s
  | .fvHasSig => Sys2Proof.Machine.execFvHasSig s
  | .fvValidateSig => Sys2Proof.Machine.execFvValidateSig s
  | .fvSigTimestamp => Sys2Proof.Machine.execFvSigTimestamp s
  | .fvSigLinkId => Sys2Proof.Machine.execFvSigLinkId s
  | .packV1 => Sys2Proof.Machine.execPackV1 s
  | .packV2 => Sys2Proof.Machine.execPackV2 s
  | .scan => Sys2Proof.Machine.execScan s
  | .rplGet => Sys2Proof.Machine.execRplGet s
  | .raPush => Sys2Proof.Machine.execRaPush s
  | .raDrop => Sys2Proof.Machine.execRaDrop s
  | .frameV1 f => Sys2Proof.Machine.execFrameV1 f s
  | .frameV2 f => Sys2Proof.Machine.execFrameV2 f s
  | .frameV2Signed f t => Sys2Proof.Machine.execFrameV2Signed f t s

end Sys2Proof.Machine
end

