-- ==== Sys2Proof/Machine/HostWindow.lean ====
section
/-! DEFINITION. The host window (R20): which accesses are legal (R61), and what each read and write does (R234 to
R238). -/

namespace Sys2Proof.Machine

/-- The registers of R20. -/
inductive Reg where
  | id
  | ctrl
  | status
  | command
  | options
  | windowLo
  | windowHi
  | mapInitCap
  | mapLoadFactor
  | rxKeyLen
  | opKeyLen
  | raLen
  | raCap
  | arg (i : Fin 9)
  | res (i : Fin 4)
  | reserved
  deriving DecidableEq, Repr

/-- The register at a 4-aligned offset below 0x100 (R20). -/
def regAt (off : Nat) : Reg :=
  if off = 0x000 then .id
  else if off = 0x004 then .ctrl
  else if off = 0x008 then .status
  else if off = 0x00C then .command
  else if off = 0x010 then .options
  else if off = 0x014 then .windowLo
  else if off = 0x018 then .windowHi
  else if off = 0x01C then .mapInitCap
  else if off = 0x020 then .mapLoadFactor
  else if off = 0x024 then .rxKeyLen
  else if off = 0x028 then .opKeyLen
  else if off = 0x02C then .raLen
  else if off = 0x030 then .raCap
  else if 0x040 ≤ off ∧ off ≤ 0x060 then .arg (Fin.ofNat 9 ((off - 0x040) / 4))
  else if 0x080 ≤ off ∧ off ≤ 0x08C then .res (Fin.ofNat 4 ((off - 0x080) / 4))
  else .reserved

/-- The regions of the window (R20), a byte index where the region is a memory. -/
inductive Region where
  | register (r : Reg)
  | rxKey (i : Nat)
  | opKey (i : Nat)
  | frameRam (i : Nat)
  | reserved
  deriving DecidableEq, Repr

/-- The end of a FRAME_RAM of `size` bytes in the window (R20). -/
def frameRamEnd (size : Nat) : Nat := Config.frameRamBase + size

/-- The region at an offset, FRAME_RAM having `size` bytes (R20). -/
def regionOf (size off : Nat) : Region :=
  if off < 0x100 then .register (regAt off)
  else if off < 0x140 then .rxKey (off - 0x100)
  else if off < 0x180 then .opKey (off - 0x140)
  else if off < Config.frameRamBase then .reserved
  else if off < frameRamEnd size then .frameRam (off - Config.frameRamBase)
  else .reserved

/-- The accesses R61 allows, by width in bytes: in the register window 4, aligned; elsewhere 1, 2 or 4, naturally
aligned and not across the end of FRAME_RAM. -/
def legalAccess (size off width : Nat) : Bool :=
  if off < 0x100 then width == 4 && off % 4 == 0
  else (width == 1 || width == 2 || width == 4) && off % width == 0
    && !(decide (off < frameRamEnd size) && decide (frameRamEnd size < off + width))

/-- What a register reads as; no read has a side effect (R66, R237). COMMAND and reserved offsets read 0 (R25, R34). -/
def State.readReg (s : State) : Reg → Word
  | .id => Config.idValue
  | .ctrl => s.ctrlWord
  | .status => s.statusWord
  | .command => 0#32
  | .options => s.options.setWidth 32
  | .windowLo => s.windowLo
  | .windowHi => s.windowHi
  | .mapInitCap => s.mapInitCap
  | .mapLoadFactor => s.mapLoadFactor.setWidth 32
  | .rxKeyLen => s.rxKeyLen.setWidth 32
  | .opKeyLen => s.opKeyLen.setWidth 32
  | .raLen => natWord s.raLen
  | .raCap => natWord s.raCap
  | .arg i => s.arg i
  | .res i => s.res[i]
  | .reserved => 0#32

/-- The bytes a legal read returns (R62, R237), or the fault of an unwritten byte (R272). -/
def State.readRegion (s : State) (width : Nat) : Region → Run (List Byte)
  | .register r => .ok (leBytes 4 (s.readReg r).toNat)
  | .rxKey i => readKey s.rxKey .unwrittenRxKey i width
  | .opKey i => readKey s.opKey .unwrittenOpKey i width
  | .frameRam i => readBytes s.ram i width
  | .reserved => .ok (List.replicate width 0#8)

/-- A host read (R61, R237, R258). -/
def hostRead (off width : Nat) (s : State) : Host.Outcome State Fault Refusal :=
  if legalAccess s.params.memSize off width then
    match s.readRegion width (regionOf s.params.memSize off) with
    | .ok bytes => .next (s.respond (.data bytes))
    | .error (.raise code) => raise code s
    | .error (.fault f) => .fault f
  else .next (s.respond .busError)

/-- A COMMAND write (R235): an illegal word raises ILLEGAL_CMD, a legal one runs its command to completion (R63). -/
def issue (w : Word) (s : State) : Host.Outcome State Fault Refusal :=
  match decodeCommand w with
  | .ok i => exec i s
  | .error _ => raise .illegalCmd s

/-- A register write (R230, R234, R235, R238): reserved bits are dropped, read-only registers ignore it. -/
def writeReg (v : Word) (s : State) : Reg → Host.Outcome State Fault Refusal
  | .ctrl => .next (writeCtrl v s)
  | .command => issue v s
  | .options => .next (frozenWrite s { s with options := v.setWidth 5 })
  | .windowLo => .next (frozenWrite s { s with windowLo := v })
  | .windowHi => .next (frozenWrite s { s with windowHi := v })
  | .mapInitCap => .next (frozenWrite s { s with mapInitCap := v })
  | .mapLoadFactor => .next (frozenWrite s { s with mapLoadFactor := v.setWidth 16 })
  | .rxKeyLen => .next (frozenWrite s { s with rxKeyLen := v.setWidth 8 })
  | .opKeyLen => .next { s with opKeyLen := v.setWidth 8 }
  | .arg i => .next (s.setArg i v)
  | .id | .status | .raLen | .raCap | .res _ | .reserved => .next s

/-- A legal write's effect on its region (R234, R238). -/
def writeRegion (data : List Byte) (s : State) : Region → Host.Outcome State Fault Refusal
  | .register r => writeReg (BitVec.ofNat 32 (fromLE data)) s r
  | .rxKey i => .next (frozenWrite s { s with rxKey := s.rxKey.writeBytes i data })
  | .opKey i => .next { s with opKey := s.opKey.writeBytes i data }
  | .frameRam i => .next (s.setFrameRam (s.frameRam.writeBytes i data))
  | .reserved => .next s

/-- A host write (R61, R258). -/
def hostWrite (off : Nat) (data : List Byte) (s : State) : Host.Outcome State Fault Refusal :=
  if legalAccess s.params.memSize off data.length then writeRegion data (s.respond .done) (regionOf s.params.memSize off)
  else .next (s.respond .busError)

/-- One host access (R61). -/
def access (s : State) : HostAccess → Host.Outcome State Fault Refusal
  | .read off width => hostRead off.toNat width s
  | .write off data => hostWrite off.toNat data s

/-- The host offset of COMMAND (R20). -/
def commandOffset : BitVec 16 := 0x00C#16

/-- The COMMAND write that starts the command of an opcode: `CMD` of R101. -/
def commandWrite (op : Byte) : HostAccess := .write commandOffset (leBytes 4 (commandWord op).toNat)

/-- The machine made ready to take in a frame's bytes as its next chunk (log 9): the bytes at FRAME_RAM index 0, RA_PUSH's
operands naming them, the instance enabled, and the RA_PUSH command next. -/
def State.stageFrame (s : State) (bytes : List Byte) : State :=
  let placed := ((s.setFrameRam (s.frameRam.writeBytes 0 bytes)).setArg 0 0#32).setArg 1 (natWord bytes.length)
  { placed with enable := true, pending := commandWrite 0x40#8 :: s.pending }

/-- A table row's bytes placed where the next step takes its instruction from (log 9): a command word as the next COMMAND
write, a frame as the next chunk. -/
def State.placeBytes (s : State) (bytes : List Byte) : State :=
  match decodeFrame bytes with
  | .ok (i, _) => s.stageFrame (encode i)
  | .error _ => s.setPending (.write commandOffset (bytes.take 4) :: s.pending)

end Sys2Proof.Machine
end

