-- ==== Sys2Proof/Machine/Step.lean ====
section
/-! DEFINITION. One step of the machine (R63, R239). -/

namespace Sys2Proof.Machine

/-- One step: the host's next access, taken and completed (R63, R64). With none to come the block is idle and holds its
state (R264). -/
def step (s : State) : Host.Outcome State Fault Refusal :=
  match s.pending with
  | [] => .next s
  | a :: rest => access (s.setPending rest) a

/-- A table row's word placed so that the very next step runs its instruction (log 9). -/
def State.withFetchWord (s : State) (nbits w : Nat) : State := s.placeBytes (tableBytes nbits w)

end Sys2Proof.Machine
end

