-- ==== Sys2Proof/Safety.lean ====
section
/-! DEFINITION. What statements about a run speak of: a safe step, which bytes are written, and the invariant of the
machine. -/

namespace Sys2Proof.Machine

/-- A step that has a continuation. -/
abbrev Completes (o : Host.Outcome State Fault Refusal) : Prop := ∃ t, o = .next t

/-- FRAME_RAM holds the bytes `L` at `a..a+len(L)`: they are written, and these are they (R272). -/
abbrev State.holds (s : State) (a : Nat) (L : List Byte) : Prop := ∀ i, i < L.length → s.frameRam.read (a + i) = L[i]?

/-- Every FRAME_RAM byte of `[a, a+n)` has been written since hardware reset (R272, R273 step 4). -/
abbrev State.written (s : State) (a n : Nat) : Prop := ∀ i, i < n → (s.frameRam.read (a + i)).isSome = true

/-- Every RX_KEY byte below RX_KEY_LEN has been written (R272). -/
abbrev State.rxKeyWritten (s : State) : Prop := ∀ i, i < s.rxKeyLen.toNat → (s.rxKey.read i).isSome = true

/-- Every OP_KEY byte below OP_KEY_LEN has been written (R272). -/
abbrev State.opKeyWritten (s : State) : Prop := ∀ i, i < s.opKeyLen.toNat → (s.opKey.read i).isSome = true

/-- OP_KEY holds exactly the key `k`: OP_KEY_LEN is its length, within KEY_MAX, and the window's bytes are its (R30). -/
abbrev State.opKeyIs (s : State) (k : List Byte) : Prop :=
  s.opKeyLen.toNat = k.length ∧ k.length ≤ s.params.keyMax ∧ ∀ i, i < k.length → s.opKey.read i = k[i]?

/-- RX_KEY holds exactly the key `k` (R29). -/
abbrev State.rxKeyIs (s : State) (k : List Byte) : Prop :=
  s.rxKeyLen.toNat = k.length ∧ k.length ≤ s.params.keyMax ∧ ∀ i, i < k.length → s.rxKey.read i = k[i]?

/-- The outcome is the fault of an unwritten FRAME_RAM byte (R272). -/
abbrev State.faultsOnByte (s : State) (o : Host.Outcome State Fault Refusal) : Prop :=
  ∃ a, s.frameRam.read a = none ∧ o = .fault (.unwrittenByte a)

/-- The outcome is the fault of an unwritten RX_KEY byte (R272). -/
abbrev State.faultsOnRxKey (s : State) (o : Host.Outcome State Fault Refusal) : Prop :=
  ∃ a, s.rxKey.read a = none ∧ o = .fault (.unwrittenRxKey a)

/-- The outcome is the fault of an unwritten OP_KEY byte (R272). -/
abbrev State.faultsOnOpKey (s : State) (o : Host.Outcome State Fault Refusal) : Prop :=
  ∃ a, s.opKey.read a = none ∧ o = .fault (.unwrittenOpKey a)

/-- Every record of `m` is in `m'`, no older (R132, R136). -/
def ReplayMap.grows (m m' : ReplayMap) : Prop :=
  ∀ key v, Sparse.get m key = some v → ∃ v', Sparse.get m' key = some v' ∧ v.toNat ≤ v'.toNat

/-- A frame the scanner accepted: its span of the buffer, and the map before and after its check (R181, R187). -/
structure Accepted where
  start  : Nat
  total  : Nat
  before : ReplayMap
  after  : ReplayMap
  deriving DecidableEq, Repr

/-- A chunk as the host places it for RA_PUSH: its bytes at FRAME_RAM index `a`, ARG0 and ARG1 naming them (R215). -/
def State.placeChunk (s : State) (a : Nat) (chunk : List Byte) : State :=
  ((s.setFrameRam (s.frameRam.writeBytes a chunk)).setArg 0 (natWord a)).setArg 1 (natWord chunk.length)

/-- RA_PUSH of each chunk in turn, each placed at its own index. -/
def State.pushAll : State → List (Nat × List Byte) → Host.Outcome State Fault Refusal
  | s, [] => .next s
  | s, (a, chunk) :: rest =>
    match exec .raPush (s.placeChunk a chunk) with
    | .next t => t.pushAll rest
    | o => o

/-- A memory of `size` bytes in canonical form. -/
def Memory.within (m : Memory) (size : Nat) : Prop := m.wf = true ∧ ∀ a, size ≤ a → m.read a = none

/-- The invariant of the machine. -/
structure State.Inv (s : State) : Prop where
  /-- FRAME_RAM is canonical and has MEM_SIZE bytes (R36). -/
  frameRam : s.frameRam.within s.params.memSize
  /-- RX_KEY is canonical and has 64 bytes (R29). -/
  rxKey : s.rxKey.within Config.keyWindow
  /-- OP_KEY is canonical and has 64 bytes (R30). -/
  opKey : s.opKey.within Config.keyWindow
  /-- `RA_LEN <= RA_CAP <= RA_CAP_MAX` (R37), and RA_CAP never falls below RA_INIT_CAP (R211). -/
  accBounds : s.acc.length ≤ s.raCap ∧ s.raCap ≤ s.params.raCapMax ∧ s.params.raInitCap ≤ s.raCap
  /-- The map is canonical (R38). -/
  mapCanonical : Sparse.wf s.replayMap = true
  /-- Every key is a composite key below 2^24, so never the sentinel (R130, R134). -/
  mapKeys : ∀ k, 2 ^ 24 ≤ k → Sparse.get s.replayMap k = none
  /-- Every value is a 48-bit timestamp (R38). -/
  mapValues : ∀ k v, Sparse.get s.replayMap k = some v → v.toNat < 2 ^ 48
  /-- An instance was built from a legal configuration (R231), which is frozen while it lives (R35). -/
  configured : s.enable = true → s.mapLoadFactor ≠ 0#16 ∧ s.rxKeyLen.toNat ≤ s.params.keyMax
  /-- The sizes are legal (R6; log 7). -/
  sizes : s.params.Legal
  /-- Without an instance there is no map, no accumulated byte and no grown buffer (R37, R38, R232). -/
  disabled : s.enable = false → s.replayMap = [] ∧ s.acc = [] ∧ s.raCap = s.params.raInitCap

end Sys2Proof.Machine
end

