-- ==== Sys2Proof/Certificates/Slice0/Obligations.lean ====
section
/-! DEFINITION. The statements about the machine, one `def Obligations.<Name> : Prop` each. In a statement about `step`,
`(s.setPending rest).respond .done` is the state in which the bus has taken the host's next write (log 1, 2). -/

open Sys2Proof Sys2Proof.Machine

/-! ### Encoding -/

/-- Words written out from R97 and frames written out from 95_test_vectors.md section 2 decode to what they stand for. -/
def Obligations.SpecWordsDecode : Prop :=
  decode [0x01#8, 0x00#8, 0x00#8, 0x00#8] = .ok (.cksum, []) ∧
  decode [0x21#8, 0x00#8, 0x00#8, 0x00#8] = .ok (.packV2, []) ∧
  decode [0x41#8, 0x00#8, 0x00#8, 0x00#8] = .ok (.raDrop, []) ∧
  decode [0xFE#8, 0x07#8, 0x03#8, 0x01#8, 0x01#8, 0x00#8, 0x00#8, 0x00#8, 0x00#8, 0x00#8, 0x02#8, 0x03#8, 0x51#8,
      0xA3#8, 0xD8#8] =
    .ok (.frameV1 ⟨3#8, 1#8, 1#8, 0#8, [0#8, 0#8, 0#8, 0#8, 2#8, 3#8, 0x51#8], 0xD8A3#16⟩, [])

/-- Decoding an encoded well-formed instruction gives it back, and leaves what follows it (R81 to R84, R95, R97). -/
def Obligations.DecodeEncodeRoundTrip : Prop :=
  ∀ (i : Instr) (rest : List Byte), i.wf = true → decode (encode i ++ rest) = .ok (i, rest)

/-- Bytes that decode are the encoding of a well-formed instruction, so each has one meaning (R80, R94, R96). -/
def Obligations.DecodedBytesAreTheEncoding : Prop :=
  ∀ (bs rest : List Byte) (i : Instr), decode bs = .ok (i, rest) → i.wf = true ∧ encode i ++ rest = bs

/-- R96 with R97's table: a word with bits 31:8 zero and an assigned opcode runs that opcode's command, every other word
raises ILLEGAL_CMD with no other effect. -/
def Obligations.CommandWordLegality : Prop :=
  ∀ (s : State) (w : Word) (rest : List HostAccess),
    s.pending = .write commandOffset (leBytes 4 w.toNat) :: rest →
    (∀ i, w.extractLsb' 8 24 = 0#24 →
      (w.extractLsb' 0 8, i) ∈ [(0x01#8, Instr.cksum), (0x10#8, .fvDecode), (0x11#8, .fvValidateCrc),
        (0x12#8, .fvHasSig), (0x13#8, .fvValidateSig), (0x14#8, .fvSigTimestamp), (0x15#8, .fvSigLinkId),
        (0x20#8, .packV1), (0x21#8, .packV2), (0x30#8, .scan), (0x31#8, .rplGet), (0x40#8, .raPush),
        (0x41#8, .raDrop)] →
      step s = exec i ((s.setPending rest).respond .done)) ∧
    (w.extractLsb' 8 24 ≠ 0#24 ∨
      w.extractLsb' 0 8 ∉ [0x01#8, 0x10#8, 0x11#8, 0x12#8, 0x13#8, 0x14#8, 0x15#8, 0x20#8, 0x21#8, 0x30#8, 0x31#8,
        0x40#8, 0x41#8] →
      step s = .next (((s.setPending rest).respond .done).setErr .illegalCmd))

/-- A step whose next access writes a command's encoding to COMMAND is that command's meaning, in the state in which the
access is taken (R63, R235). -/
def Obligations.StepRunsCommand : Prop :=
  ∀ (s : State) (i : Instr) (rest : List HostAccess), opcodeOf i ≠ none →
    s.pending = .write commandOffset (encode i) :: rest →
    step s = exec i ((s.setPending rest).respond .done)

/-- A step whose next access is RA_PUSH of a FRAME_RAM range that holds exactly one well-formed frame is that frame's
meaning (R211, R215): the tie of the wire rows to what the spec executes (the model's choice, log 8). -/
def Obligations.StepRunsFrame : Prop :=
  ∀ (s : State) (i : Instr) (rest : List HostAccess), i.wf = true → opcodeOf i = none →
    s.pending = commandWrite 0x40#8 :: rest →
    s.argNat 1 = (encode i).length → s.argNat 0 + (encode i).length ≤ s.params.memSize →
    s.holds (s.argNat 0) (encode i) →
    step s = exec i ((s.setPending rest).respond .done)

/-- A table row's word placed for the next step is run by it (the model's way of loading a program, log 9). -/
def Obligations.PlacedWordRuns : Prop :=
  ∀ (s : State) (nbits w : Nat) (i : Instr), s.params.Legal → decodeTableWord nbits w = some i →
    step (s.withFetchWord nbits w) = exec i (((s.withFetchWord nbits w).setPending s.pending).respond .done)

/-! ### Reset and control -/

/-- R271's three columns: hardware reset of a machine of any parameters, soft reset and disable. -/
def Obligations.ResetValues : Prop :=
  State.reset = State.resetWith Params.default ∧
  (∀ p : Params, let r := State.resetWith p
    r.enable = false ∧ r.err = .ok ∧ r.options = 0x01#5 ∧ r.windowLo = 0#32 ∧ r.windowHi = 0#32 ∧
    r.mapInitCap = 16#32 ∧ r.mapLoadFactor = 0xC000#16 ∧ r.rxKeyLen = 0#8 ∧ r.opKeyLen = 0#8 ∧
    (∀ i, r.arg i = 0#32) ∧ (∀ i : Fin 4, r.res[i] = 0#32) ∧ r.acc = [] ∧ r.raCap = p.raInitCap ∧
    r.replayMap = [] ∧ r.frameOut = [] ∧ r.params = p ∧
    ∀ a, r.frameRam.read a = none ∧ r.rxKey.read a = none ∧ r.opKey.read a = none) ∧
  ∀ (s : State) (v : Word) (rest : List HostAccess), s.pending = .write 0x004#16 (leBytes 4 v.toNat) :: rest →
    v.getLsbD 1 = true ∨ (v.getLsbD 0 = false ∧ s.enable = true) →
    step s = .next { (s.setPending rest).respond .done with
      enable := false, err := .ok, acc := [], raCap := s.params.raInitCap, replayMap := [] }

/-- A CTRL write (R230 to R232): soft reset first; then enabling, refused with BAD_CONFIG or building a fresh instance;
then disabling; otherwise nothing but ERR = OK. Nothing but a CTRL write changes CTRL.ENABLE. -/
def Obligations.CtrlWrite : Prop :=
  (∀ (s : State) (v : Word) (rest : List HostAccess), s.pending = .write 0x004#16 (leBytes 4 v.toNat) :: rest →
    let t := (s.setPending rest).respond .done
    let none_ := { t with enable := false, replayMap := [], acc := [], raCap := s.params.raInitCap, err := .ok }
    (v.getLsbD 1 = true → step s = .next none_) ∧
    (v.getLsbD 1 = false → v.getLsbD 0 = true → s.enable = false →
      (s.mapLoadFactor = 0#16 ∨ s.params.keyMax < s.rxKeyLen.toNat → step s = .next { t with err := .badConfig }) ∧
      (s.mapLoadFactor ≠ 0#16 → s.rxKeyLen.toNat ≤ s.params.keyMax →
        step s = .next { t with enable := true, replayMap := [], acc := [], raCap := s.params.raInitCap, err := .ok })) ∧
    (v.getLsbD 1 = false → v.getLsbD 0 = false → s.enable = true → step s = .next none_) ∧
    (v.getLsbD 1 = false → v.getLsbD 0 = s.enable → step s = .next { t with err := .ok })) ∧
  (∀ s t : State, step s = .next t → t.enable ≠ s.enable →
    ∃ data rest, s.pending = .write 0x004#16 data :: rest ∧ data.length = 4)

/-- A write to the frozen group (R234): CFG_LOCKED and nothing else while enabled; while disabled the written bits, ERR
unchanged. The RX_KEY window is written at any legal width. -/
def Obligations.FrozenGroupWrites : Prop :=
  ∀ (s : State) (rest : List HostAccess),
    let t := (s.setPending rest).respond .done
    (∀ (v : Word) (off : BitVec 16) (stored : State),
      (off, stored) ∈ [(0x010#16, { t with options := v.setWidth 5 }), (0x014#16, { t with windowLo := v }),
        (0x018#16, { t with windowHi := v }), (0x01C#16, { t with mapInitCap := v }),
        (0x020#16, { t with mapLoadFactor := v.setWidth 16 }), (0x024#16, { t with rxKeyLen := v.setWidth 8 })] →
      s.pending = .write off (leBytes 4 v.toNat) :: rest →
      (s.enable = true → step s = .next (t.setErr .cfgLocked)) ∧ (s.enable = false → step s = .next stored)) ∧
    (∀ (off : BitVec 16) (data : List Byte), 0x100 ≤ off.toNat → off.toNat < 0x140 →
      data.length = 1 ∨ data.length = 2 ∨ data.length = 4 → off.toNat % data.length = 0 →
      s.pending = .write off data :: rest →
      (s.enable = true → step s = .next (t.setErr .cfgLocked)) ∧
      (s.enable = false → step s = .next { t with rxKey := s.rxKey.writeBytes (off.toNat - 0x100) data }))

/-- Writes to read-only registers and reserved offsets are ignored; ARG registers, OP_KEY_LEN, the OP_KEY window and
FRAME_RAM store, at any ENABLE, with no other effect (R238). -/
def Obligations.PlainWrites : Prop :=
  ∀ (s : State) (rest : List HostAccess),
    let t := (s.setPending rest).respond .done
    (∀ (v : Word) (off : BitVec 16), s.pending = .write off (leBytes 4 v.toNat) :: rest →
      (off ∈ [0x000#16, 0x008#16, 0x02C#16, 0x030#16, 0x080#16, 0x084#16, 0x088#16, 0x08C#16] → step s = .next t) ∧
      (off.toNat % 4 = 0 → (0x034 ≤ off.toNat ∧ off.toNat < 0x040) ∨ (0x064 ≤ off.toNat ∧ off.toNat < 0x080) ∨
        (0x090 ≤ off.toNat ∧ off.toNat < 0x100) → step s = .next t) ∧
      (off = 0x028#16 → step s = .next { t with opKeyLen := v.setWidth 8 }) ∧
      (∀ i : Fin 9, off.toNat = 0x040 + 4 * i → step s = .next (t.setArg i v))) ∧
    (∀ (off : BitVec 16) (data : List Byte), s.pending = .write off data :: rest →
      data.length = 1 ∨ data.length = 2 ∨ data.length = 4 → off.toNat % data.length = 0 →
      (0x140 ≤ off.toNat → off.toNat < 0x180 →
        step s = .next { t with opKey := s.opKey.writeBytes (off.toNat - 0x140) data }) ∧
      (0x8000 ≤ off.toNat → off.toNat + data.length ≤ 0x8000 + s.params.memSize →
        step s = .next (t.setFrameRam (s.frameRam.writeBytes (off.toNat - 0x8000) data))) ∧
      ((0x180 ≤ off.toNat ∧ off.toNat < 0x8000) ∨ 0x8000 + s.params.memSize ≤ off.toNat → step s = .next t))

/-- A read returns the current value, least significant byte first, and changes nothing but the bus's answer (R62, R237):
every register, both key windows, FRAME_RAM, and reserved offsets, which read 0. -/
def Obligations.HostReads : Prop :=
  ∀ (s : State) (rest : List HostAccess) (off : BitVec 16) (width : Nat), s.pending = .read off width :: rest →
    let answer := fun (bytes : List Byte) => (s.setPending rest).respond (.data bytes)
    (∀ v : Word, width = 4 →
      (off, v) ∈ [(0x000#16, 0x4D41564C#32), (0x004#16, BitVec.ofNat 32 s.enable.toNat),
        (0x008#16, BitVec.ofNat 32 (256 * s.enable.toNat + s.err.toByte.toNat)), (0x00C#16, 0#32),
        (0x010#16, BitVec.ofNat 32 s.options.toNat), (0x014#16, s.windowLo), (0x018#16, s.windowHi),
        (0x01C#16, s.mapInitCap), (0x020#16, BitVec.ofNat 32 s.mapLoadFactor.toNat),
        (0x024#16, BitVec.ofNat 32 s.rxKeyLen.toNat), (0x028#16, BitVec.ofNat 32 s.opKeyLen.toNat),
        (0x02C#16, BitVec.ofNat 32 s.acc.length), (0x030#16, BitVec.ofNat 32 s.raCap),
        (0x080#16, s.res[0]), (0x084#16, s.res[1]), (0x088#16, s.res[2]), (0x08C#16, s.res[3])] →
      step s = .next (answer (leBytes 4 v.toNat))) ∧
    (∀ i : Fin 9, width = 4 → off.toNat = 0x040 + 4 * i → step s = .next (answer (leBytes 4 (s.arg i).toNat))) ∧
    (width = 4 → off.toNat % 4 = 0 → (0x034 ≤ off.toNat ∧ off.toNat < 0x040) ∨
      (0x064 ≤ off.toNat ∧ off.toNat < 0x080) ∨ (0x090 ≤ off.toNat ∧ off.toNat < 0x100) →
      step s = .next (answer [0#8, 0#8, 0#8, 0#8])) ∧
    (width = 1 ∨ width = 2 ∨ width = 4 → off.toNat % width = 0 → ∀ bytes : List Byte, bytes.length = width →
      (0x100 ≤ off.toNat → off.toNat < 0x140 →
        (∀ i, i < width → s.rxKey.read (off.toNat - 0x100 + i) = bytes[i]?) → step s = .next (answer bytes)) ∧
      (0x140 ≤ off.toNat → off.toNat < 0x180 →
        (∀ i, i < width → s.opKey.read (off.toNat - 0x140 + i) = bytes[i]?) → step s = .next (answer bytes)) ∧
      (0x8000 ≤ off.toNat → off.toNat + width ≤ 0x8000 + s.params.memSize → s.holds (off.toNat - 0x8000) bytes →
        step s = .next (answer bytes)) ∧
      ((0x180 ≤ off.toNat ∧ off.toNat < 0x8000) ∨ 0x8000 + s.params.memSize ≤ off.toNat →
        step s = .next (answer (List.replicate width 0#8))))

/-- The widths and alignments of R61: in the register window 4 bytes, aligned; elsewhere 1, 2 or 4 bytes, naturally
aligned, and not across the end of FRAME_RAM. Any other access is a bus error that changes no state, not even
STATUS.ERR (R258); an allowed one is none. -/
def Obligations.BusErrors : Prop :=
  ∀ (s : State) (a : HostAccess) (rest : List HostAccess) (off width : Nat), s.pending = a :: rest →
    (off, width) = (match a with
      | .read o n => (o.toNat, n)
      | .write o data => (o.toNat, data.length)) →
    let allowed := (off < 0x100 ∧ width = 4 ∧ off % 4 = 0) ∨
      (0x100 ≤ off ∧ (width = 1 ∨ width = 2 ∨ width = 4) ∧ off % width = 0 ∧
        ¬ (off < 0x8000 + s.params.memSize ∧ 0x8000 + s.params.memSize < off + width))
    (¬ allowed → step s = .next ((s.setPending rest).respond .busError)) ∧
    (allowed → ∀ t, step s = .next t → t.response ≠ .busError)

/-- Reading a byte never written since hardware reset has no continuation (R272): a host read; the range of CKSUM, of a
chunk and of a payload; the header and the frame bytes an FV_ command reads; a byte SCAN meets; and a key byte used by
FV_VALIDATE_SIG, PACK_V2, SCAN and RA_PUSH. Where a command would also raise an error, which comes first is log 13, and
which bytes are read is log 11, 12. -/
def Obligations.UnwrittenReadsFault : Prop :=
  -- the host
  (∀ (s : State) (rest : List HostAccess) (off : BitVec 16) (width : Nat), s.pending = .read off width :: rest →
    width = 1 ∨ width = 2 ∨ width = 4 → off.toNat % width = 0 →
    (0x8000 ≤ off.toNat → off.toNat + width ≤ 0x8000 + s.params.memSize → ¬ s.written (off.toNat - 0x8000) width →
      s.faultsOnByte (step s)) ∧
    (∀ i, i < width →
      (0x100 ≤ off.toNat → off.toNat < 0x140 → s.rxKey.read (off.toNat - 0x100 + i) = none → s.faultsOnRxKey (step s)) ∧
      (0x140 ≤ off.toNat → off.toNat < 0x180 → s.opKey.read (off.toNat - 0x140 + i) = none →
        s.faultsOnOpKey (step s)))) ∧
  -- CKSUM and RA_PUSH
  (∀ s : State, s.argNat 0 + s.argNat 1 ≤ s.params.memSize → ¬ s.written (s.argNat 0) (s.argNat 1) →
    s.faultsOnByte (exec .cksum s) ∧
    (s.enable = true → s.acc.length + s.argNat 1 ≤ s.params.raCapMax → s.faultsOnByte (exec .raPush s))) ∧
  -- a payload
  (∀ s : State, s.packPayloadLen ≤ 255 → s.packSrc + s.packPayloadLen ≤ s.params.memSize →
    ¬ s.written s.packSrc s.packPayloadLen →
    (s.packMessageId.toNat ≤ 255 → 8 + s.packPayloadLen ≤ s.packDstLen →
      s.packDst + (8 + s.packPayloadLen) ≤ s.params.memSize → s.faultsOnByte (exec .packV1 s)) ∧
    (s.opKeyLen.toNat ≤ s.params.keyMax → s.packIncompat.getLsbD 0 = false ∨ s.opKeyLen ≠ 0#8 →
      s.faultsOnByte (exec .packV2 s))) ∧
  -- a header
  (∀ (s : State) (i : Instr), i ∈ [Instr.fvDecode, .fvValidateCrc, .fvHasSig, .fvValidateSig, .fvSigTimestamp,
      .fvSigLinkId] → s.argNat 0 < s.params.memSize →
    (s.frameRam.read (s.argNat 0) = none → s.faultsOnByte (exec i s)) ∧
    (s.frameRam.read (s.argNat 0) = some 0xFE#8 → s.argNat 0 + 6 ≤ s.params.memSize → ¬ s.written (s.argNat 0) 6 →
      s.faultsOnByte (exec i s)) ∧
    (s.frameRam.read (s.argNat 0) = some 0xFD#8 → s.argNat 0 + 10 ≤ s.params.memSize → ¬ s.written (s.argNat 0) 10 →
      s.faultsOnByte (exec i s))) ∧
  -- a frame behind its header
  (∀ (s : State) (f : FrameV1), f.wf = true → s.holds (s.argNat 0) f.header →
    s.argNat 0 + (8 + f.payload.length) ≤ s.params.memSize → ¬ s.written (s.argNat 0) (8 + f.payload.length) →
    s.faultsOnByte (exec .fvValidateCrc s)) ∧
  (∀ (s : State) (f : FrameV2), f.wf = true → s.holds (s.argNat 0) f.header →
    let through := 12 + f.payload.length
    (s.argNat 0 + (through + if f.signedBit then 13 else 0) ≤ s.params.memSize → ¬ s.written (s.argNat 0) through →
      s.faultsOnByte (exec .fvValidateCrc s)) ∧
    (f.signedBit = true → s.argNat 0 + (through + 13) ≤ s.params.memSize →
      (s.frameRam.read (s.argNat 0 + through) = none → s.faultsOnByte (exec .fvSigLinkId s)) ∧
      (¬ s.written (s.argNat 0 + through + 1) 6 → s.faultsOnByte (exec .fvSigTimestamp s)) ∧
      (s.opKeyLen ≠ 0#8 → s.opKeyLen.toNat ≤ s.params.keyMax →
        (s.opKeyWritten → ¬ s.written (s.argNat 0) (through + 13) → s.faultsOnByte (exec .fvValidateSig s)) ∧
        (¬ s.opKeyWritten → s.faultsOnOpKey (exec .fvValidateSig s))))) ∧
  -- the key of PACK_V2
  (∀ s : State, s.packPayloadLen ≤ 255 → s.opKeyLen.toNat ≤ s.params.keyMax → ¬ s.opKeyWritten →
    s.packSrc + s.packPayloadLen ≤ s.params.memSize → s.written s.packSrc s.packPayloadLen →
    25 + s.packPayloadLen ≤ s.packDstLen → s.packDst + (25 + s.packPayloadLen) ≤ s.params.memSize →
    s.faultsOnOpKey (exec .packV2 s)) ∧
  -- a byte SCAN meets
  (∀ (s : State) (noise : List Byte), s.enable = true → s.argNat 1 ≤ s.params.memSize → s.holds (s.argNat 0) noise →
    (∀ b ∈ noise, b ≠ 0xFE#8 ∧ b ≠ 0xFD#8) →
    let c := s.argNat 0 + noise.length
    (c < s.argNat 1 → s.frameRam.read c = none → s.faultsOnByte (exec .scan s)) ∧
    (s.frameRam.read c = some 0xFE#8 → c + 6 ≤ s.argNat 1 → ¬ s.written c 6 → s.faultsOnByte (exec .scan s)) ∧
    (s.frameRam.read c = some 0xFD#8 → c + 10 ≤ s.argNat 1 → ¬ s.written c 10 → s.faultsOnByte (exec .scan s))) ∧
  -- the receive key
  (∀ (s : State) (f : FrameV2) (t : Trailer), (Instr.frameV2Signed f t).wf = true → f.incompat &&& 0xFE#8 = 0#8 →
    s.enable = true → s.strict = true → s.options.getLsbD 2 = true → ¬ s.rxKeyWritten →
    s.holds (s.argNat 0) (f.bytes ++ t.bytes) →
    let total := 25 + f.payload.length
    (s.argNat 1 ≤ s.params.memSize → s.argNat 0 + total ≤ s.argNat 1 → s.faultsOnRxKey (exec .scan s)) ∧
    (s.argNat 1 = total → s.argNat 0 + total ≤ s.params.memSize → total ≤ s.params.raCapMax → s.acc = [] →
      s.faultsOnRxKey (exec .raPush s)))

/-! ### Checksum Engine -/

/-- R120: the byte-wise update on unbounded integers with its truncations, and its bit-serial form. -/
def Obligations.CrcUpdate : Prop :=
  ∀ (b : Byte) (crc : BitVec 16),
    (let tmp := b.toNat ^^^ crc.toNat % 256
     let tmp' := (tmp ^^^ tmp * 16) % 256
     (crcAccumulate b crc).toNat = (crc.toNat / 256 ^^^ tmp' * 256 ^^^ tmp' * 8 ^^^ tmp' / 16) % 65536) ∧
    crcAccumulate b crc =
      (fun c : BitVec 16 => (c >>> 1) ^^^ (if c.getLsbD 0 then 0x8408#16 else 0#16))^[8] (crc ^^^ b.setWidth 16)

/-- R121 and R122: CKSUM of a range whose bytes are `L` is the fold of `L` and then of the extra byte from seed 0xFFFF,
with no final inversion, in RES0, the other results unchanged; a range outside FRAME_RAM raises OUT_OF_RANGE. -/
def Obligations.CksumResult : Prop :=
  ∀ (s : State) (L : List Byte),
    (s.argNat 0 + s.argNat 1 ≤ s.params.memSize → L.length = s.argNat 1 → s.holds (s.argNat 0) L →
      exec .cksum s = .next ((s.setRes 0 (0#16 ++
        crcAccumulate ((s.arg 2).extractLsb' 0 8) (L.foldl (fun c b => crcAccumulate b c) 0xFFFF#16))).setErr .ok)) ∧
    (s.params.memSize < s.argNat 0 + s.argNat 1 → exec .cksum s = .next (s.setErr .outOfRange))

/-- R124: changing one covered byte, and so any one bit, always changes the checksum. -/
def Obligations.ChecksumDetectsByteChange : Prop :=
  ∀ (before after : List Byte) (x y extra : Byte), x ≠ y →
    checksum (before ++ x :: after) extra ≠ checksum (before ++ y :: after) extra

/-! ### Frame View -/

/-- R140: what every FV_ command does with a header it cannot decode: out of range, no magic, or cut by the end. -/
def Obligations.FvHeaderErrors : Prop :=
  ∀ (s : State) (i : Instr), i ∈ [Instr.fvDecode, .fvValidateCrc, .fvHasSig, .fvValidateSig, .fvSigTimestamp,
      .fvSigLinkId] →
    (s.params.memSize ≤ s.argNat 0 → exec i s = .next (s.setErr .outOfRange)) ∧
    (∀ m, s.argNat 0 < s.params.memSize → s.frameRam.read (s.argNat 0) = some m →
      (m ≠ 0xFE#8 → m ≠ 0xFD#8 → exec i s = .next (s.setErr .notAFrame)) ∧
      (m = 0xFE#8 → s.params.memSize < s.argNat 0 + 6 → exec i s = .next (s.setErr .outOfRange)) ∧
      (m = 0xFD#8 → s.params.memSize < s.argNat 0 + 10 → exec i s = .next (s.setErr .outOfRange)))

/-- R142 on the two header layouts of R81 and R82: every field where R100 puts it, RES3 from the start and the lengths
of R87; only the header need be in memory. -/
def Obligations.FvDecodeResult : Prop :=
  (∀ (s : State) (n seq sys comp msg : Byte), s.argNat 0 + 6 ≤ s.params.memSize →
    s.holds (s.argNat 0) [0xFE#8, n, seq, sys, comp, msg] →
    exec .fvDecode s = .next ((s.setResults (0#8 ++ 0#8 ++ n ++ 1#8) (6#8 ++ comp ++ sys ++ seq) (0#24 ++ msg)
      (BitVec.ofNat 16 (8 + n.toNat) ++ BitVec.ofNat 16 (s.argNat 0 + 6))).setErr .ok)) ∧
  (∀ (s : State) (n inc cmp seq sys comp m0 m1 m2 : Byte), s.argNat 0 + 10 ≤ s.params.memSize →
    s.holds (s.argNat 0) [0xFD#8, n, inc, cmp, seq, sys, comp, m0, m1, m2] →
    exec .fvDecode s = .next ((s.setResults (cmp ++ inc ++ n ++ 2#8) (10#8 ++ comp ++ sys ++ seq)
      (0#7 ++ BitVec.ofBool (inc.getLsbD 0) ++ m2 ++ m1 ++ m0)
      (BitVec.ofNat 16 (12 + n.toNat + (if inc.getLsbD 0 then 13 else 0)) ++
        BitVec.ofNat 16 (s.argNat 0 + 10))).setErr .ok))

/-- R146: FV_HAS_SIG is 0 for version 1, and incompatibility bit 0 for version 2; the payload need not be in memory. -/
def Obligations.FvHasSigResult : Prop :=
  (∀ (s : State) (n seq sys comp msg : Byte), s.argNat 0 + 6 ≤ s.params.memSize →
    s.holds (s.argNat 0) [0xFE#8, n, seq, sys, comp, msg] →
    exec .fvHasSig s = .next ((s.setRes 0 0#32).setErr .ok)) ∧
  (∀ (s : State) (n inc cmp seq sys comp m0 m1 m2 : Byte), s.argNat 0 + 10 ≤ s.params.memSize →
    s.holds (s.argNat 0) [0xFD#8, n, inc, cmp, seq, sys, comp, m0, m1, m2] →
    exec .fvHasSig s = .next ((s.setRes 0 (if inc.getLsbD 0 then 1#32 else 0#32)).setErr .ok))

/-- R143 and R144 on the bytes of a version 1 and of a version 2 frame: the checksum of the header without its magic and
the payload, against the stored one; OUT_OF_RANGE when the frame, a trailer included, passes the end of FRAME_RAM. -/
def Obligations.FvValidateCrcResult : Prop :=
  (∀ (s : State) (f : FrameV1), f.wf = true → s.argNat 0 + 6 ≤ s.params.memSize → s.holds (s.argNat 0) f.header →
    let crc := checksum (f.header.drop 1 ++ f.payload) ((s.arg 1).extractLsb' 0 8)
    let total := 8 + f.payload.length
    (s.argNat 0 + total ≤ s.params.memSize → s.holds (s.argNat 0) f.bytes →
      exec .fvValidateCrc s = .next ((((s.setRes 0 (if crc = f.checksum then 1#32 else 0#32)).setRes 1
        (0#16 ++ crc)).setRes 2 (0#16 ++ f.checksum)).setErr .ok)) ∧
    (s.params.memSize < s.argNat 0 + total → exec .fvValidateCrc s = .next (s.setErr .outOfRange))) ∧
  (∀ (s : State) (f : FrameV2), f.wf = true → s.argNat 0 + 10 ≤ s.params.memSize → s.holds (s.argNat 0) f.header →
    let crc := checksum (f.header.drop 1 ++ f.payload) ((s.arg 1).extractLsb' 0 8)
    let total := 12 + f.payload.length + (if f.signedBit then 13 else 0)
    (s.argNat 0 + total ≤ s.params.memSize → s.holds (s.argNat 0) f.bytes →
      exec .fvValidateCrc s = .next ((((s.setRes 0 (if crc = f.checksum then 1#32 else 0#32)).setRes 1
        (0#16 ++ crc)).setRes 2 (0#16 ++ f.checksum)).setErr .ok)) ∧
    (s.params.memSize < s.argNat 0 + total → exec .fvValidateCrc s = .next (s.setErr .outOfRange)))

/-- R147 and R148: a key length above KEY_MAX raises BAD_KEY_LEN; an unsigned frame or no key gives 0 at once; a signed
frame and a key give whether the truncated digest of the frame's first total_len - 6 bytes is its hash, the checksum not
looked at; a trailer past the end of FRAME_RAM raises OUT_OF_RANGE. -/
def Obligations.FvValidateSigResult : Prop :=
  (∀ (s : State) (f : FrameV2), f.wf = true → s.argNat 0 + 10 ≤ s.params.memSize → s.holds (s.argNat 0) f.header →
    (s.params.keyMax < s.opKeyLen.toNat → exec .fvValidateSig s = .next (s.setErr .badKeyLen)) ∧
    (s.opKeyLen.toNat ≤ s.params.keyMax → f.signedBit = false ∨ s.opKeyLen = 0#8 →
      exec .fvValidateSig s = .next ((s.setRes 0 0#32).setErr .ok)) ∧
    (s.opKeyLen.toNat ≤ s.params.keyMax → f.signedBit = true → s.opKeyLen ≠ 0#8 →
      s.params.memSize < s.argNat 0 + (25 + f.payload.length) →
      exec .fvValidateSig s = .next (s.setErr .outOfRange))) ∧
  (∀ (s : State) (f : FrameV1), f.wf = true → s.argNat 0 + 6 ≤ s.params.memSize → s.holds (s.argNat 0) f.header →
    (s.params.keyMax < s.opKeyLen.toNat → exec .fvValidateSig s = .next (s.setErr .badKeyLen)) ∧
    (s.opKeyLen.toNat ≤ s.params.keyMax → exec .fvValidateSig s = .next ((s.setRes 0 0#32).setErr .ok))) ∧
  (∀ (s : State) (f : FrameV2) (t : Trailer) (key : List Byte), (Instr.frameV2Signed f t).wf = true →
    s.argNat 0 + (25 + f.payload.length) ≤ s.params.memSize → s.holds (s.argNat 0) (f.bytes ++ t.bytes) →
    key ≠ [] → s.opKeyIs key →
    exec .fvValidateSig s = .next ((s.setRes 0
      (if (s.keyedHash key (f.bytes ++ t.covered)).take 6 = t.hash then 1#32 else 0#32)).setErr .ok))

/-- R149 to R151: the trailer's timestamp and link id of a signed frame, -1 in the width of the result without one, and
OUT_OF_RANGE when the trailer passes the end of FRAME_RAM. -/
def Obligations.SignatureFieldResults : Prop :=
  (∀ (s : State) (f : FrameV2) (t : Trailer), (Instr.frameV2Signed f t).wf = true →
    s.argNat 0 + (25 + f.payload.length) ≤ s.params.memSize → s.holds (s.argNat 0) (f.bytes ++ t.bytes) →
    exec .fvSigTimestamp s = .next (((s.setRes 0 (t.timestamp.extractLsb' 0 32)).setRes 1
      (0#16 ++ t.timestamp.extractLsb' 32 16)).setErr .ok) ∧
    exec .fvSigLinkId s = .next ((s.setRes 0 (0#24 ++ t.linkId)).setErr .ok)) ∧
  (∀ (s : State) (f : FrameV2), f.wf = true → s.argNat 0 + 10 ≤ s.params.memSize → s.holds (s.argNat 0) f.header →
    (f.signedBit = true → s.params.memSize < s.argNat 0 + (25 + f.payload.length) →
      exec .fvSigTimestamp s = .next (s.setErr .outOfRange) ∧ exec .fvSigLinkId s = .next (s.setErr .outOfRange)) ∧
    (f.signedBit = false →
      exec .fvSigTimestamp s = .next (((s.setRes 0 0xFFFFFFFF#32).setRes 1 0xFFFFFFFF#32).setErr .ok) ∧
      exec .fvSigLinkId s = .next ((s.setRes 0 0xFFFFFFFF#32).setErr .ok))) ∧
  (∀ (s : State) (f : FrameV1), f.wf = true → s.argNat 0 + 6 ≤ s.params.memSize → s.holds (s.argNat 0) f.header →
    exec .fvSigTimestamp s = .next (((s.setRes 0 0xFFFFFFFF#32).setRes 1 0xFFFFFFFF#32).setErr .ok) ∧
    exec .fvSigLinkId s = .next ((s.setRes 0 0xFFFFFFFF#32).setErr .ok))

/-- The frame of the commands that only report: CKSUM, the FV_ commands and RPL_GET change STATUS.ERR and the result
registers R100 gives them, and nothing else: no memory, no map, no other register. -/
def Obligations.ReportingCommandsFrame : Prop :=
  ∀ (s t : State) (i : Instr) (results : List (Fin 4)),
    (i, results) ∈ [(Instr.cksum, [0]), (.fvDecode, [0, 1, 2, 3]), (.fvValidateCrc, [0, 1, 2]), (.fvHasSig, [0]),
      (.fvValidateSig, [0]), (.fvSigTimestamp, [0, 1]), (.fvSigLinkId, [0]), (.rplGet, [0, 1, 2])] →
    exec i s = .next t →
    t = { s with err := t.err, res := t.res } ∧ ∀ k : Fin 4, k ∉ results → t.res[k] = s.res[k]

/-! ### Frame Writer -/

/-- R161: trimming keeps at least the v1-defined part, drops only zero bytes, and ends at the v1-defined length or at a
byte that is not zero. -/
def Obligations.TrimmingRule : Prop :=
  ∀ (payload : List Byte) (v1Len : Nat),
    let n := trimLen payload v1Len payload.length
    n ≤ payload.length ∧ min payload.length v1Len ≤ n ∧ (∀ b ∈ payload.drop n, b = 0#8) ∧
      (v1Len < n → ∃ b, payload[n - 1]? = some b ∧ b ≠ 0#8) ∧
      (payload.length ≤ v1Len → n = payload.length)

/-- R163: PACK_V1's checks in their order, and the frame it writes, the payload read before any byte is written
(R165): the header of R81, the payload, and the checksum of R160. -/
def Obligations.PackV1Effect : Prop :=
  ∀ s : State,
    (255 < s.packPayloadLen → exec .packV1 s = .next (s.setErr .payloadTooLarge)) ∧
    (s.packPayloadLen ≤ 255 → 255 < s.packMessageId.toNat → exec .packV1 s = .next (s.setErr .msgidRange)) ∧
    (s.packPayloadLen ≤ 255 → s.packMessageId.toNat ≤ 255 →
      (s.params.memSize < s.packSrc + s.packPayloadLen → exec .packV1 s = .next (s.setErr .outOfRange)) ∧
      (s.packSrc + s.packPayloadLen ≤ s.params.memSize →
        (s.packDstLen < 8 + s.packPayloadLen → exec .packV1 s = .next (s.setErr .dstTooSmall)) ∧
        (8 + s.packPayloadLen ≤ s.packDstLen →
          (s.params.memSize < s.packDst + (8 + s.packPayloadLen) → exec .packV1 s = .next (s.setErr .outOfRange)) ∧
          (s.packDst + (8 + s.packPayloadLen) ≤ s.params.memSize →
            ∀ payload : List Byte, payload.length = s.packPayloadLen → s.holds s.packSrc payload →
              let body := [BitVec.ofNat 8 payload.length, (s.arg 4).extractLsb' 0 8, (s.arg 4).extractLsb' 8 8,
                (s.arg 4).extractLsb' 16 8, (s.arg 5).extractLsb' 0 8] ++ payload
              let crc := checksum body ((s.arg 4).extractLsb' 24 8)
              exec .packV1 s = .next (((s.setFrameRam (s.frameRam.writeBytes s.packDst
                (0xFE#8 :: body ++ leBytes 2 crc.toNat))).setRes 0
                  (BitVec.ofNat 32 (8 + payload.length))).setErr .ok)))))

/-- R164: PACK_V2's checks in their order, all before anything changes; and past them the trimmed payload (R161) in the
layout of R82 with the checksum of R160, and with a key the signed bit forced on and the trailer of R162. The payload is
read before any byte is written (R165). -/
def Obligations.PackV2Effect : Prop :=
  (∀ s : State,
    (255 < s.packPayloadLen → exec .packV2 s = .next (s.setErr .payloadTooLarge)) ∧
    (s.packPayloadLen ≤ 255 → s.params.keyMax < s.opKeyLen.toNat → exec .packV2 s = .next (s.setErr .badKeyLen)) ∧
    (s.packPayloadLen ≤ 255 → s.opKeyLen = 0#8 → s.packIncompat.getLsbD 0 = true →
      exec .packV2 s = .next (s.setErr .signedFlagWithoutKey)) ∧
    (s.packPayloadLen ≤ 255 → s.opKeyLen.toNat ≤ s.params.keyMax → (s.packIncompat.getLsbD 0 = false ∨ s.opKeyLen ≠ 0#8) →
      (s.params.memSize < s.packSrc + s.packPayloadLen → exec .packV2 s = .next (s.setErr .outOfRange)) ∧
      (s.packSrc + s.packPayloadLen ≤ s.params.memSize →
        ∀ payload : List Byte, payload.length = s.packPayloadLen → s.holds s.packSrc payload →
          let n := if s.packTrim then trimLen payload s.packV1Len payload.length else payload.length
          let total := 12 + n + (if s.opKeyLen = 0#8 then 0 else 13)
          (s.packDstLen < total → exec .packV2 s = .next (s.setErr .dstTooSmall)) ∧
          (total ≤ s.packDstLen → s.params.memSize < s.packDst + total →
            exec .packV2 s = .next (s.setErr .outOfRange))))) ∧
  (∀ (s : State) (payload key : List Byte), payload.length = s.packPayloadLen → s.packPayloadLen ≤ 255 →
    s.opKeyIs key → (s.packIncompat.getLsbD 0 = false ∨ key ≠ []) →
    s.packSrc + payload.length ≤ s.params.memSize → s.holds s.packSrc payload →
    let n := if s.packTrim then trimLen payload s.packV1Len payload.length else payload.length
    let flags := s.packIncompat ||| (if key = [] then 0#8 else 1#8)
    let body := [BitVec.ofNat 8 n, flags, (s.arg 6).extractLsb' 0 8, (s.arg 4).extractLsb' 0 8,
      (s.arg 4).extractLsb' 8 8, (s.arg 4).extractLsb' 16 8] ++ leBytes 3 ((s.arg 5).extractLsb' 0 24).toNat ++
      payload.take n
    let crc := checksum body ((s.arg 4).extractLsb' 24 8)
    let f1 := 0xFD#8 :: body ++ leBytes 2 crc.toNat
    let ts := ((s.arg 8).toNat % 2 ^ 16) * 2 ^ 32 + (s.arg 7).toNat
    let f2 := f1 ++ (s.arg 6).extractLsb' 8 8 :: leBytes 6 ts
    let frame := if key = [] then f1 else f2 ++ (s.keyedHash key f2).take 6
    frame.length ≤ s.packDstLen → s.packDst + frame.length ≤ s.params.memSize →
    exec .packV2 s = .next ((((s.setFrameRam (s.frameRam.writeBytes s.packDst frame)).setRes 0
      (BitVec.ofNat 32 frame.length)).setRes 1 (BitVec.ofNat 32 n)).setErr .ok))

/-- The frame of PACK_V1 and PACK_V2: only FRAME_RAM bytes of the frame written at `dst`, of the length in RES0, the
result registers of R100 and STATUS.ERR change; after an error only STATUS.ERR (R254). -/
def Obligations.PackFrame : Prop :=
  ∀ (s t : State) (i : Instr) (results : List (Fin 4)),
    (i, results) ∈ [(Instr.packV1, [0]), (.packV2, [0, 1])] → exec i s = .next t →
    t = { s with err := t.err, res := t.res, frameRam := t.frameRam } ∧
    (∀ k : Fin 4, k ∉ results → t.res[k] = s.res[k]) ∧
    (t.err = .ok → ∀ a, a < s.packDst ∨ s.packDst + (t.res[(0 : Fin 4)]).toNat ≤ a →
      t.frameRam.read a = s.frameRam.read a) ∧
    (t.err ≠ .ok → t.frameRam = s.frameRam ∧ t.res = s.res)

/-- R166: after a PACK that succeeded, FV_VALIDATE_CRC at its destination with its crc_extra gives 1. -/
def Obligations.PackThenValidateCrc : Prop :=
  ∀ (s t : State) (i : Instr), i = .packV1 ∨ i = .packV2 → exec i s = .next t → t.err = .ok →
    let u := (t.setArg 0 (s.arg 0)).setArg 1 (0#24 ++ s.packCrcExtra)
    ∃ crc : BitVec 16, exec .fvValidateCrc u =
      .next ((((u.setRes 0 1#32).setRes 1 (0#16 ++ crc)).setRes 2 (0#16 ++ crc)).setErr .ok)

/-- R166: after a PACK that succeeded, a lenient SCAN of exactly its frame accepts it whole, with no rejection. -/
def Obligations.PackThenScanLenient : Prop :=
  ∀ (s t : State) (i : Instr), s.params.Legal → i = .packV1 ∨ i = .packV2 → exec i s = .next t → t.err = .ok →
    s.enable = true → s.strict = false →
    let total := t.res[(0 : Fin 4)]
    let u := (t.setArg 0 (s.arg 0)).setArg 1 (s.arg 0 + total)
    exec .scan u = .next ((u.setResults 1#32 (s.arg 0) total 0#32).setErr .ok)

/-- R166: after a PACK that succeeded, FV_DECODE at its destination reports exactly the packed fields. -/
def Obligations.PackThenDecode : Prop :=
  ∀ s t : State, t.err = .ok →
    let u := t.setArg 0 (s.arg 0)
    let total := (t.res[(0 : Fin 4)]).setWidth 16
    (exec .packV1 s = .next t →
      exec .fvDecode u = .next ((u.setResults (0#8 ++ 0#8 ++ BitVec.ofNat 8 s.packPayloadLen ++ 1#8)
        (6#8 ++ s.packComponentId ++ s.packSystemId ++ s.packSequence) (0#8 ++ s.packMessageId)
        (total ++ BitVec.ofNat 16 (s.packDst + 6))).setErr .ok)) ∧
    (exec .packV2 s = .next t →
      exec .fvDecode u = .next ((u.setResults (s.packCompat ++ s.packFlags ++ (t.res[(1 : Fin 4)]).setWidth 8 ++ 2#8)
        (10#8 ++ s.packComponentId ++ s.packSystemId ++ s.packSequence)
        (0#7 ++ BitVec.ofBool (s.packFlags.getLsbD 0) ++ s.packMessageId)
        (total ++ BitVec.ofNat 16 (s.packDst + 10))).setErr .ok))

/-- R166: a frame packed with a key validates with the same key, and with a key whose digest differs in its first 6
bytes it does not. `signed` is the frame's first total_len - 6 bytes (R91). -/
def Obligations.PackThenValidateSignature : Prop :=
  ∀ (s t : State) (key : List Byte), key ≠ [] → s.opKeyIs key → exec .packV2 s = .next t → t.err = .ok →
    let u := t.setArg 0 (s.arg 0)
    exec .fvValidateSig u = .next ((u.setRes 0 1#32).setErr .ok) ∧
    ∀ (other signed : List Byte) (mem : Memory) (len : BitVec 8), other ≠ [] →
      signed.length + 6 = (t.res[(0 : Fin 4)]).toNat → t.holds s.packDst signed →
      let v := { u with opKey := mem, opKeyLen := len }
      v.opKeyIs other → (s.keyedHash other signed).take 6 ≠ (s.keyedHash key signed).take 6 →
      exec .fvValidateSig v = .next ((v.setRes 0 0#32).setErr .ok)

/-! ### Frame Scanner -/

/-- R191 and R181 steps 1 to 6: in lenient mode SCAN accepts the first candidate whose frame ends inside the range,
unchecked, and finds nothing where no magic byte is or where the first candidate is incomplete. The map is untouched. -/
def Obligations.ScanLenient : Prop :=
  ∀ (s : State) (noise : List Byte), s.enable = true → s.strict = false → s.argNat 1 ≤ s.params.memSize →
    s.holds (s.argNat 0) noise → (∀ b ∈ noise, b ≠ 0xFE#8 ∧ b ≠ 0xFD#8) →
    let incomplete := .next ((s.setResults 0#32 0#32 0#32 0#32).setErr .ok)
    let c := s.argNat 0 + noise.length
    (s.argNat 1 = c → exec .scan s = incomplete) ∧
    (∀ f : FrameV1, f.wf = true → s.holds c f.header → c + 6 ≤ s.argNat 1 →
      (c + (8 + f.payload.length) ≤ s.argNat 1 →
        exec .scan s = .next ((s.setResults 1#32 (BitVec.ofNat 32 c) (BitVec.ofNat 32 (8 + f.payload.length))
          0#32).setErr .ok)) ∧
      (s.argNat 1 < c + (8 + f.payload.length) → exec .scan s = incomplete)) ∧
    (∀ f : FrameV2, f.wf = true → s.holds c f.header → c + 10 ≤ s.argNat 1 →
      let total := 12 + f.payload.length + (if f.signedBit then 13 else 0)
      (c + total ≤ s.argNat 1 →
        exec .scan s = .next ((s.setResults 1#32 (BitVec.ofNat 32 c) (BitVec.ofNat 32 total) 0#32).setErr .ok)) ∧
      (s.argNat 1 < c + total → exec .scan s = incomplete)) ∧
    (∀ m : Byte, s.frameRam.read c = some m →
      (m = 0xFE#8 → c < s.argNat 1 → s.argNat 1 < c + 6 → exec .scan s = incomplete) ∧
      (m = 0xFD#8 → c < s.argNat 1 → s.argNat 1 < c + 10 → exec .scan s = incomplete))

/-- R192 and R193: an enabled SCAN of a range inside FRAME_RAM whose bytes, and the receive key's, are written
completes, finds nothing or a span inside the range, and rejects at most one candidate a byte; otherwise it raises
NOT_ENABLED or OUT_OF_RANGE. -/
def Obligations.ScanCompletes : Prop :=
  ∀ s : State,
    (s.enable = false → exec .scan s = .next (s.setErr .notEnabled)) ∧
    (s.enable = true → s.params.memSize < s.argNat 1 ∨ s.argNat 1 < s.argNat 0 →
      exec .scan s = .next (s.setErr .outOfRange)) ∧
    (s.enable = true → s.argNat 1 ≤ s.params.memSize → s.argNat 0 ≤ s.argNat 1 → s.rxKeyWritten →
      s.written (s.argNat 0) (s.argNat 1 - s.argNat 0) →
      ∃ t, exec .scan s = .next t ∧ t.err = .ok ∧ (t.res[(3 : Fin 4)]).toNat ≤ s.argNat 1 - s.argNat 0 ∧
        ((t.res[(0 : Fin 4)] = 0#32 ∧ t.res[(1 : Fin 4)] = 0#32 ∧ t.res[(2 : Fin 4)] = 0#32) ∨
          (t.res[(0 : Fin 4)] = 1#32 ∧ s.argNat 0 ≤ (t.res[(1 : Fin 4)]).toNat ∧
            (t.res[(1 : Fin 4)]).toNat + (t.res[(2 : Fin 4)]).toNat ≤ s.argNat 1)))

/-- R194: what SCAN accepts is a frame: inside the range, a magic byte first, as long as its header says, and in strict
mode one that the strict check accepted, leaving REPLAY_MAP as SCAN leaves it. The map on which it was checked is the
one SCAN started with, grown by candidates rejected before it: that very map when none was, or under ON_ACCEPT. -/
def Obligations.ScanAcceptsOnlyFrames : Prop :=
  ∀ s t : State, exec .scan s = .next t → t.err = .ok → t.res[(0 : Fin 4)] = 1#32 →
    let start := (t.res[(1 : Fin 4)]).toNat
    let total := (t.res[(2 : Fin 4)]).toNat
    s.argNat 0 ≤ start ∧ start + total ≤ s.argNat 1 ∧
      (s.frameRam.read start = some 0xFE#8 ∨ s.frameRam.read start = some 0xFD#8) ∧
      ∃ h, decodeHeader s.ram start (s.argNat 1) = .ok h ∧ total = h.totalLen ∧
        (s.strict = true → ∃ before, s.strictOk s.ram start h before = .ok (.accept, t.replayMap) ∧
          s.replayMap.grows before ∧
          (t.res[(3 : Fin 4)] = 0#32 ∨ s.params.replayCommit = .onAccept → before = s.replayMap))

/-- The frame of SCAN: only the map, the results and STATUS.ERR change, and in lenient mode not the map (R191, R192). -/
def Obligations.ScanFrame : Prop :=
  ∀ s t : State, exec .scan s = .next t →
    t = { s with err := t.err, res := t.res, replayMap := t.replayMap } ∧
    (s.strict = false ∨ t.err ≠ .ok → t.replayMap = s.replayMap)

/-- R192 on R181: an enabled SCAN of a legal range reports what `scan` of that range on REPLAY_MAP finds, and has no
continuation where that has none. And R181 step by step, from any cursor: nothing at the end; a byte that is no magic is
passed over; a header or a frame that runs past the end stops the scan, nothing found; a whole candidate is accepted in
lenient mode; in strict mode where the strict check accepts it, with the map that check leaves, and where that rejects,
the scan goes on one byte further with the rejection counted. -/
def Obligations.ScanSteps : Prop :=
  (∀ s : State, s.enable = true → s.argNat 1 ≤ s.params.memSize → s.argNat 0 ≤ s.argNat 1 →
    (∀ r, s.scanBuffer s.ram (s.argNat 0) (s.argNat 1) s.replayMap = .ok r →
      exec .scan s = .next { s with
        err := .ok, replayMap := r.map
        res := match r.accepted with
          | some (start, total) => #v[1#32, BitVec.ofNat 32 start, BitVec.ofNat 32 total, BitVec.ofNat 32 r.rejects]
          | none => #v[0#32, 0#32, 0#32, BitVec.ofNat 32 r.rejects] }) ∧
    (∀ f, s.scanBuffer s.ram (s.argNat 0) (s.argNat 1) s.replayMap = .error (.fault f) → exec .scan s = .fault f)) ∧
  ∀ (s : State) (b : Buffer) (start stop : Nat) (m : ReplayMap),
    (stop ≤ start → s.scanBuffer b start stop m = .ok ⟨none, 0, m⟩) ∧
    (start < stop →
      (∀ x, b start = some x →
        (x ≠ 0xFE#8 → x ≠ 0xFD#8 → s.scanBuffer b start stop m = s.scanBuffer b (start + 1) stop m) ∧
        (x = 0xFE#8 → stop < start + 6 → s.scanBuffer b start stop m = .ok ⟨none, 0, m⟩) ∧
        (x = 0xFD#8 → stop < start + 10 → s.scanBuffer b start stop m = .ok ⟨none, 0, m⟩)) ∧
      (∀ h, decodeHeader b start stop = .ok h →
        (stop < start + h.totalLen → s.scanBuffer b start stop m = .ok ⟨none, 0, m⟩) ∧
        (start + h.totalLen ≤ stop →
          (s.strict = false → s.scanBuffer b start stop m = .ok ⟨some (start, h.totalLen), 0, m⟩) ∧
          (∀ v m', s.strict = true → s.strictOk b start h m = .ok (v, m') →
            (v = .accept → s.scanBuffer b start stop m = .ok ⟨some (start, h.totalLen), 0, m'⟩) ∧
            (v = .reject → ∀ r, s.scanBuffer b (start + 1) stop m' = .ok r →
              s.scanBuffer b start stop m = .ok ⟨r.accepted, r.rejects + 1, r.map⟩)))))

/-- R183 to R185: an unknown incompatibility bit, an unsigned version 2 frame under REQUIRE_SIGNED_V2, and a signed frame
under REQUIRE_SIGNATURE without a key or with a hash that is not the key's, are rejected, the map untouched. -/
def Obligations.StrictRejectsBeforeReplay : Prop :=
  ∀ (s : State) (b : Buffer) (c : Nat) (h : Header) (m : ReplayMap),
    (h.incompat &&& 0xFE#8 ≠ 0#8 → s.strictOk b c h m = .ok (.reject, m)) ∧
    (h.incompat &&& 0xFE#8 = 0#8 → s.options.getLsbD 3 = true → h.version = .v2 → h.incompat.getLsbD 0 = false →
      s.strictOk b c h m = .ok (.reject, m)) ∧
    (h.incompat &&& 0xFE#8 = 0#8 → h.version = .v2 → h.incompat.getLsbD 0 = true → s.options.getLsbD 2 = true →
      (s.rxKeyLen = 0#8 → s.strictOk b c h m = .ok (.reject, m)) ∧
      (∀ key frame hash : List Byte, key ≠ [] → s.rxKeyIs key → frame.length = h.totalLen - 6 → hash.length = 6 →
        (∀ i, i < frame.length + hash.length → b (c + i) = (frame ++ hash)[i]?) →
        (s.keyedHash key frame).take 6 ≠ hash → s.strictOk b c h m = .ok (.reject, m)))

/-- R186 and R187 on the record of a key: an absent key is accepted and recorded; a present one is refused exactly when
the timestamp plus the window, on unbounded integers, is below the record, and moves it only when strictly newer. -/
def Obligations.ReplayRule : Prop :=
  ∀ (m : ReplayMap) (window key : Nat) (ts : BitVec 48), key < 2 ^ 24 →
    (Sparse.get m key = none → replayCheck m window key ts = some (some (key, ts.setWidth 64))) ∧
    (∀ last, Sparse.get m key = some last →
      (ts.toNat + window < last.toNat → replayCheck m window key ts = none) ∧
      (last.toNat ≤ ts.toNat + window → ts.toNat ≤ last.toNat → replayCheck m window key ts = some none) ∧
      (last.toNat < ts.toNat → replayCheck m window key ts = some (some (key, ts.setWidth 64))))

/-- R197: of two timestamps accepted in order for one key, the older one replayed is accepted exactly when it plus the
window reaches the newer. -/
def Obligations.ReplayedTimestamp : Prop :=
  ∀ (m : ReplayMap) (window key : Nat) (t1 t2 : BitVec 48) (u1 u2 : Option Update), key < 2 ^ 24 →
    t1.toNat < t2.toNat → replayCheck m window key t1 = some u1 → replayCheck (m.apply u1) window key t2 = some u2 →
    ((replayCheck ((m.apply u1).apply u2) window key t1).isSome = true ↔ t2.toNat ≤ t1.toNat + window)

/-- R182 and R185 to R187 for a candidate with no unknown flag and, under REQUIRE_SIGNED_V2, signed if version 2, whose
signature passes or is not asked for. Unsigned, or without REPLAY_ENABLE, the message conditions give the verdict and the
map stands. Signed under REPLAY_ENABLE, the anti-replay check may reject; when it passes, the record is moved at once
(AT_CHECK) or only if the frame is then accepted (ON_ACCEPT). `link` and `ts` are the trailer's. -/
def Obligations.StrictVerdict : Prop :=
  ∀ (s : State) (b : Buffer) (c : Nat) (h : Header) (m : ReplayMap) (msg : Bool), h.incompat &&& 0xFE#8 = 0#8 →
    s.messagePasses b c h = .ok msg →
    let signed := h.version = .v2 ∧ h.incompat.getLsbD 0 = true
    let checked := s.options.getLsbD 2 = true → ∃ key frame hash : List Byte, key ≠ [] ∧ s.rxKeyIs key ∧
      frame.length = h.totalLen - 6 ∧ hash.length = 6 ∧
      (∀ i, i < frame.length + hash.length → b (c + i) = (frame ++ hash)[i]?) ∧
      (s.keyedHash key frame).take 6 = hash
    (¬ signed → s.options.getLsbD 3 = false ∨ h.version = .v1 →
      s.strictOk b c h m = .ok (if msg then .accept else .reject, m)) ∧
    (signed → checked →
      (s.options.getLsbD 4 = false → s.strictOk b c h m = .ok (if msg then .accept else .reject, m)) ∧
      (s.options.getLsbD 4 = true → ∀ link ts, sigLinkId b c h = .ok link → sigTimestamp b c h = .ok ts →
        (replayCheck m s.window (compositeKey h.systemId h.componentId link) ts = none →
          s.strictOk b c h m = .ok (.reject, m)) ∧
        (∀ upd, replayCheck m s.window (compositeKey h.systemId h.componentId link) ts = some upd →
          s.strictOk b c h m = .ok (if msg then .accept else .reject,
            if s.params.replayCommit = .atCheck ∨ msg = true then m.apply upd else m))))

/-- R188 to R190: an unknown message passes exactly under ALLOW_UNKNOWN with UNKNOWN_MSG_CHECKS = SKIP, unchecked; a
known one when its length is as the resolver says (equal for version 1, in the range for version 2) and its checksum
with the resolver's crc_extra is the stored one. -/
def Obligations.MessageConditions : Prop :=
  ∀ (s : State) (b : Buffer) (c : Nat) (h : Header),
    (s.resolve h.messageId = none →
      s.messagePasses b c h = .ok (s.options.getLsbD 1 && decide (s.params.unknownMsgChecks = .skip))) ∧
    (∀ m, s.resolve h.messageId = some m →
      ((h.version = .v1 ∧ h.payloadLen ≠ m.lengthV1) ∨
        (h.version = .v2 ∧ (h.payloadLen.toNat < m.lengthV1.toNat ∨ m.lengthV2.toNat < h.payloadLen.toNat)) →
        s.messagePasses b c h = .ok false) ∧
      ((h.version = .v1 ∧ h.payloadLen = m.lengthV1) ∨
        (h.version = .v2 ∧ m.lengthV1.toNat ≤ h.payloadLen.toNat ∧ h.payloadLen.toNat ≤ m.lengthV2.toNat) →
        ∀ covered stored : List Byte, covered.length = h.headerLen - 1 + h.n → stored.length = 2 →
          (∀ i, i < covered.length + stored.length → b (c + 1 + i) = (covered ++ stored)[i]?) →
          s.messagePasses b c h = .ok (decide ((checksum covered m.crcExtra).toNat = fromLE stored))))

/-! ### Anti-replay map -/

/-- R131 and R135: RPL_GET reports the record of a key, or the default, and whether it is present; the sentinel and every
key outside the map are absent; without an instance it raises NOT_ENABLED. -/
def Obligations.RplGetResult : Prop :=
  ∀ s : State,
    (s.enable = false → exec .rplGet s = .next (s.setErr .notEnabled)) ∧
    (s.enable = true →
      (∀ v, s.arg 0 ≠ 0xFFFFFFFF#32 → Sparse.get s.replayMap (s.argNat 0) = some v →
        exec .rplGet s = .next ((((s.setRes 0 (v.extractLsb' 0 32)).setRes 1 (v.extractLsb' 32 32)).setRes 2
          1#32).setErr .ok)) ∧
      (s.arg 0 = 0xFFFFFFFF#32 ∨ Sparse.get s.replayMap (s.argNat 0) = none →
        exec .rplGet s = .next ((((s.setRes 0 (s.arg 1)).setRes 1 (s.arg 2)).setRes 2 0#32).setErr .ok)))

/-- R136 and R132: while one instance lives, no step removes a record or lowers it. -/
def Obligations.RecordsNeverDecrease : Prop :=
  ∀ (s t : State) (key : Nat) (v : BitVec 64), step s = .next t → s.enable = true → t.enable = true →
    Sparse.get s.replayMap key = some v → ∃ v', Sparse.get t.replayMap key = some v' ∧ v.toNat ≤ v'.toNat

/-! ### Stream Reassembler -/

/-- R211, R213, R215: RA_PUSH's errors in their order; and, with its chunk and the receive key written, it completes:
records appended to FRAME_OUT and counted, the front of the appended buffer dropped by compaction or by forced
resynchronisation but never both, RA_CAP grown by the law, the results as R100 lays them out, nothing else changed. -/
def Obligations.RaPushEffect : Prop :=
  ∀ s : State,
    (s.enable = false → exec .raPush s = .next (s.setErr .notEnabled)) ∧
    (s.enable = true →
      (s.params.memSize < s.argNat 0 + s.argNat 1 → exec .raPush s = .next (s.setErr .outOfRange)) ∧
      (s.argNat 0 + s.argNat 1 ≤ s.params.memSize →
        (s.params.raCapMax < s.acc.length + s.argNat 1 → exec .raPush s = .next (s.setErr .raOverflow)) ∧
        (s.acc.length + s.argNat 1 ≤ s.params.raCapMax → s.rxKeyWritten →
          ∀ chunk : List Byte, chunk.length = s.argNat 1 → s.holds (s.argNat 0) chunk →
            ∃ (records : List (List Byte)) (consumed discarded : Nat) (m : ReplayMap),
              consumed + discarded ≤ s.acc.length + chunk.length ∧ (consumed = 0 ∨ discarded = 0) ∧
              (consumed = 0 ↔ records = []) ∧
              let left := (s.acc ++ chunk).drop (consumed + discarded)
              let cap := if s.raCap < s.acc.length + chunk.length
                then min (max (2 * s.raCap) (s.acc.length + chunk.length)) s.params.raCapMax else s.raCap
              exec .raPush s = .next { s with
                err := .ok, acc := left, raCap := cap, replayMap := m, frameOut := s.frameOut ++ records
                res := #v[BitVec.ofNat 32 records.length, BitVec.ofNat 32 left.length, BitVec.ofNat 32 consumed,
                  BitVec.ofNat 32 discarded] })))

/-- R195, R212, R187: the records of a push are accepted frames of the appended buffer, each whole, one after the other
and disjoint; compaction drops exactly through the end of the last. The loop is these scans, from REPLAY_MAP on: each
begins at the end of the frame before, on the map it left; the last finds nothing, and its map is REPLAY_MAP after. In
strict mode each frame passed the strict check on a map that holds every record REPLAY_MAP held before. -/
def Obligations.RaPushDispatchesFrames : Prop :=
  ∀ s t : State, s.params.Legal → exec .raPush s = .next t → t.err = .ok →
    ∃ (chunk : List Byte) (frames : List Accepted),
      chunk.length = s.argNat 1 ∧ s.holds (s.argNat 0) chunk ∧
      let acc := s.acc ++ chunk
      t.frameOut = s.frameOut ++ frames.map (fun e => (acc.drop e.start).take e.total) ∧
      (∀ k, k ≤ frames.length →
        let at_ := match (frames.take k).getLast? with
          | some p => (p.start + p.total, p.after)
          | none => (0, s.replayMap)
        ∃ rejects, s.scanBuffer (accBuffer acc) at_.1 acc.length at_.2 =
          .ok ⟨frames[k]?.map (fun e => (e.start, e.total)), rejects, (frames[k]?.map (fun e => e.after)).getD t.replayMap⟩) ∧
      frames.Pairwise (fun a b => a.start + a.total ≤ b.start ∧ a.after.grows b.before) ∧
      (∀ e ∈ frames, e.start + e.total ≤ acc.length ∧ s.replayMap.grows e.before ∧ e.after.grows t.replayMap ∧
        ∃ h, decodeHeader (accBuffer acc) e.start acc.length = .ok h ∧ e.total = h.totalLen ∧
          (s.strict = true → s.strictOk (accBuffer acc) e.start h e.before = .ok (.accept, e.after))) ∧
      (t.res[(2 : Fin 4)]).toNat = (match frames.getLast? with
        | some e => e.start + e.total
        | none => 0)

/-- R218: after a push that consumed nothing, ACC is at most RESYNC_THRESHOLD long or starts with a magic byte; and it is
never longer than RA_CAP_MAX. -/
def Obligations.RaPushLeavesBoundedTail : Prop :=
  ∀ s t : State, s.params.Legal → exec .raPush s = .next t → t.err = .ok →
    t.acc.length ≤ s.params.raCapMax ∧
    (t.res[(2 : Fin 4)] = 0#32 →
      t.acc.length ≤ s.params.resyncThreshold ∨ t.acc.head? = some 0xFE#8 ∨ t.acc.head? = some 0xFD#8)

/-- R214 on RA_PUSH. When the scan of the appended buffer finds nothing, that one scan is all: nothing is dispatched and
its map stands. From the front of ACC go, as RES3 says: nothing while the buffer is at most RESYNC_THRESHOLD long; past
it, the bytes up to the first magic byte past offset 0, or all. When the scan finds a frame, nothing is discarded. -/
def Obligations.ForcedResync : Prop :=
  ∀ (s : State) (chunk : List Byte) (found : Scan), s.enable = true → s.argNat 0 + s.argNat 1 ≤ s.params.memSize →
    chunk.length = s.argNat 1 → s.holds (s.argNat 0) chunk → s.acc.length + chunk.length ≤ s.params.raCapMax →
    let acc := s.acc ++ chunk
    s.scanBuffer (accBuffer acc) 0 acc.length s.replayMap = .ok found →
    (found.accepted = none → ∃ discarded,
      exec .raPush s = .next { s with
        err := .ok, acc := acc.drop discarded, raCap := growCap s.params.raCapMax s.raCap acc.length
        replayMap := found.map
        res := #v[0#32, BitVec.ofNat 32 (acc.length - discarded), 0#32, BitVec.ofNat 32 discarded] } ∧
      (acc.length ≤ s.params.resyncThreshold → discarded = 0) ∧
      (s.params.resyncThreshold < acc.length →
        (∀ (p : Nat) (m : Byte), 1 ≤ p → acc[p]? = some m → (m = 0xFE#8 ∨ m = 0xFD#8) →
          (∀ (i : Nat) (x : Byte), 1 ≤ i → i < p → acc[i]? = some x → x ≠ 0xFE#8 ∧ x ≠ 0xFD#8) → discarded = p) ∧
        ((∀ (i : Nat) (x : Byte), 1 ≤ i → acc[i]? = some x → x ≠ 0xFE#8 ∧ x ≠ 0xFD#8) → discarded = acc.length))) ∧
    (found.accepted ≠ none → ∀ t, exec .raPush s = .next t → t.res[(3 : Fin 4)] = 0#32)

/-- R217 in lenient mode: the bytes of any frames one after the other, pushed by RA_PUSH in any chunks whatever that fit
FRAME_RAM and, with a partly received frame before them, the buffer, each chunk placed at any index of FRAME_RAM: every
push succeeds, exactly those frames are dispatched, and ACC is left empty. -/
def Obligations.ChunkingInvariance : Prop :=
  ∀ (s : State) (frames : List Instr) (pushes : List (Nat × List Byte)), s.params.Legal → s.enable = true →
    s.strict = false → s.acc = [] → (∀ i ∈ frames, i.wf = true ∧ opcodeOf i = none) →
    (∀ p ∈ pushes, p.1 + p.2.length ≤ s.params.memSize ∧ Config.maxFrame + p.2.length ≤ s.params.raCapMax) →
    (pushes.map Prod.snd).flatten = (frames.map encode).flatten →
    ∃ t, s.pushAll pushes = .next t ∧ (pushes ≠ [] → t.err = .ok) ∧
      t.frameOut = s.frameOut ++ frames.map encode ∧ t.acc = []

/-- R216: RA_DROP empties ACC in either state of ENABLE and changes nothing else. -/
def Obligations.RaDropResult : Prop :=
  ∀ s : State, exec .raDrop s = .next { s with acc := [], err := .ok }

/-! ### Wire frames -/

/-- The wire rows (the model's choice of their meaning, log 8, of R211 to R215): without an instance NOT_ENABLED, past
RA_CAP_MAX RA_OVERFLOW; and in lenient mode with ACC empty the frame that arrives is dispatched whole and nothing is
left. -/
def Obligations.FrameArrivalLenient : Prop :=
  ∀ (s : State) (i : Instr), i.wf = true → opcodeOf i = none →
    (s.enable = false → exec i s = .next (s.setErr .notEnabled)) ∧
    (s.enable = true → s.params.raCapMax < s.acc.length + (encode i).length →
      exec i s = .next (s.setErr .raOverflow)) ∧
    (s.enable = true → s.strict = false → s.acc = [] → (encode i).length ≤ s.params.raCapMax →
      exec i s = .next { s with
        err := .ok, raCap := growCap s.params.raCapMax s.raCap (encode i).length
        frameOut := s.frameOut ++ [encode i]
        res := #v[1#32, 0#32, BitVec.ofNat 32 (encode i).length, 0#32] })

/-- The wire rows in strict mode with ACC empty (log 8): a frame the strict check accepts is dispatched whole, with the
map that check leaves. -/
def Obligations.FrameArrivalStrict : Prop :=
  ∀ (s : State) (i : Instr) (h : Header) (m : ReplayMap), i.wf = true → opcodeOf i = none → s.enable = true →
    s.strict = true → s.acc = [] → (encode i).length ≤ s.params.raCapMax →
    decodeHeader (accBuffer (encode i)) 0 (encode i).length = .ok h →
    s.strictOk (accBuffer (encode i)) 0 h s.replayMap = .ok (.accept, m) →
    exec i s = .next { s with
      err := .ok, raCap := growCap s.params.raCapMax s.raCap (encode i).length, replayMap := m
      frameOut := s.frameOut ++ [encode i]
      res := #v[1#32, 0#32, BitVec.ofNat 32 (encode i).length, 0#32] }

/-! ### The whole machine -/

/-- R253: an instruction that raises an error changes STATUS.ERR and nothing else. -/
def Obligations.ErrorsChangeOnlyStatus : Prop :=
  ∀ (i : Instr) (s t : State), exec i s = .next t → t.err ≠ .ok → t = s.setErr t.err

/-- R252: the codes each command can leave; the wire rows leave those of RA_PUSH but for its range (log 8). -/
def Obligations.ErrorMatrix : Prop :=
  ∀ (i : Instr) (s t : State), exec i s = .next t → t.err = .ok ∨ t.err ∈ (match i with
    | .cksum => [ErrCode.outOfRange]
    | .fvDecode | .fvValidateCrc | .fvHasSig | .fvSigTimestamp | .fvSigLinkId => [.outOfRange, .notAFrame]
    | .fvValidateSig => [.outOfRange, .notAFrame, .badKeyLen]
    | .packV1 => [.outOfRange, .payloadTooLarge, .msgidRange, .dstTooSmall]
    | .packV2 => [.outOfRange, .payloadTooLarge, .signedFlagWithoutKey, .dstTooSmall, .badKeyLen]
    | .scan => [.notEnabled, .outOfRange]
    | .rplGet => [.notEnabled]
    | .raPush => [.notEnabled, .outOfRange, .raOverflow]
    | .raDrop => []
    | .frameV1 _ | .frameV2 _ | .frameV2Signed _ _ => [.notEnabled, .raOverflow])

/-- R236: SCAN, RPL_GET and RA_PUSH, and no other command, raise NOT_ENABLED, exactly when CTRL.ENABLE is 0. -/
def Obligations.InstanceCommands : Prop :=
  ∀ (i : Instr) (s : State), opcodeOf i ≠ none →
    (i = .scan ∨ i = .rplGet ∨ i = .raPush → s.enable = false → exec i s = .next (s.setErr .notEnabled)) ∧
    (∀ t, exec i s = .next t → t.err = .notEnabled → s.enable = false ∧ (i = .scan ∨ i = .rplGet ∨ i = .raPush))

/-- No instruction writes CTRL, the configuration, a key, an operand register or a parameter (R31, R43): those are the
host's. Only PACK_V1 and PACK_V2 write FRAME_RAM (R36); of the commands only SCAN and RA_PUSH write the map (R38), only
RA_PUSH and RA_DROP ACC, only RA_PUSH RA_CAP (R37) and FRAME_OUT (R41). That a wire row writes what RA_PUSH writes is the
model's choice of its meaning (log 8). -/
def Obligations.CommandsKeepTheRest : Prop :=
  ∀ (i : Instr) (s t : State), exec i s = .next t →
    t = { s with
      err := t.err, res := t.res
      frameRam := if i = .packV1 ∨ i = .packV2 then t.frameRam else s.frameRam
      replayMap := if i = .scan ∨ i = .raPush ∨ opcodeOf i = none then t.replayMap else s.replayMap
      acc := if i = .raPush ∨ i = .raDrop ∨ opcodeOf i = none then t.acc else s.acc
      raCap := if i = .raPush ∨ opcodeOf i = none then t.raCap else s.raCap
      frameOut := if i = .raPush ∨ opcodeOf i = none then t.frameOut else s.frameOut }

/-- R35 and R275: while the instance lives, no step changes the options, the window, the map's tuning or the receive
key. -/
def Obligations.ConfigurationFrozen : Prop :=
  ∀ s t : State, step s = .next t → s.enable = true → t.enable = true →
    t.options = s.options ∧ t.windowLo = s.windowLo ∧ t.windowHi = s.windowHi ∧ t.mapInitCap = s.mapInitCap ∧
      t.mapLoadFactor = s.mapLoadFactor ∧ t.rxKeyLen = s.rxKeyLen ∧ t.rxKey = s.rxKey

/-- R41: no step takes back, reorders or changes a FRAME_OUT record. -/
def Obligations.FrameOutAppendOnly : Prop :=
  ∀ s t : State, step s = .next t → s.frameOut <+: t.frameOut

/-- Hardware reset leaves a state that meets the invariant, whatever the legal parameters. -/
def Obligations.ResetMeetsInvariant : Prop :=
  State.reset.Inv ∧ ∀ p : Params, p.Legal → (State.resetWith p).Inv

/-- Every step keeps the invariant: canonical memories of their sizes (R29, R30, R36), `RA_LEN <= RA_CAP <= RA_CAP_MAX`
(R37), composite keys and 48-bit records only (R38, R130), legal parameters (R6), an instance only from a legal
configuration (R231), and nothing of an instance without one (R232). -/
def Obligations.StepKeepsInvariant : Prop :=
  ∀ s t : State, s.Inv → step s = .next t → t.Inv
end

