-- ==== Sys2Proof/Laws/Bytes.lean ====
section
/-! SUPPORT. The byte-order helpers (R9): lengths, and that assembling undoes laying out. -/

namespace Sys2Proof

/-- `le_n(v)` has `n` bytes. -/
@[simp] theorem leBytes_length (n v : Nat) : (leBytes n v).length = n := by
  induction n generalizing v with
  | zero => rfl
  | succ n ih => simp [leBytes, ih]

/-- `LE(le_n(v))` is `v` modulo `2^(8n)`. -/
theorem fromLE_leBytes (n v : Nat) : fromLE (leBytes n v) = v % 256 ^ n := by
  induction n generalizing v with
  | zero => simp [leBytes, fromLE, Nat.mod_one]
  | succ n ih =>
    simp only [leBytes, fromLE, ih, BitVec.toNat_ofNat]
    rw [show 256 ^ (n + 1) = 256 * 256 ^ n from Nat.pow_succ', Nat.mod_mul]

/-- `LE(L)` is below `2^(8 * len(L))`. -/
theorem fromLE_lt (bs : List Byte) : fromLE bs < 256 ^ bs.length := by
  induction bs with
  | nil => simp [fromLE]
  | cons b bs ih =>
    have hb : b.toNat < 256 := b.isLt
    simp only [fromLE, List.length_cons, Nat.pow_succ]
    omega

/-- Laying out what was assembled gives the bytes back. -/
theorem leBytes_fromLE (bs : List Byte) : leBytes bs.length (fromLE bs) = bs := by
  induction bs with
  | nil => rfl
  | cons b bs ih =>
    have hb : b.toNat < 256 := b.isLt
    have h1 : (b.toNat + 256 * fromLE bs) / 256 = fromLE bs := by omega
    have h2 : BitVec.ofNat 8 (b.toNat + 256 * fromLE bs) = b := by
      apply BitVec.eq_of_toNat_eq
      simp only [BitVec.toNat_ofNat]
      omega
    simp [leBytes, fromLE, h1, h2, ih]

/-- A value of `n` bytes survives being laid out and assembled. -/
theorem fromLE_leBytes_of_lt {n v : Nat} (h : v < 256 ^ n) : fromLE (leBytes n v) = v := by
  rw [fromLE_leBytes, Nat.mod_eq_of_lt h]

/-- Six bytes given back by their 48-bit value (R147: the timestamp bytes are hashed as they stand). -/
theorem leBytes_ofNat48 {bs : List Byte} (h : bs.length = 6) : leBytes 6 (BitVec.ofNat 48 (fromLE bs)).toNat = bs := by
  have hlt := fromLE_lt bs
  rw [h] at hlt
  have : (BitVec.ofNat 48 (fromLE bs)).toNat = fromLE bs := by
    simp only [BitVec.toNat_ofNat]; omega
  rw [this, ← h, leBytes_fromLE]

/-- Two bytes given back by their 16-bit value (R83). -/
theorem leBytes_ofNat16 {bs : List Byte} (h : bs.length = 2) : leBytes 2 (BitVec.ofNat 16 (fromLE bs)).toNat = bs := by
  have hlt := fromLE_lt bs
  rw [h] at hlt
  have : (BitVec.ofNat 16 (fromLE bs)).toNat = fromLE bs := by
    simp only [BitVec.toNat_ofNat]; omega
  rw [this, ← h, leBytes_fromLE]

/-- Three bytes given back by their 24-bit value (R89). -/
theorem leBytes_ofNat24 {bs : List Byte} (h : bs.length = 3) : leBytes 3 (BitVec.ofNat 24 (fromLE bs)).toNat = bs := by
  have hlt := fromLE_lt bs
  rw [h] at hlt
  have : (BitVec.ofNat 24 (fromLE bs)).toNat = fromLE bs := by
    simp only [BitVec.toNat_ofNat]; omega
  rw [this, ← h, leBytes_fromLE]

/-- A checksum laid out in two bytes is assembled back (R83). -/
@[simp] theorem ofNat16_leBytes (v : BitVec 16) : BitVec.ofNat 16 (fromLE (leBytes 2 v.toNat)) = v := by
  rw [fromLE_leBytes_of_lt (by have := v.isLt; omega)]; simp

/-- A message id laid out in three bytes is assembled back (R89). -/
@[simp] theorem ofNat24_leBytes (v : BitVec 24) : BitVec.ofNat 24 (fromLE (leBytes 3 v.toNat)) = v := by
  rw [fromLE_leBytes_of_lt (by have := v.isLt; omega)]; simp

/-- A word laid out in four bytes is assembled back (R62). -/
@[simp] theorem ofNat32_leBytes (v : Word) : BitVec.ofNat 32 (fromLE (leBytes 4 v.toNat)) = v := by
  rw [fromLE_leBytes_of_lt (by have := v.isLt; omega)]; simp

/-- A timestamp laid out in six bytes is assembled back (R89). -/
@[simp] theorem ofNat48_leBytes (v : BitVec 48) : BitVec.ofNat 48 (fromLE (leBytes 6 v.toNat)) = v := by
  rw [fromLE_leBytes_of_lt (by have := v.isLt; omega)]; simp

end Sys2Proof
end

