-- ==== Sys2Proof/Laws/State.lean ====
section
/-! SUPPORT. One lemma per field per named update of State, each true by rfl, and the accessors over them. -/

namespace Sys2Proof.Machine

variable (s : State)

/-! ### setErr -/

@[simp] theorem State.setErr_enable (code : ErrCode) : (s.setErr code).enable = s.enable := rfl
@[simp] theorem State.setErr_err (code : ErrCode) : (s.setErr code).err = code := rfl
@[simp] theorem State.setErr_options (code : ErrCode) : (s.setErr code).options = s.options := rfl
@[simp] theorem State.setErr_windowLo (code : ErrCode) : (s.setErr code).windowLo = s.windowLo := rfl
@[simp] theorem State.setErr_windowHi (code : ErrCode) : (s.setErr code).windowHi = s.windowHi := rfl
@[simp] theorem State.setErr_mapInitCap (code : ErrCode) : (s.setErr code).mapInitCap = s.mapInitCap := rfl
@[simp] theorem State.setErr_mapLoadFactor (code : ErrCode) : (s.setErr code).mapLoadFactor = s.mapLoadFactor := rfl
@[simp] theorem State.setErr_rxKeyLen (code : ErrCode) : (s.setErr code).rxKeyLen = s.rxKeyLen := rfl
@[simp] theorem State.setErr_rxKey (code : ErrCode) : (s.setErr code).rxKey = s.rxKey := rfl
@[simp] theorem State.setErr_opKeyLen (code : ErrCode) : (s.setErr code).opKeyLen = s.opKeyLen := rfl
@[simp] theorem State.setErr_opKey (code : ErrCode) : (s.setErr code).opKey = s.opKey := rfl
@[simp] theorem State.setErr_args (code : ErrCode) : (s.setErr code).args = s.args := rfl
@[simp] theorem State.setErr_res (code : ErrCode) : (s.setErr code).res = s.res := rfl
@[simp] theorem State.setErr_frameRam (code : ErrCode) : (s.setErr code).frameRam = s.frameRam := rfl
@[simp] theorem State.setErr_acc (code : ErrCode) : (s.setErr code).acc = s.acc := rfl
@[simp] theorem State.setErr_raCap (code : ErrCode) : (s.setErr code).raCap = s.raCap := rfl
@[simp] theorem State.setErr_replayMap (code : ErrCode) : (s.setErr code).replayMap = s.replayMap := rfl
@[simp] theorem State.setErr_frameOut (code : ErrCode) : (s.setErr code).frameOut = s.frameOut := rfl
@[simp] theorem State.setErr_pending (code : ErrCode) : (s.setErr code).pending = s.pending := rfl
@[simp] theorem State.setErr_response (code : ErrCode) : (s.setErr code).response = s.response := rfl
@[simp] theorem State.setErr_params (code : ErrCode) : (s.setErr code).params = s.params := rfl
@[simp] theorem State.setErr_arg (code : ErrCode) (j : Fin 9) : (s.setErr code).arg j = s.arg j := rfl
@[simp] theorem State.setErr_argNat (code : ErrCode) (j : Fin 9) : (s.setErr code).argNat j = s.argNat j := rfl

/-! ### setArg -/

@[simp] theorem State.setArg_enable (i : Fin 9) (v : Word) : (s.setArg i v).enable = s.enable := rfl
@[simp] theorem State.setArg_err (i : Fin 9) (v : Word) : (s.setArg i v).err = s.err := rfl
@[simp] theorem State.setArg_options (i : Fin 9) (v : Word) : (s.setArg i v).options = s.options := rfl
@[simp] theorem State.setArg_windowLo (i : Fin 9) (v : Word) : (s.setArg i v).windowLo = s.windowLo := rfl
@[simp] theorem State.setArg_windowHi (i : Fin 9) (v : Word) : (s.setArg i v).windowHi = s.windowHi := rfl
@[simp] theorem State.setArg_mapInitCap (i : Fin 9) (v : Word) : (s.setArg i v).mapInitCap = s.mapInitCap := rfl
@[simp] theorem State.setArg_mapLoadFactor (i : Fin 9) (v : Word) : (s.setArg i v).mapLoadFactor = s.mapLoadFactor := rfl
@[simp] theorem State.setArg_rxKeyLen (i : Fin 9) (v : Word) : (s.setArg i v).rxKeyLen = s.rxKeyLen := rfl
@[simp] theorem State.setArg_rxKey (i : Fin 9) (v : Word) : (s.setArg i v).rxKey = s.rxKey := rfl
@[simp] theorem State.setArg_opKeyLen (i : Fin 9) (v : Word) : (s.setArg i v).opKeyLen = s.opKeyLen := rfl
@[simp] theorem State.setArg_opKey (i : Fin 9) (v : Word) : (s.setArg i v).opKey = s.opKey := rfl
@[simp] theorem State.setArg_args (i : Fin 9) (v : Word) : (s.setArg i v).args = s.args.set i v := rfl
@[simp] theorem State.setArg_res (i : Fin 9) (v : Word) : (s.setArg i v).res = s.res := rfl
@[simp] theorem State.setArg_frameRam (i : Fin 9) (v : Word) : (s.setArg i v).frameRam = s.frameRam := rfl
@[simp] theorem State.setArg_acc (i : Fin 9) (v : Word) : (s.setArg i v).acc = s.acc := rfl
@[simp] theorem State.setArg_raCap (i : Fin 9) (v : Word) : (s.setArg i v).raCap = s.raCap := rfl
@[simp] theorem State.setArg_replayMap (i : Fin 9) (v : Word) : (s.setArg i v).replayMap = s.replayMap := rfl
@[simp] theorem State.setArg_frameOut (i : Fin 9) (v : Word) : (s.setArg i v).frameOut = s.frameOut := rfl
@[simp] theorem State.setArg_pending (i : Fin 9) (v : Word) : (s.setArg i v).pending = s.pending := rfl
@[simp] theorem State.setArg_response (i : Fin 9) (v : Word) : (s.setArg i v).response = s.response := rfl
@[simp] theorem State.setArg_params (i : Fin 9) (v : Word) : (s.setArg i v).params = s.params := rfl

/-! ### setRes -/

@[simp] theorem State.setRes_enable (i : Fin 4) (v : Word) : (s.setRes i v).enable = s.enable := rfl
@[simp] theorem State.setRes_err (i : Fin 4) (v : Word) : (s.setRes i v).err = s.err := rfl
@[simp] theorem State.setRes_options (i : Fin 4) (v : Word) : (s.setRes i v).options = s.options := rfl
@[simp] theorem State.setRes_windowLo (i : Fin 4) (v : Word) : (s.setRes i v).windowLo = s.windowLo := rfl
@[simp] theorem State.setRes_windowHi (i : Fin 4) (v : Word) : (s.setRes i v).windowHi = s.windowHi := rfl
@[simp] theorem State.setRes_mapInitCap (i : Fin 4) (v : Word) : (s.setRes i v).mapInitCap = s.mapInitCap := rfl
@[simp] theorem State.setRes_mapLoadFactor (i : Fin 4) (v : Word) : (s.setRes i v).mapLoadFactor = s.mapLoadFactor := rfl
@[simp] theorem State.setRes_rxKeyLen (i : Fin 4) (v : Word) : (s.setRes i v).rxKeyLen = s.rxKeyLen := rfl
@[simp] theorem State.setRes_rxKey (i : Fin 4) (v : Word) : (s.setRes i v).rxKey = s.rxKey := rfl
@[simp] theorem State.setRes_opKeyLen (i : Fin 4) (v : Word) : (s.setRes i v).opKeyLen = s.opKeyLen := rfl
@[simp] theorem State.setRes_opKey (i : Fin 4) (v : Word) : (s.setRes i v).opKey = s.opKey := rfl
@[simp] theorem State.setRes_args (i : Fin 4) (v : Word) : (s.setRes i v).args = s.args := rfl
@[simp] theorem State.setRes_res (i : Fin 4) (v : Word) : (s.setRes i v).res = s.res.set i v := rfl
@[simp] theorem State.setRes_frameRam (i : Fin 4) (v : Word) : (s.setRes i v).frameRam = s.frameRam := rfl
@[simp] theorem State.setRes_acc (i : Fin 4) (v : Word) : (s.setRes i v).acc = s.acc := rfl
@[simp] theorem State.setRes_raCap (i : Fin 4) (v : Word) : (s.setRes i v).raCap = s.raCap := rfl
@[simp] theorem State.setRes_replayMap (i : Fin 4) (v : Word) : (s.setRes i v).replayMap = s.replayMap := rfl
@[simp] theorem State.setRes_frameOut (i : Fin 4) (v : Word) : (s.setRes i v).frameOut = s.frameOut := rfl
@[simp] theorem State.setRes_pending (i : Fin 4) (v : Word) : (s.setRes i v).pending = s.pending := rfl
@[simp] theorem State.setRes_response (i : Fin 4) (v : Word) : (s.setRes i v).response = s.response := rfl
@[simp] theorem State.setRes_params (i : Fin 4) (v : Word) : (s.setRes i v).params = s.params := rfl
@[simp] theorem State.setRes_arg (i : Fin 4) (v : Word) (j : Fin 9) : (s.setRes i v).arg j = s.arg j := rfl
@[simp] theorem State.setRes_argNat (i : Fin 4) (v : Word) (j : Fin 9) : (s.setRes i v).argNat j = s.argNat j := rfl

/-! ### setResults -/

@[simp] theorem State.setResults_enable (a b c d : Word) : (s.setResults a b c d).enable = s.enable := rfl
@[simp] theorem State.setResults_err (a b c d : Word) : (s.setResults a b c d).err = s.err := rfl
@[simp] theorem State.setResults_options (a b c d : Word) : (s.setResults a b c d).options = s.options := rfl
@[simp] theorem State.setResults_windowLo (a b c d : Word) : (s.setResults a b c d).windowLo = s.windowLo := rfl
@[simp] theorem State.setResults_windowHi (a b c d : Word) : (s.setResults a b c d).windowHi = s.windowHi := rfl
@[simp] theorem State.setResults_mapInitCap (a b c d : Word) : (s.setResults a b c d).mapInitCap = s.mapInitCap := rfl
@[simp] theorem State.setResults_mapLoadFactor (a b c d : Word) : (s.setResults a b c d).mapLoadFactor = s.mapLoadFactor := rfl
@[simp] theorem State.setResults_rxKeyLen (a b c d : Word) : (s.setResults a b c d).rxKeyLen = s.rxKeyLen := rfl
@[simp] theorem State.setResults_rxKey (a b c d : Word) : (s.setResults a b c d).rxKey = s.rxKey := rfl
@[simp] theorem State.setResults_opKeyLen (a b c d : Word) : (s.setResults a b c d).opKeyLen = s.opKeyLen := rfl
@[simp] theorem State.setResults_opKey (a b c d : Word) : (s.setResults a b c d).opKey = s.opKey := rfl
@[simp] theorem State.setResults_args (a b c d : Word) : (s.setResults a b c d).args = s.args := rfl
@[simp] theorem State.setResults_res (a b c d : Word) : (s.setResults a b c d).res = #v[a, b, c, d] := rfl
@[simp] theorem State.setResults_frameRam (a b c d : Word) : (s.setResults a b c d).frameRam = s.frameRam := rfl
@[simp] theorem State.setResults_acc (a b c d : Word) : (s.setResults a b c d).acc = s.acc := rfl
@[simp] theorem State.setResults_raCap (a b c d : Word) : (s.setResults a b c d).raCap = s.raCap := rfl
@[simp] theorem State.setResults_replayMap (a b c d : Word) : (s.setResults a b c d).replayMap = s.replayMap := rfl
@[simp] theorem State.setResults_frameOut (a b c d : Word) : (s.setResults a b c d).frameOut = s.frameOut := rfl
@[simp] theorem State.setResults_pending (a b c d : Word) : (s.setResults a b c d).pending = s.pending := rfl
@[simp] theorem State.setResults_response (a b c d : Word) : (s.setResults a b c d).response = s.response := rfl
@[simp] theorem State.setResults_params (a b c d : Word) : (s.setResults a b c d).params = s.params := rfl
@[simp] theorem State.setResults_arg (a b c d : Word) (j : Fin 9) : (s.setResults a b c d).arg j = s.arg j := rfl
@[simp] theorem State.setResults_argNat (a b c d : Word) (j : Fin 9) : (s.setResults a b c d).argNat j = s.argNat j := rfl

/-! ### setFrameRam -/

@[simp] theorem State.setFrameRam_enable (m : Memory) : (s.setFrameRam m).enable = s.enable := rfl
@[simp] theorem State.setFrameRam_err (m : Memory) : (s.setFrameRam m).err = s.err := rfl
@[simp] theorem State.setFrameRam_options (m : Memory) : (s.setFrameRam m).options = s.options := rfl
@[simp] theorem State.setFrameRam_windowLo (m : Memory) : (s.setFrameRam m).windowLo = s.windowLo := rfl
@[simp] theorem State.setFrameRam_windowHi (m : Memory) : (s.setFrameRam m).windowHi = s.windowHi := rfl
@[simp] theorem State.setFrameRam_mapInitCap (m : Memory) : (s.setFrameRam m).mapInitCap = s.mapInitCap := rfl
@[simp] theorem State.setFrameRam_mapLoadFactor (m : Memory) : (s.setFrameRam m).mapLoadFactor = s.mapLoadFactor := rfl
@[simp] theorem State.setFrameRam_rxKeyLen (m : Memory) : (s.setFrameRam m).rxKeyLen = s.rxKeyLen := rfl
@[simp] theorem State.setFrameRam_rxKey (m : Memory) : (s.setFrameRam m).rxKey = s.rxKey := rfl
@[simp] theorem State.setFrameRam_opKeyLen (m : Memory) : (s.setFrameRam m).opKeyLen = s.opKeyLen := rfl
@[simp] theorem State.setFrameRam_opKey (m : Memory) : (s.setFrameRam m).opKey = s.opKey := rfl
@[simp] theorem State.setFrameRam_args (m : Memory) : (s.setFrameRam m).args = s.args := rfl
@[simp] theorem State.setFrameRam_res (m : Memory) : (s.setFrameRam m).res = s.res := rfl
@[simp] theorem State.setFrameRam_frameRam (m : Memory) : (s.setFrameRam m).frameRam = m := rfl
@[simp] theorem State.setFrameRam_acc (m : Memory) : (s.setFrameRam m).acc = s.acc := rfl
@[simp] theorem State.setFrameRam_raCap (m : Memory) : (s.setFrameRam m).raCap = s.raCap := rfl
@[simp] theorem State.setFrameRam_replayMap (m : Memory) : (s.setFrameRam m).replayMap = s.replayMap := rfl
@[simp] theorem State.setFrameRam_frameOut (m : Memory) : (s.setFrameRam m).frameOut = s.frameOut := rfl
@[simp] theorem State.setFrameRam_pending (m : Memory) : (s.setFrameRam m).pending = s.pending := rfl
@[simp] theorem State.setFrameRam_response (m : Memory) : (s.setFrameRam m).response = s.response := rfl
@[simp] theorem State.setFrameRam_params (m : Memory) : (s.setFrameRam m).params = s.params := rfl
@[simp] theorem State.setFrameRam_arg (m : Memory) (j : Fin 9) : (s.setFrameRam m).arg j = s.arg j := rfl
@[simp] theorem State.setFrameRam_argNat (m : Memory) (j : Fin 9) : (s.setFrameRam m).argNat j = s.argNat j := rfl

/-! ### setReplayMap -/

@[simp] theorem State.setReplayMap_enable (m : ReplayMap) : (s.setReplayMap m).enable = s.enable := rfl
@[simp] theorem State.setReplayMap_err (m : ReplayMap) : (s.setReplayMap m).err = s.err := rfl
@[simp] theorem State.setReplayMap_options (m : ReplayMap) : (s.setReplayMap m).options = s.options := rfl
@[simp] theorem State.setReplayMap_windowLo (m : ReplayMap) : (s.setReplayMap m).windowLo = s.windowLo := rfl
@[simp] theorem State.setReplayMap_windowHi (m : ReplayMap) : (s.setReplayMap m).windowHi = s.windowHi := rfl
@[simp] theorem State.setReplayMap_mapInitCap (m : ReplayMap) : (s.setReplayMap m).mapInitCap = s.mapInitCap := rfl
@[simp] theorem State.setReplayMap_mapLoadFactor (m : ReplayMap) : (s.setReplayMap m).mapLoadFactor = s.mapLoadFactor := rfl
@[simp] theorem State.setReplayMap_rxKeyLen (m : ReplayMap) : (s.setReplayMap m).rxKeyLen = s.rxKeyLen := rfl
@[simp] theorem State.setReplayMap_rxKey (m : ReplayMap) : (s.setReplayMap m).rxKey = s.rxKey := rfl
@[simp] theorem State.setReplayMap_opKeyLen (m : ReplayMap) : (s.setReplayMap m).opKeyLen = s.opKeyLen := rfl
@[simp] theorem State.setReplayMap_opKey (m : ReplayMap) : (s.setReplayMap m).opKey = s.opKey := rfl
@[simp] theorem State.setReplayMap_args (m : ReplayMap) : (s.setReplayMap m).args = s.args := rfl
@[simp] theorem State.setReplayMap_res (m : ReplayMap) : (s.setReplayMap m).res = s.res := rfl
@[simp] theorem State.setReplayMap_frameRam (m : ReplayMap) : (s.setReplayMap m).frameRam = s.frameRam := rfl
@[simp] theorem State.setReplayMap_acc (m : ReplayMap) : (s.setReplayMap m).acc = s.acc := rfl
@[simp] theorem State.setReplayMap_raCap (m : ReplayMap) : (s.setReplayMap m).raCap = s.raCap := rfl
@[simp] theorem State.setReplayMap_replayMap (m : ReplayMap) : (s.setReplayMap m).replayMap = m := rfl
@[simp] theorem State.setReplayMap_frameOut (m : ReplayMap) : (s.setReplayMap m).frameOut = s.frameOut := rfl
@[simp] theorem State.setReplayMap_pending (m : ReplayMap) : (s.setReplayMap m).pending = s.pending := rfl
@[simp] theorem State.setReplayMap_response (m : ReplayMap) : (s.setReplayMap m).response = s.response := rfl
@[simp] theorem State.setReplayMap_params (m : ReplayMap) : (s.setReplayMap m).params = s.params := rfl
@[simp] theorem State.setReplayMap_arg (m : ReplayMap) (j : Fin 9) : (s.setReplayMap m).arg j = s.arg j := rfl
@[simp] theorem State.setReplayMap_argNat (m : ReplayMap) (j : Fin 9) : (s.setReplayMap m).argNat j = s.argNat j := rfl

/-! ### setAcc -/

@[simp] theorem State.setAcc_enable (a : List Byte) (c : Nat) : (s.setAcc a c).enable = s.enable := rfl
@[simp] theorem State.setAcc_err (a : List Byte) (c : Nat) : (s.setAcc a c).err = s.err := rfl
@[simp] theorem State.setAcc_options (a : List Byte) (c : Nat) : (s.setAcc a c).options = s.options := rfl
@[simp] theorem State.setAcc_windowLo (a : List Byte) (c : Nat) : (s.setAcc a c).windowLo = s.windowLo := rfl
@[simp] theorem State.setAcc_windowHi (a : List Byte) (c : Nat) : (s.setAcc a c).windowHi = s.windowHi := rfl
@[simp] theorem State.setAcc_mapInitCap (a : List Byte) (c : Nat) : (s.setAcc a c).mapInitCap = s.mapInitCap := rfl
@[simp] theorem State.setAcc_mapLoadFactor (a : List Byte) (c : Nat) : (s.setAcc a c).mapLoadFactor = s.mapLoadFactor := rfl
@[simp] theorem State.setAcc_rxKeyLen (a : List Byte) (c : Nat) : (s.setAcc a c).rxKeyLen = s.rxKeyLen := rfl
@[simp] theorem State.setAcc_rxKey (a : List Byte) (c : Nat) : (s.setAcc a c).rxKey = s.rxKey := rfl
@[simp] theorem State.setAcc_opKeyLen (a : List Byte) (c : Nat) : (s.setAcc a c).opKeyLen = s.opKeyLen := rfl
@[simp] theorem State.setAcc_opKey (a : List Byte) (c : Nat) : (s.setAcc a c).opKey = s.opKey := rfl
@[simp] theorem State.setAcc_args (a : List Byte) (c : Nat) : (s.setAcc a c).args = s.args := rfl
@[simp] theorem State.setAcc_res (a : List Byte) (c : Nat) : (s.setAcc a c).res = s.res := rfl
@[simp] theorem State.setAcc_frameRam (a : List Byte) (c : Nat) : (s.setAcc a c).frameRam = s.frameRam := rfl
@[simp] theorem State.setAcc_acc (a : List Byte) (c : Nat) : (s.setAcc a c).acc = a := rfl
@[simp] theorem State.setAcc_raCap (a : List Byte) (c : Nat) : (s.setAcc a c).raCap = c := rfl
@[simp] theorem State.setAcc_replayMap (a : List Byte) (c : Nat) : (s.setAcc a c).replayMap = s.replayMap := rfl
@[simp] theorem State.setAcc_frameOut (a : List Byte) (c : Nat) : (s.setAcc a c).frameOut = s.frameOut := rfl
@[simp] theorem State.setAcc_pending (a : List Byte) (c : Nat) : (s.setAcc a c).pending = s.pending := rfl
@[simp] theorem State.setAcc_response (a : List Byte) (c : Nat) : (s.setAcc a c).response = s.response := rfl
@[simp] theorem State.setAcc_params (a : List Byte) (c : Nat) : (s.setAcc a c).params = s.params := rfl
@[simp] theorem State.setAcc_arg (a : List Byte) (c : Nat) (j : Fin 9) : (s.setAcc a c).arg j = s.arg j := rfl
@[simp] theorem State.setAcc_argNat (a : List Byte) (c : Nat) (j : Fin 9) : (s.setAcc a c).argNat j = s.argNat j := rfl

/-! ### emit -/

@[simp] theorem State.emit_enable (r : List (List Byte)) : (s.emit r).enable = s.enable := rfl
@[simp] theorem State.emit_err (r : List (List Byte)) : (s.emit r).err = s.err := rfl
@[simp] theorem State.emit_options (r : List (List Byte)) : (s.emit r).options = s.options := rfl
@[simp] theorem State.emit_windowLo (r : List (List Byte)) : (s.emit r).windowLo = s.windowLo := rfl
@[simp] theorem State.emit_windowHi (r : List (List Byte)) : (s.emit r).windowHi = s.windowHi := rfl
@[simp] theorem State.emit_mapInitCap (r : List (List Byte)) : (s.emit r).mapInitCap = s.mapInitCap := rfl
@[simp] theorem State.emit_mapLoadFactor (r : List (List Byte)) : (s.emit r).mapLoadFactor = s.mapLoadFactor := rfl
@[simp] theorem State.emit_rxKeyLen (r : List (List Byte)) : (s.emit r).rxKeyLen = s.rxKeyLen := rfl
@[simp] theorem State.emit_rxKey (r : List (List Byte)) : (s.emit r).rxKey = s.rxKey := rfl
@[simp] theorem State.emit_opKeyLen (r : List (List Byte)) : (s.emit r).opKeyLen = s.opKeyLen := rfl
@[simp] theorem State.emit_opKey (r : List (List Byte)) : (s.emit r).opKey = s.opKey := rfl
@[simp] theorem State.emit_args (r : List (List Byte)) : (s.emit r).args = s.args := rfl
@[simp] theorem State.emit_res (r : List (List Byte)) : (s.emit r).res = s.res := rfl
@[simp] theorem State.emit_frameRam (r : List (List Byte)) : (s.emit r).frameRam = s.frameRam := rfl
@[simp] theorem State.emit_acc (r : List (List Byte)) : (s.emit r).acc = s.acc := rfl
@[simp] theorem State.emit_raCap (r : List (List Byte)) : (s.emit r).raCap = s.raCap := rfl
@[simp] theorem State.emit_replayMap (r : List (List Byte)) : (s.emit r).replayMap = s.replayMap := rfl
@[simp] theorem State.emit_frameOut (r : List (List Byte)) : (s.emit r).frameOut = s.frameOut ++ r := rfl
@[simp] theorem State.emit_pending (r : List (List Byte)) : (s.emit r).pending = s.pending := rfl
@[simp] theorem State.emit_response (r : List (List Byte)) : (s.emit r).response = s.response := rfl
@[simp] theorem State.emit_params (r : List (List Byte)) : (s.emit r).params = s.params := rfl
@[simp] theorem State.emit_arg (r : List (List Byte)) (j : Fin 9) : (s.emit r).arg j = s.arg j := rfl
@[simp] theorem State.emit_argNat (r : List (List Byte)) (j : Fin 9) : (s.emit r).argNat j = s.argNat j := rfl

/-! ### respond -/

@[simp] theorem State.respond_enable (r : Response) : (s.respond r).enable = s.enable := rfl
@[simp] theorem State.respond_err (r : Response) : (s.respond r).err = s.err := rfl
@[simp] theorem State.respond_options (r : Response) : (s.respond r).options = s.options := rfl
@[simp] theorem State.respond_windowLo (r : Response) : (s.respond r).windowLo = s.windowLo := rfl
@[simp] theorem State.respond_windowHi (r : Response) : (s.respond r).windowHi = s.windowHi := rfl
@[simp] theorem State.respond_mapInitCap (r : Response) : (s.respond r).mapInitCap = s.mapInitCap := rfl
@[simp] theorem State.respond_mapLoadFactor (r : Response) : (s.respond r).mapLoadFactor = s.mapLoadFactor := rfl
@[simp] theorem State.respond_rxKeyLen (r : Response) : (s.respond r).rxKeyLen = s.rxKeyLen := rfl
@[simp] theorem State.respond_rxKey (r : Response) : (s.respond r).rxKey = s.rxKey := rfl
@[simp] theorem State.respond_opKeyLen (r : Response) : (s.respond r).opKeyLen = s.opKeyLen := rfl
@[simp] theorem State.respond_opKey (r : Response) : (s.respond r).opKey = s.opKey := rfl
@[simp] theorem State.respond_args (r : Response) : (s.respond r).args = s.args := rfl
@[simp] theorem State.respond_res (r : Response) : (s.respond r).res = s.res := rfl
@[simp] theorem State.respond_frameRam (r : Response) : (s.respond r).frameRam = s.frameRam := rfl
@[simp] theorem State.respond_acc (r : Response) : (s.respond r).acc = s.acc := rfl
@[simp] theorem State.respond_raCap (r : Response) : (s.respond r).raCap = s.raCap := rfl
@[simp] theorem State.respond_replayMap (r : Response) : (s.respond r).replayMap = s.replayMap := rfl
@[simp] theorem State.respond_frameOut (r : Response) : (s.respond r).frameOut = s.frameOut := rfl
@[simp] theorem State.respond_pending (r : Response) : (s.respond r).pending = s.pending := rfl
@[simp] theorem State.respond_response (r : Response) : (s.respond r).response = r := rfl
@[simp] theorem State.respond_params (r : Response) : (s.respond r).params = s.params := rfl
@[simp] theorem State.respond_arg (r : Response) (j : Fin 9) : (s.respond r).arg j = s.arg j := rfl
@[simp] theorem State.respond_argNat (r : Response) (j : Fin 9) : (s.respond r).argNat j = s.argNat j := rfl

/-! ### setPending -/

@[simp] theorem State.setPending_enable (p : List HostAccess) : (s.setPending p).enable = s.enable := rfl
@[simp] theorem State.setPending_err (p : List HostAccess) : (s.setPending p).err = s.err := rfl
@[simp] theorem State.setPending_options (p : List HostAccess) : (s.setPending p).options = s.options := rfl
@[simp] theorem State.setPending_windowLo (p : List HostAccess) : (s.setPending p).windowLo = s.windowLo := rfl
@[simp] theorem State.setPending_windowHi (p : List HostAccess) : (s.setPending p).windowHi = s.windowHi := rfl
@[simp] theorem State.setPending_mapInitCap (p : List HostAccess) : (s.setPending p).mapInitCap = s.mapInitCap := rfl
@[simp] theorem State.setPending_mapLoadFactor (p : List HostAccess) : (s.setPending p).mapLoadFactor = s.mapLoadFactor := rfl
@[simp] theorem State.setPending_rxKeyLen (p : List HostAccess) : (s.setPending p).rxKeyLen = s.rxKeyLen := rfl
@[simp] theorem State.setPending_rxKey (p : List HostAccess) : (s.setPending p).rxKey = s.rxKey := rfl
@[simp] theorem State.setPending_opKeyLen (p : List HostAccess) : (s.setPending p).opKeyLen = s.opKeyLen := rfl
@[simp] theorem State.setPending_opKey (p : List HostAccess) : (s.setPending p).opKey = s.opKey := rfl
@[simp] theorem State.setPending_args (p : List HostAccess) : (s.setPending p).args = s.args := rfl
@[simp] theorem State.setPending_res (p : List HostAccess) : (s.setPending p).res = s.res := rfl
@[simp] theorem State.setPending_frameRam (p : List HostAccess) : (s.setPending p).frameRam = s.frameRam := rfl
@[simp] theorem State.setPending_acc (p : List HostAccess) : (s.setPending p).acc = s.acc := rfl
@[simp] theorem State.setPending_raCap (p : List HostAccess) : (s.setPending p).raCap = s.raCap := rfl
@[simp] theorem State.setPending_replayMap (p : List HostAccess) : (s.setPending p).replayMap = s.replayMap := rfl
@[simp] theorem State.setPending_frameOut (p : List HostAccess) : (s.setPending p).frameOut = s.frameOut := rfl
@[simp] theorem State.setPending_pending (p : List HostAccess) : (s.setPending p).pending = p := rfl
@[simp] theorem State.setPending_response (p : List HostAccess) : (s.setPending p).response = s.response := rfl
@[simp] theorem State.setPending_params (p : List HostAccess) : (s.setPending p).params = s.params := rfl
@[simp] theorem State.setPending_arg (p : List HostAccess) (j : Fin 9) : (s.setPending p).arg j = s.arg j := rfl
@[simp] theorem State.setPending_argNat (p : List HostAccess) (j : Fin 9) : (s.setPending p).argNat j = s.argNat j := rfl

/-! ### dropInstance -/

@[simp] theorem State.dropInstance_enable : s.dropInstance.enable = false := rfl
@[simp] theorem State.dropInstance_err : s.dropInstance.err = s.err := rfl
@[simp] theorem State.dropInstance_options : s.dropInstance.options = s.options := rfl
@[simp] theorem State.dropInstance_windowLo : s.dropInstance.windowLo = s.windowLo := rfl
@[simp] theorem State.dropInstance_windowHi : s.dropInstance.windowHi = s.windowHi := rfl
@[simp] theorem State.dropInstance_mapInitCap : s.dropInstance.mapInitCap = s.mapInitCap := rfl
@[simp] theorem State.dropInstance_mapLoadFactor : s.dropInstance.mapLoadFactor = s.mapLoadFactor := rfl
@[simp] theorem State.dropInstance_rxKeyLen : s.dropInstance.rxKeyLen = s.rxKeyLen := rfl
@[simp] theorem State.dropInstance_rxKey : s.dropInstance.rxKey = s.rxKey := rfl
@[simp] theorem State.dropInstance_opKeyLen : s.dropInstance.opKeyLen = s.opKeyLen := rfl
@[simp] theorem State.dropInstance_opKey : s.dropInstance.opKey = s.opKey := rfl
@[simp] theorem State.dropInstance_args : s.dropInstance.args = s.args := rfl
@[simp] theorem State.dropInstance_res : s.dropInstance.res = s.res := rfl
@[simp] theorem State.dropInstance_frameRam : s.dropInstance.frameRam = s.frameRam := rfl
@[simp] theorem State.dropInstance_acc : s.dropInstance.acc = [] := rfl
@[simp] theorem State.dropInstance_raCap : s.dropInstance.raCap = s.params.raInitCap := rfl
@[simp] theorem State.dropInstance_replayMap : s.dropInstance.replayMap = [] := rfl
@[simp] theorem State.dropInstance_frameOut : s.dropInstance.frameOut = s.frameOut := rfl
@[simp] theorem State.dropInstance_pending : s.dropInstance.pending = s.pending := rfl
@[simp] theorem State.dropInstance_response : s.dropInstance.response = s.response := rfl
@[simp] theorem State.dropInstance_params : s.dropInstance.params = s.params := rfl

/-! ### Register reads after register writes -/

/-- A result register holds what was written to it. -/
@[simp] theorem State.res_setRes_same (i : Fin 4) (v : Word) : (s.setRes i v).res[i] = v := by
  simp [State.setRes]

/-- Writing one result register leaves the others. -/
theorem State.res_setRes_other {i j : Fin 4} (h : i ≠ j) (v : Word) : (s.setRes i v).res[j] = s.res[j] := by
  have : (i : Nat) ≠ j := fun e => h (Fin.ext e)
  simp [State.setRes, this]

/-- An operand register holds what was written to it. -/
@[simp] theorem State.arg_setArg_same (i : Fin 9) (v : Word) : (s.setArg i v).arg i = v := by
  simp [State.setArg, State.arg]

/-- Writing one operand register leaves the others. -/
theorem State.arg_setArg_other {i j : Fin 9} (h : i ≠ j) (v : Word) : (s.setArg i v).arg j = s.arg j := by
  have : (i : Nat) ≠ j := fun e => h (Fin.ext e)
  simp [State.setArg, State.arg, this]

/-- The latest error code stands. -/
@[simp] theorem State.setErr_setErr (a b : ErrCode) : (s.setErr a).setErr b = s.setErr b := rfl

/-- RA_LEN is the length of ACC (R33). -/
@[simp] theorem State.raLen_eq : s.raLen = s.acc.length := rfl

end Sys2Proof.Machine
end

