-- ==== Sys2Proof/Laws/Memory.lean ====
section
/-! SUPPORT. Keyed data and memories: read after write, and that every operation keeps the canonical form. -/

namespace Sys2Proof.Machine

section Sparse

variable {α : Type}

/-- What was put at a key is there. -/
@[simp] theorem Sparse.get_put_same (m : Sparse α) (k : Nat) (v : α) : Sparse.get (Sparse.put m k v) k = some v := by
  induction m with
  | nil => simp [Sparse.put, Sparse.get]
  | cons e m ih =>
    obtain ⟨j, w⟩ := e
    by_cases h1 : k = j
    · simp [Sparse.put, Sparse.get, h1]
    · by_cases h2 : k < j
      · simp [Sparse.put, Sparse.get, h1, h2]
      · simp [Sparse.put, Sparse.get, h1, h2, ih]

/-- Every other key keeps what it held. -/
theorem Sparse.get_put_other (m : Sparse α) {k k' : Nat} (h : k' ≠ k) (v : α) :
    Sparse.get (Sparse.put m k v) k' = Sparse.get m k' := by
  induction m with
  | nil => simp [Sparse.put, Sparse.get, h]
  | cons e m ih =>
    obtain ⟨j, w⟩ := e
    by_cases h1 : k = j
    · subst h1; simp [Sparse.put, Sparse.get, h]
    · by_cases h2 : k < j
      · by_cases h3 : k' < k
        · have hj : k' < j := by omega
          have hne : k' ≠ j := by omega
          simp [Sparse.put, Sparse.get, h1, h2, h, h3, hj, hne]
        · simp [Sparse.put, Sparse.get, h1, h2, h, h3]
      · simp [Sparse.put, Sparse.get, h1, h2, ih]

/-- What any key holds after a put. -/
theorem Sparse.get_put (m : Sparse α) (k k' : Nat) (v : α) :
    Sparse.get (Sparse.put m k v) k' = if k' = k then some v else Sparse.get m k' := by
  by_cases h : k' = k
  · subst h; simp
  · simp [h, Sparse.get_put_other m h]

/-- The canonical form read as a list property. -/
theorem Sparse.wf_cons (j : Nat) (w : α) (m : Sparse α) :
    Sparse.wf ((j, w) :: m) = true ↔ (∀ e ∈ m.head?, j < e.1) ∧ Sparse.wf m = true := by
  cases m with
  | nil => simp [Sparse.wf]
  | cons e m => obtain ⟨k, x⟩ := e; simp [Sparse.wf]

/-- The first key after a put is the key put or the first key before. -/
theorem Sparse.head_put (m : Sparse α) (k : Nat) (v : α) :
    ∀ e ∈ (Sparse.put m k v).head?, e.1 = k ∨ ∃ e' ∈ m.head?, e.1 = e'.1 := by
  cases m with
  | nil => simp [Sparse.put]
  | cons e m =>
    obtain ⟨j, w⟩ := e
    by_cases h1 : k = j
    · simp [Sparse.put, h1]
    · by_cases h2 : k < j <;> simp [Sparse.put, h1, h2]

/-- A put keeps the canonical form. -/
theorem Sparse.wf_put (m : Sparse α) (k : Nat) (v : α) (h : Sparse.wf m = true) : Sparse.wf (Sparse.put m k v) = true := by
  induction m with
  | nil => simp [Sparse.put, Sparse.wf]
  | cons e m ih =>
    obtain ⟨j, w⟩ := e
    obtain ⟨hj, hm⟩ := (Sparse.wf_cons j w m).1 h
    by_cases h1 : k = j
    · subst h1
      simpa [Sparse.put] using (Sparse.wf_cons k v m).2 ⟨hj, hm⟩
    · by_cases h2 : k < j
      · have hput : Sparse.put ((j, w) :: m) k v = (k, v) :: (j, w) :: m := by simp [Sparse.put, h1, h2]
        rw [hput]
        exact (Sparse.wf_cons k v _).2 ⟨by simpa using h2, h⟩
      · have hput : Sparse.put ((j, w) :: m) k v = (j, w) :: Sparse.put m k v := by simp [Sparse.put, h1, h2]
        rw [hput]
        refine (Sparse.wf_cons j w _).2 ⟨fun e he => ?_, ih hm⟩
        rcases Sparse.head_put m k v e he with hk | ⟨e', he', hk⟩
        · omega
        · have := hj e' he'; omega

end Sparse

/-! ### Memories -/

/-- A byte read where it was written. -/
@[simp] theorem Memory.read_write_same (m : Memory) (a : Nat) (b : Byte) : (m.write a b).read a = some b :=
  Sparse.get_put_same m a b

/-- A write leaves every other byte. -/
theorem Memory.read_write_other (m : Memory) {a a' : Nat} (h : a' ≠ a) (b : Byte) :
    (m.write a b).read a' = m.read a' :=
  Sparse.get_put_other m h b

/-- A write keeps the canonical form. -/
theorem Memory.wf_write (m : Memory) (a : Nat) (b : Byte) (h : m.wf = true) : (m.write a b).wf = true :=
  Sparse.wf_put m a b h

/-- What any byte reads as after a list is written (R10). -/
theorem Memory.read_writeBytes (m : Memory) (a : Nat) (bs : List Byte) (a' : Nat) :
    (m.writeBytes a bs).read a' = if a ≤ a' ∧ a' < a + bs.length then bs[a' - a]? else m.read a' := by
  induction bs generalizing m a with
  | nil => simp [Memory.writeBytes]
  | cons b bs ih =>
    rw [Memory.writeBytes, ih]
    by_cases h0 : a' = a
    · subst h0
      simp
    · by_cases h1 : a + 1 ≤ a' ∧ a' < a + 1 + bs.length
      · have h2 : a ≤ a' ∧ a' < a + (b :: bs).length := by simp only [List.length_cons]; omega
        obtain ⟨d, hd⟩ : ∃ d, a' = a + 1 + d := ⟨a' - (a + 1), by omega⟩
        subst hd
        rw [if_pos h1, if_pos h2]
        have e1 : a + 1 + d - (a + 1) = d := by omega
        have e2 : a + 1 + d - a = d + 1 := by omega
        simp [e1, e2]
      · have h2 : ¬ (a ≤ a' ∧ a' < a + (b :: bs).length) := by simp only [List.length_cons]; omega
        rw [if_neg h1, if_neg h2, Memory.read_write_other m h0]

/-- Bytes outside the written range are as before. -/
theorem Memory.read_writeBytes_outside (m : Memory) (a : Nat) (bs : List Byte) {a' : Nat}
    (h : a' < a ∨ a + bs.length ≤ a') : (m.writeBytes a bs).read a' = m.read a' := by
  rw [Memory.read_writeBytes, if_neg (by omega)]

/-- Bytes inside the written range are those written. -/
theorem Memory.read_writeBytes_inside (m : Memory) (a : Nat) (bs : List Byte) {i : Nat} (h : i < bs.length) :
    (m.writeBytes a bs).read (a + i) = bs[i]? := by
  rw [Memory.read_writeBytes, if_pos (by omega)]
  congr 1
  omega

/-- Writing a list keeps the canonical form. -/
theorem Memory.wf_writeBytes (m : Memory) (a : Nat) (bs : List Byte) (h : m.wf = true) : (m.writeBytes a bs).wf = true := by
  induction bs generalizing m a with
  | nil => exact h
  | cons b bs ih => exact ih _ _ (Memory.wf_write m a b h)

/-- A list written inside a memory of `size` bytes leaves it one. -/
theorem Memory.within_writeBytes {m : Memory} {size : Nat} (a : Nat) (bs : List Byte) (h : m.within size)
    (hfit : a + bs.length ≤ size) : (m.writeBytes a bs).within size :=
  ⟨Memory.wf_writeBytes m a bs h.1, fun a' ha => by
    rw [Memory.read_writeBytes_outside m a bs (by omega)]; exact h.2 a' ha⟩

/-- The memory right after reset is in canonical form. -/
theorem State.reset_frameRam_wf : State.reset.frameRam.wf = true := rfl

end Sys2Proof.Machine
end

