-- ==== Sys2Proof/Laws/Run.lean ====
section
/-! SUPPORT. What a command's computation can do: the checks, the reads, and its end. -/

namespace Sys2Proof.Machine

/-! ### Checks -/

/-- A check that passes. -/
@[simp] theorem require_pos {p : Prop} [Decidable p] (h : p) (c : ErrCode) : require p c = .ok () := if_pos h

/-- A check that fails raises its code (R10). -/
@[simp] theorem require_neg {p : Prop} [Decidable p] (h : ¬ p) (c : ErrCode) : require p c = .error (.raise c) := if_neg h

/-- A check's two outcomes. -/
theorem require_ok_iff {p : Prop} [Decidable p] (c : ErrCode) (u : Unit) : require p c = .ok u ↔ p := by
  by_cases h : p <;> simp [h]

/-- Going on from a value. -/
@[simp] theorem run_ok_bind {α β : Type} (a : α) (f : α → Run β) : ((.ok a : Run α) >>= f) = f a := rfl

/-- A stop ends the computation. -/
@[simp] theorem run_error_bind {α β : Type} (e : Stop) (f : α → Run β) : ((.error e : Run α) >>= f) = .error e := rfl

/-- A computation that ends well under a bind: its first part ended well, and so did the rest. -/
theorem run_bind_ok {α β : Type} {x : Run α} {f : α → Run β} {b : β} :
    (x >>= f) = .ok b ↔ ∃ a, x = .ok a ∧ f a = .ok b := by
  cases x <;> simp

/-- A computation that stops under a bind: its first part stopped, or the rest did. -/
theorem run_bind_error {α β : Type} {x : Run α} {f : α → Run β} {e : Stop} :
    (x >>= f) = .error e ↔ x = .error e ∨ ∃ a, x = .ok a ∧ f a = .error e := by
  cases x <;> simp

/-! ### The end of a command -/

/-- A command that ended well (R256). -/
@[simp] theorem finish_ok (s t : State) : finish s (.ok t) = .next (t.setErr .ok) := rfl

/-- A command that raised an error changes STATUS.ERR and nothing else (R253). -/
@[simp] theorem finish_raise (s : State) (c : ErrCode) : finish s (.error (.raise c)) = .next (s.setErr c) := rfl

/-- A command that read an unwritten byte has no continuation (R272). -/
@[simp] theorem finish_fault (s : State) (f : Fault) : finish s (.error (.fault f)) = .fault f := rfl

/-- Everything a command's end can be, when it has a continuation. -/
theorem finish_next {s t : State} {r : Run State} :
    finish s r = .next t ↔ (∃ u, r = .ok u ∧ t = u.setErr .ok) ∨ (∃ c, r = .error (.raise c) ∧ t = s.setErr c) := by
  rcases r with (c | f) | u
  · simp [eq_comm]
  · simp
  · simp [eq_comm]

/-- No command's end is a refusal. -/
theorem finish_not_refused {s : State} {r : Run State} {x : Refusal} : finish s r ≠ .refused x := by
  rcases r with (c | f) | u <;> simp

/-! ### Reads -/

/-- A written byte is read. -/
theorem readByte_some {b : Buffer} {a : Nat} {v : Byte} (h : b a = some v) : readByte b a = .ok v := by
  simp [readByte, h]

/-- An unwritten byte is a fault (R272). -/
theorem readByte_none {b : Buffer} {a : Nat} (h : b a = none) : readByte b a = .error (.fault (.unwrittenByte a)) := by
  simp [readByte, h]

/-- A read that ended well. -/
theorem readByte_ok_iff {b : Buffer} {a : Nat} {v : Byte} : readByte b a = .ok v ↔ b a = some v := by
  cases h : b a <;> simp [readByte, h]

/-- A read never raises an error code. -/
theorem readByte_ne_raise (b : Buffer) (a : Nat) (c : ErrCode) : readByte b a ≠ .error (.raise c) := by
  cases h : b a <;> simp [readByte, h]

/-- Bytes that a buffer holds are read. -/
theorem readBytes_holds {b : Buffer} {L : List Byte} {a : Nat} (h : ∀ i, i < L.length → b (a + i) = L[i]?) :
    readBytes b a L.length = .ok L := by
  induction L generalizing a with
  | nil => rfl
  | cons x L ih =>
    have h0 : b a = some x := by simpa using h 0 (by simp)
    have hs : ∀ i, i < L.length → b (a + 1 + i) = L[i]? := fun i hi => by
      have := h (i + 1) (by simpa using hi)
      rw [show a + 1 + i = a + (i + 1) by omega, this]; simp
    simp [readBytes, readByte_some h0, ih hs]

/-- Everything a read of `n` bytes that ended well says. -/
theorem readBytes_ok {b : Buffer} {n a : Nat} {L : List Byte} (h : readBytes b a n = .ok L) :
    L.length = n ∧ ∀ i, i < n → b (a + i) = L[i]? := by
  induction n generalizing a L with
  | zero =>
    cases h
    exact ⟨rfl, fun i hi => absurd hi (by omega)⟩
  | succ n ih =>
    simp only [readBytes, run_bind_ok] at h
    obtain ⟨v, hv, vs, hvs, rfl⟩ := by simpa using h
    obtain ⟨hl, hi⟩ := ih hvs
    refine ⟨by simp [hl], fun i hin => ?_⟩
    cases i with
    | zero => simpa using readByte_ok_iff.1 hv
    | succ i =>
      have := hi i (by omega)
      rw [show a + (i + 1) = a + 1 + i by omega, this]; simp

/-- Written bytes are read: there is a list, of the length asked for. -/
theorem readBytes_written {b : Buffer} {n a : Nat} (h : ∀ i, i < n → (b (a + i)).isSome = true) :
    ∃ L, readBytes b a n = .ok L := by
  induction n generalizing a with
  | zero => exact ⟨[], rfl⟩
  | succ n ih =>
    obtain ⟨v, hv⟩ := Option.isSome_iff_exists.1 (h 0 (by omega))
    obtain ⟨vs, hvs⟩ := ih (a := a + 1) fun i hi => by
      have := h (i + 1) (by omega); rwa [show a + 1 + i = a + (i + 1) by omega]
    exact ⟨v :: vs, by simp [readBytes, readByte_some (by simpa using hv), hvs]⟩

/-- A read that stops does so by the fault of an unwritten byte of its range (R272). -/
theorem readBytes_error {b : Buffer} {n a : Nat} {e : Stop} (h : readBytes b a n = .error e) :
    ∃ i, i < n ∧ b (a + i) = none ∧ e = .fault (.unwrittenByte (a + i)) := by
  induction n generalizing a with
  | zero => exact nomatch h
  | succ n ih =>
    simp only [readBytes, run_bind_error] at h
    rcases h with h | ⟨v, hv, h | ⟨vs, _, h⟩⟩
    · cases hb : b a with
      | none => rw [readByte_none hb] at h; exact ⟨0, by omega, by simpa using hb, by cases h; rfl⟩
      | some w => rw [readByte_some hb] at h; exact nomatch h
    · obtain ⟨i, hi, hn, he⟩ := ih h
      exact ⟨i + 1, by omega, by rwa [show a + (i + 1) = a + 1 + i by omega], by rw [he]; congr 2; omega⟩
    · exact nomatch h

/-- A read of a range with an unwritten byte stops at one of them (R272). -/
theorem readBytes_unwritten {b : Buffer} {n a : Nat} (h : ¬ ∀ i, i < n → (b (a + i)).isSome = true) :
    ∃ j, b j = none ∧ readBytes b a n = .error (.fault (.unwrittenByte j)) := by
  cases hr : readBytes b a n with
  | ok L =>
    obtain ⟨hl, hi⟩ := readBytes_ok hr
    exact absurd (fun i hin => by rw [hi i hin]; simp [hl, hin]) h
  | error e =>
    obtain ⟨i, -, hn, rfl⟩ := readBytes_error hr
    exact ⟨_, hn, rfl⟩

/-- A read never raises an error code. -/
theorem readBytes_ne_raise (b : Buffer) (a n : Nat) (c : ErrCode) : readBytes b a n ≠ .error (.raise c) := fun h => by
  obtain ⟨i, -, -, he⟩ := readBytes_error h
  cases he

/-- A held key is read. -/
theorem readKey_holds {m : Memory} {u : Nat → Fault} {k : List Byte} {a : Nat}
    (h : ∀ i, i < k.length → m.read (a + i) = k[i]?) : readKey m u a k.length = .ok k := by
  induction k generalizing a with
  | nil => rfl
  | cons x k ih =>
    have h0 : m.read a = some x := by simpa using h 0 (by simp)
    have hs : ∀ i, i < k.length → m.read (a + 1 + i) = k[i]? := fun i hi => by
      have := h (i + 1) (by simpa using hi)
      rw [show a + 1 + i = a + (i + 1) by omega, this]; simp
    simp [readKey, h0, ih hs]

/-- A key whose bytes are all written is read. -/
theorem readKey_written {m : Memory} {u : Nat → Fault} {n a : Nat} (h : ∀ i, i < n → (m.read (a + i)).isSome = true) :
    ∃ k, readKey m u a n = .ok k := by
  induction n generalizing a with
  | zero => exact ⟨[], rfl⟩
  | succ n ih =>
    obtain ⟨v, hv⟩ := Option.isSome_iff_exists.1 (h 0 (by omega))
    have hv' : m.read a = some v := by simpa using hv
    obtain ⟨vs, hvs⟩ := ih (a := a + 1) fun i hi => by
      have := h (i + 1) (by omega); rwa [show a + 1 + i = a + (i + 1) by omega]
    exact ⟨v :: vs, by simp [readKey, hv', hvs]⟩

/-- A key with an unwritten byte is not read: the read stops at one of them (R272). -/
theorem readKey_unwritten {m : Memory} {u : Nat → Fault} {n a : Nat}
    (h : ¬ ∀ i, i < n → (m.read (a + i)).isSome = true) : ∃ j, m.read j = none ∧ readKey m u a n = .error (.fault (u j)) := by
  induction n generalizing a with
  | zero => exact absurd (fun i hi => by omega) h
  | succ n ih =>
    cases hm : m.read a with
    | none => exact ⟨a, hm, by simp [readKey, hm]⟩
    | some v =>
      obtain ⟨j, hj, he⟩ := ih (a := a + 1) fun hh => h fun i hi => by
        cases i with
        | zero => simp [hm]
        | succ i => rw [show a + (i + 1) = a + 1 + i by omega]; exact hh i (by omega)
      exact ⟨j, hj, by simp [readKey, hm, he]⟩

/-- A key read never raises an error code. -/
theorem readKey_ne_raise (m : Memory) (u : Nat → Fault) (a n : Nat) (c : ErrCode) :
    readKey m u a n ≠ .error (.raise c) := by
  induction n generalizing a with
  | zero => simp [readKey]
  | succ n ih =>
    cases hm : m.read a with
    | none => simp [readKey, hm]
    | some v =>
      simp only [readKey, hm, ne_eq, run_bind_error]
      rintro (h | ⟨vs, -, h⟩)
      · exact ih _ h
      · exact nomatch h

/-- The receive key is read when it is held (R29). -/
theorem State.readRxKey_is {s : State} {k : List Byte} (h : s.rxKeyIs k) : s.readRxKey = .ok k := by
  have := readKey_holds (m := s.rxKey) (u := .unwrittenRxKey) (a := 0) (k := k) fun i hi => by simpa using h.2.2 i hi
  rw [State.readRxKey, h.1, this]

/-- The per-call key is read when it is held (R30). -/
theorem State.readOpKey_is {s : State} {k : List Byte} (h : s.opKeyIs k) : s.readOpKey = .ok k := by
  have := readKey_holds (m := s.opKey) (u := .unwrittenOpKey) (a := 0) (k := k) fun i hi => by simpa using h.2.2 i hi
  rw [State.readOpKey, h.1, this]

/-- A receive key not wholly written stops the run where it is read (R29, R272). -/
theorem State.readRxKey_unwritten {s : State} (h : ¬ s.rxKeyWritten) :
    ∃ j, s.rxKey.read j = none ∧ s.readRxKey = .error (.fault (.unwrittenRxKey j)) := readKey_unwritten (by simpa using h)

/-- A per-call key not wholly written stops the run where it is read (R30, R272). -/
theorem State.readOpKey_unwritten {s : State} (h : ¬ s.opKeyWritten) :
    ∃ j, s.opKey.read j = none ∧ s.readOpKey = .error (.fault (.unwrittenOpKey j)) := readKey_unwritten (by simpa using h)

/-- FRAME_RAM bytes that are held are read (R10). -/
theorem State.readBytes_ram {s : State} {a : Nat} {L : List Byte} (h : s.holds a L) : readBytes s.ram a L.length = .ok L :=
  readBytes_holds h

/-- A slice of a buffer that is a list (ACC) is read. -/
theorem readBytes_acc {acc : List Byte} {a n : Nat} (h : a + n ≤ acc.length) :
    readBytes (accBuffer acc) a n = .ok ((acc.drop a).take n) := by
  have hl : ((acc.drop a).take n).length = n := by simp; omega
  have := readBytes_holds (b := accBuffer acc) (L := (acc.drop a).take n) (a := a) fun i hi => by
    rw [hl] at hi
    simp [accBuffer, hi, List.getElem?_drop]
  rwa [hl] at this

end Sys2Proof.Machine
end

