-- ==== Sys2Proof/Laws/View.lean ====
section
/-! SUPPORT. The Frame View's shared functions: what each answers, and when it stops. -/

namespace Sys2Proof.Machine

/-- The two magic bytes, and no other, begin a frame (R80). -/
theorem versionOf_eq_some {m : Byte} {v : Version} :
    versionOf m = some v ↔ (m = magicV1 ∧ v = .v1) ∨ (m = magicV2 ∧ v = .v2) := by
  have hne : magicV2 ≠ magicV1 := by decide
  unfold versionOf
  by_cases h1 : m = magicV1
  · subst h1; simp [hne.symm, eq_comm]
  · by_cases h2 : m = magicV2
    · subst h2; simp [hne, eq_comm]
    · simp [h1, h2]

/-- The header length is one of two (R85). -/
theorem headerLen_bounds (v : Version) : 6 ≤ v.headerLen ∧ v.headerLen ≤ 10 := by
  cases v <;> decide

/-- A header's length is its version's (R85). -/
@[simp] theorem headerFields_version (v : Version) (hs : List Byte) : (headerFields v hs).version = v := by
  cases v <;> rfl

/-- The shortest and the longest frame (R93). -/
theorem Header.totalLen_bounds (h : Header) : 8 ≤ h.totalLen ∧ h.totalLen ≤ Config.maxFrame := by
  have hn : h.payloadLen.toNat < 256 := h.payloadLen.isLt
  cases hv : h.version <;>
    simp only [Header.totalLen, Header.throughChecksum, Header.headerLen, Header.n, Header.signed, hv,
      Version.headerLen, Config.maxFrame] <;>
    split <;> simp_all <;> omega

/-- A version 1 frame is never signed (R86). -/
theorem Header.signed_v1 {h : Header} (hv : h.version = .v1) : h.signed = false := by
  simp [Header.signed, hv]

/-- A signed frame has the 10-byte header (R86). -/
theorem Header.signed_v2 {h : Header} (hs : h.signed = true) : h.version = .v2 := by
  cases hv : h.version
  · simp [Header.signed, hv] at hs
  · rfl

/-- Everything a decoded header says (R140): its bytes are inside the limit, were read, and begin with its magic. -/
theorem decodeHeader_ok {b : Buffer} {start limit : Nat} {h : Header} (hd : decodeHeader b start limit = .ok h) :
    start + h.headerLen ≤ limit ∧ (∃ m, b start = some m ∧ versionOf m = some h.version) ∧
      ∃ hs, readBytes b start h.headerLen = .ok hs ∧ h = headerFields h.version hs := by
  simp only [decodeHeader, run_bind_ok] at hd
  obtain ⟨-, -, m, hm, hd⟩ := hd
  cases hv : versionOf m with
  | none => rw [hv] at hd; exact nomatch hd
  | some v =>
    rw [hv] at hd
    simp only [run_bind_ok, require_ok_iff] at hd
    obtain ⟨-, hl, hs, hr, hd⟩ := hd
    cases hd
    have hver : (headerFields v hs).headerLen = v.headerLen := by simp [Header.headerLen]
    rw [hver, headerFields_version]
    exact ⟨hl, ⟨m, readByte_ok_iff.1 hm, hv⟩, hs, hr, rfl⟩

/-- A header whose bytes the buffer holds is decoded (R140). -/
theorem decodeHeader_holds {b : Buffer} {start limit : Nat} {v : Version} {m : Byte} {hs : List Byte}
    (hv : versionOf m = some v) (hlen : (m :: hs).length = v.headerLen) (hl : start + v.headerLen ≤ limit)
    (hb : ∀ i, i < (m :: hs).length → b (start + i) = (m :: hs)[i]?) :
    decodeHeader b start limit = .ok (headerFields v (m :: hs)) := by
  have h1 : start + 1 ≤ limit := by have := headerLen_bounds v; omega
  have h2 : readByte b start = .ok m := readByte_some (by simpa using hb 0 (by simp))
  have h3 := readBytes_holds hb
  rw [hlen] at h3
  simp [decodeHeader, h1, h2, hv, hl, h3]

/-- Outside the limit the header is out of range (R140). -/
theorem decodeHeader_outOfRange {b : Buffer} {start limit : Nat} (h : limit ≤ start) :
    decodeHeader b start limit = .error (.raise .outOfRange) := by
  have : ¬ start + 1 ≤ limit := by omega
  simp [decodeHeader, this]

/-- A byte that is no magic begins no frame (R140). -/
theorem decodeHeader_notAFrame {b : Buffer} {start limit : Nat} {m : Byte} (h : start < limit) (hb : b start = some m)
    (hm : versionOf m = none) : decodeHeader b start limit = .error (.raise .notAFrame) := by
  have : start + 1 ≤ limit := h
  simp [decodeHeader, this, readByte_some hb, hm]

/-- A header cut by the limit is out of range, its other bytes unread (R140). -/
theorem decodeHeader_cut {b : Buffer} {start limit : Nat} {m : Byte} {v : Version} (h : start < limit)
    (hb : b start = some m) (hm : versionOf m = some v) (hl : limit < start + v.headerLen) :
    decodeHeader b start limit = .error (.raise .outOfRange) := by
  have h1 : start + 1 ≤ limit := h
  have h2 : ¬ start + v.headerLen ≤ limit := by omega
  simp [decodeHeader, h1, readByte_some hb, hm, h2]

/-- With the header inside the limit and a magic first, decoding raises no error code (R181). -/
theorem decodeHeader_ne_raise {b : Buffer} {start limit : Nat} {m : Byte} {v : Version} (hb : b start = some m)
    (hm : versionOf m = some v) (hl : start + v.headerLen ≤ limit) (c : ErrCode) :
    decodeHeader b start limit ≠ .error (.raise c) := by
  have h1 : start + 1 ≤ limit := by have := headerLen_bounds v; omega
  simp only [decodeHeader, require_pos h1, run_ok_bind, readByte_some hb, hm, require_pos hl, ne_eq, run_bind_error]
  rintro (h | ⟨hs, -, h⟩)
  · exact readBytes_ne_raise _ _ _ _ h
  · exact nomatch h

/-- A header whose bytes are written is decoded (R140). -/
theorem decodeHeader_written {b : Buffer} {start limit : Nat} {m : Byte} {v : Version} (hb : b start = some m)
    (hm : versionOf m = some v) (hl : start + v.headerLen ≤ limit)
    (hw : ∀ i, i < v.headerLen → (b (start + i)).isSome = true) : ∃ h, decodeHeader b start limit = .ok h := by
  have h1 : start + 1 ≤ limit := by have := headerLen_bounds v; omega
  obtain ⟨hs, hr⟩ := readBytes_written hw
  exact ⟨headerFields v hs, by simp [decodeHeader, h1, readByte_some hb, hm, hl, hr]⟩

/-- A header with an unwritten byte stops the run (R140, R272; log 11). -/
theorem decodeHeader_unwritten {b : Buffer} {start limit : Nat} {m : Byte} {v : Version} (hb : b start = some m)
    (hm : versionOf m = some v) (hl : start + v.headerLen ≤ limit)
    (hw : ¬ ∀ i, i < v.headerLen → (b (start + i)).isSome = true) :
    ∃ j, b j = none ∧ decodeHeader b start limit = .error (.fault (.unwrittenByte j)) := by
  have h1 : start + 1 ≤ limit := by have := headerLen_bounds v; omega
  obtain ⟨j, hj, hr⟩ := readBytes_unwritten hw
  exact ⟨j, hj, by simp [decodeHeader, h1, readByte_some hb, hm, hl, hr]⟩

/-- The two magic bytes (R80). -/
theorem isMagic_iff (x : Byte) : isMagic x = true ↔ x = 0xFE#8 ∨ x = 0xFD#8 := by
  unfold isMagic
  cases h : versionOf x with
  | none =>
    simp only [Option.isSome_none, Bool.false_eq_true, false_iff]
    rintro (rfl | rfl) <;> revert h <;> decide
  | some v => rcases versionOf_eq_some.1 h with ⟨rfl, -⟩ | ⟨rfl, -⟩ <;> simp [magicV1, magicV2]

/-- The checksum comparison raises no error code (R143). -/
theorem validateCrc_ne_raise (b : Buffer) (start : Nat) (h : Header) (extra : Byte) (c : ErrCode) :
    validateCrc b start h extra ≠ .error (.raise c) := by
  simp only [validateCrc, computedChecksum, storedChecksum, ne_eq, run_bind_error]
  rintro ((hr | ⟨_, -, hr⟩) | ⟨_, -, (hr | ⟨_, -, hr⟩) | ⟨_, -, hr⟩⟩)
  · exact readBytes_ne_raise _ _ _ _ hr
  · exact nomatch hr
  · exact readBytes_ne_raise _ _ _ _ hr
  · exact nomatch hr
  · exact nomatch hr

/-- The trailer's fields raise no error code (R149). -/
theorem sigTimestamp_ne_raise (b : Buffer) (start : Nat) (h : Header) (c : ErrCode) :
    sigTimestamp b start h ≠ .error (.raise c) := by
  simp only [sigTimestamp, ne_eq, run_bind_error]
  rintro (hr | ⟨_, -, hr⟩)
  · exact readBytes_ne_raise _ _ _ _ hr
  · exact nomatch hr

/-- The signature comparison raises no error code (R147). -/
theorem validateSignature_ne_raise (s : State) (b : Buffer) (start : Nat) (h : Header) (key : List Byte) (c : ErrCode) :
    validateSignature s b start h key ≠ .error (.raise c) := by
  simp only [validateSignature, sigLinkId, ne_eq, run_bind_error]
  rintro (hr | ⟨_, -, hr | ⟨_, -, hr | ⟨_, -, hr | ⟨_, -, hr⟩⟩⟩⟩)
  · exact readBytes_ne_raise _ _ _ _ hr
  · exact readByte_ne_raise _ _ _ hr
  · exact sigTimestamp_ne_raise _ _ _ _ hr
  · exact readBytes_ne_raise _ _ _ _ hr
  · exact nomatch hr

end Sys2Proof.Machine
end

