-- ==== Sys2Proof/Laws/Scan.lean ====
section
/-! SUPPORT. The Frame Scanner: what a strict check, a scan and a drain can answer. -/

namespace Sys2Proof.Machine

/-! ### Stops: the scanner never raises an error code -/

/-- The signature condition raises no error code (R185). -/
theorem signaturePasses_ne_raise (s : State) (b : Buffer) (c : Nat) (h : Header) (e : ErrCode) :
    s.signaturePasses b c h ≠ .error (.raise e) := by
  unfold State.signaturePasses
  split
  · split
    · simp
    · simp only [ne_eq, run_bind_error]
      rintro (hr | ⟨k, -, hr⟩)
      · exact readKey_ne_raise _ _ _ _ _ hr
      · exact validateSignature_ne_raise _ _ _ _ _ _ hr
  · simp

/-- The anti-replay condition raises no error code (R186). -/
theorem replayStage_ne_raise (s : State) (b : Buffer) (c : Nat) (h : Header) (m : ReplayMap) (e : ErrCode) :
    s.replayStage b c h m ≠ .error (.raise e) := by
  unfold State.replayStage
  split
  · simp only [ne_eq, run_bind_error, sigLinkId]
    rintro (hr | ⟨_, -, hr | ⟨_, -, hr⟩⟩)
    · exact readByte_ne_raise _ _ _ hr
    · exact sigTimestamp_ne_raise _ _ _ _ hr
    · exact nomatch hr
  · simp

/-- The message conditions raise no error code (R188 to R190). -/
theorem messagePasses_ne_raise (s : State) (b : Buffer) (c : Nat) (h : Header) (e : ErrCode) :
    s.messagePasses b c h ≠ .error (.raise e) := by
  unfold State.messagePasses
  split
  · simp
  · split
    · exact validateCrc_ne_raise _ _ _ _ _
    · simp

/-- A strict check raises no error code: a rejection is a result (R257). -/
theorem strictOk_ne_raise (s : State) (b : Buffer) (c : Nat) (h : Header) (m : ReplayMap) (e : ErrCode) :
    s.strictOk b c h m ≠ .error (.raise e) := by
  unfold State.strictOk
  split
  · simp
  split
  · simp
  simp only [ne_eq, run_bind_error]
  rintro (hr | ⟨sig, -, hr⟩)
  · exact signaturePasses_ne_raise _ _ _ _ _ hr
  · cases sig with
    | false => simp at hr
    | true =>
      simp only [Bool.true_eq_false, if_false, run_bind_error] at hr
      rcases hr with hr | ⟨rep, -, hr⟩
      · exact replayStage_ne_raise _ _ _ _ _ _ hr
      · cases rep with
        | none => simp at hr
        | some upd =>
          simp only [run_bind_error] at hr
          rcases hr with hr | ⟨msg, -, hr⟩
          · exact messagePasses_ne_raise _ _ _ _ _ hr
          · exact nomatch hr

/-! ### What a strict check answers -/

/-- Everything a strict check that ended can have done (R182): rejected before the anti-replay condition or at it, the
map untouched; or passed it, the message conditions deciding and the map committed (R187). -/
theorem strictOk_cases {s : State} {b : Buffer} {c : Nat} {h : Header} {m : ReplayMap} {r : Verdict × ReplayMap}
    (hs : s.strictOk b c h m = .ok r) :
    r = (.reject, m) ∨
      ∃ upd msg, h.unknownFlags = false ∧ s.refusesUnsigned h = false ∧ s.signaturePasses b c h = .ok true ∧
        s.replayStage b c h m = .ok (some upd) ∧ s.messagePasses b c h = .ok msg ∧
        r = (if msg then .accept else .reject, s.commit m upd msg) := by
  unfold State.strictOk at hs
  split at hs
  · cases hs; exact .inl rfl
  split at hs
  · cases hs; exact .inl rfl
  rename_i hu hr
  simp only [run_bind_ok] at hs
  obtain ⟨sig, hsig, hs⟩ := hs
  cases sig with
  | false => simp only [if_true] at hs; cases hs; exact .inl rfl
  | true =>
    simp only [Bool.true_eq_false, if_false, run_bind_ok] at hs
    obtain ⟨rep, hrep, hs⟩ := hs
    cases rep with
    | none => cases hs; exact .inl rfl
    | some upd =>
      simp only [run_bind_ok] at hs
      obtain ⟨msg, hmsg, hs⟩ := hs
      cases hs
      exact .inr ⟨upd, msg, by simpa using hu, by simpa using hr, hsig, hrep, hmsg, rfl⟩

/-- An update the anti-replay condition asks for (R186): a composite key, absent or with an older record, and the
frame's 48-bit timestamp. -/
theorem replayStage_update {s : State} {b : Buffer} {c : Nat} {h : Header} {m : ReplayMap} {k : Nat} {v : BitVec 64}
    (hr : s.replayStage b c h m = .ok (some (some (k, v)))) :
    k < 2 ^ 24 ∧ v.toNat < 2 ^ 48 ∧ ∀ last, m.lookup k = some last → last.toNat < v.toNat := by
  unfold State.replayStage at hr
  split at hr
  · simp only [run_bind_ok] at hr
    obtain ⟨link, -, ts, -, hr⟩ := hr
    have hts : (ts.setWidth 64).toNat = ts.toNat := by
      have := ts.isLt; simp only [BitVec.toNat_setWidth]; omega
    have hkey : compositeKey h.systemId h.componentId link < 2 ^ 24 := BitVec.isLt _
    simp only [Except.ok.injEq, replayCheck] at hr
    split at hr
    · rename_i hl
      simp only [Option.some.injEq, Prod.mk.injEq] at hr
      obtain ⟨rfl, rfl⟩ := hr
      exact ⟨hkey, by rw [hts]; exact ts.isLt, fun last h' => by rw [hl] at h'; cases h'⟩
    · rename_i last hl
      split at hr
      · split at hr
        · rename_i hlt
          simp only [Option.some.injEq, Prod.mk.injEq] at hr
          obtain ⟨rfl, rfl⟩ := hr
          exact ⟨hkey, by rw [hts]; exact ts.isLt, fun l h' => by rw [hl] at h'; cases h'; rw [hts]; exact hlt⟩
        · simp at hr
      · simp at hr
  · simp at hr

/-- What one strict check may do to the map (R132, R186, R187): nothing, or one put of a composite key's record, absent
or older, by a 48-bit timestamp. -/
inductive MapStep (m : ReplayMap) : ReplayMap → Prop where
  | same : MapStep m m
  | put (k : Nat) (v : BitVec 64) (hk : k < 2 ^ 24) (hv : v.toNat < 2 ^ 48)
      (hlast : ∀ last, m.lookup k = some last → last.toNat < v.toNat) : MapStep m (m.put k v)

/-- A strict check does no more to the map. -/
theorem strictOk_mapStep {s : State} {b : Buffer} {c : Nat} {h : Header} {m : ReplayMap} {r : Verdict × ReplayMap}
    (hs : s.strictOk b c h m = .ok r) : MapStep m r.2 := by
  rcases strictOk_cases hs with rfl | ⟨upd, msg, -, -, -, hrep, -, rfl⟩
  · exact .same
  · have happly : MapStep m (m.apply upd) := by
      cases upd with
      | none => exact .same
      | some u => obtain ⟨hk, hv, hl⟩ := replayStage_update (k := u.1) (v := u.2) hrep; exact .put _ _ hk hv hl
    cases hc : s.params.replayCommit
    · simpa [State.commit, hc] using happly
    · cases msg
      · simpa [State.commit, hc] using MapStep.same
      · simpa [State.commit, hc] using happly

/-- Records are kept, and only renewed (R132, R186). -/
theorem MapStep.grows {m m' : ReplayMap} (h : MapStep m m') : m.grows m' := by
  cases h with
  | same => exact fun _ v hv => ⟨v, hv, Nat.le_refl _⟩
  | put k v hk hv hlast =>
    intro key w hw
    by_cases hkey : key = k
    · subst hkey
      refine ⟨v, by simp [ReplayMap.put, Sparse.get_put], Nat.le_of_lt (hlast w ?_)⟩
      rw [ReplayMap.lookup, if_neg (by unfold mapSentinel; omega)]; exact hw
    · exact ⟨w, by rw [ReplayMap.put, Sparse.get_put_other _ hkey]; exact hw, Nat.le_refl _⟩

/-- Growing is reflexive. -/
theorem ReplayMap.grows_refl (m : ReplayMap) : m.grows m := fun _ v hv => ⟨v, hv, Nat.le_refl _⟩

/-- Growing is transitive. -/
theorem ReplayMap.grows_trans {a b c : ReplayMap} (h1 : a.grows b) (h2 : b.grows c) : a.grows c := fun k v hv => by
  obtain ⟨v1, h3, h4⟩ := h1 k v hv
  obtain ⟨v2, h5, h6⟩ := h2 k v1 h3
  exact ⟨v2, h5, by omega⟩

/-- A strict check that rejects under ON_ACCEPT leaves the map (R187). -/
theorem strictOk_reject_onAccept {s : State} {b : Buffer} {c : Nat} {h : Header} {m : ReplayMap} {r : Verdict × ReplayMap}
    (hc : s.params.replayCommit = .onAccept) (hs : s.strictOk b c h m = .ok r) (hr : r.1 = .reject) : r.2 = m := by
  rcases strictOk_cases hs with rfl | ⟨upd, msg, -, -, -, -, -, rfl⟩
  · rfl
  · cases msg
    · simp [State.commit, hc]
    · simp at hr

/-! ### What a scan answers -/

/-- An accepted span is a frame (R181, R194): inside the range, a magic first, its header's total length, and under
strict mode accepted by the strict check, on the map `before`, which it makes `after`. -/
structure AcceptedSpan (s : State) (b : Buffer) (from_ stop : Nat) (e : Accepted) : Prop where
  inside : from_ ≤ e.start ∧ e.start + e.total ≤ stop
  grown : e.before.grows e.after
  frame : ∃ h, decodeHeader b e.start stop = .ok h ∧ e.total = h.totalLen ∧
    (s.strict = true → s.strictOk b e.start h e.before = .ok (.accept, e.after))

/-- Everything a scan that ended says (R181, R193, R194), and an invariant of the map it keeps. The map on which a frame
is accepted is the one the scan started with, grown by the candidates rejected before it (R187). -/
theorem scanFrom_ok {s : State} {b : Buffer} {stop : Nat} (P : ReplayMap → Prop)
    (hP : ∀ c h m r, P m → s.strictOk b c h m = .ok r → P r.2) :
    ∀ {fuel c rejects : Nat} {m : ReplayMap} {r : Scan}, c + fuel = stop → P m →
      s.scanFrom b stop fuel c rejects m = .ok r →
      P r.map ∧ (s.strict = false → r.map = m ∧ r.rejects = rejects) ∧ rejects ≤ r.rejects ∧
        r.rejects ≤ rejects + fuel ∧
        ∀ start total, r.accepted = some (start, total) → ∃ before, m.grows before ∧
          (r.rejects = rejects ∨ s.params.replayCommit = .onAccept → before = m) ∧
          AcceptedSpan s b c stop ⟨start, total, before, r.map⟩ := by
  intro fuel
  induction fuel with
  | zero =>
    intro c rejects m r hc hm hs
    cases hs
    exact ⟨hm, fun _ => ⟨rfl, rfl⟩, Nat.le_refl _, Nat.le_refl _, fun _ _ h => nomatch h⟩
  | succ fuel ih =>
    intro c rejects m r hc hm hs
    simp only [State.scanFrom, run_bind_ok] at hs
    obtain ⟨x, hx, hs⟩ := hs
    have widen : ∀ {e}, AcceptedSpan s b (c + 1) stop e → AcceptedSpan s b c stop e :=
      fun h => ⟨⟨by have := h.inside.1; omega, h.inside.2⟩, h.grown, h.frame⟩
    cases hv : versionOf x with
    | none =>
      rw [hv] at hs
      obtain ⟨h1, h2, h3, h4, h5⟩ := ih (by omega) hm hs
      refine ⟨h1, h2, h3, by omega, fun st t h => ?_⟩
      obtain ⟨before, hg, he, hsp⟩ := h5 st t h
      exact ⟨before, hg, he, widen hsp⟩
    | some v =>
      rw [hv] at hs
      simp only at hs
      split at hs
      · cases hs
        exact ⟨hm, fun _ => ⟨rfl, rfl⟩, Nat.le_refl _, by simp, fun _ _ h => nomatch h⟩
      simp only [run_bind_ok] at hs
      obtain ⟨h, hd, hs⟩ := hs
      split at hs
      · cases hs
        exact ⟨hm, fun _ => ⟨rfl, rfl⟩, Nat.le_refl _, by simp, fun _ _ h => nomatch h⟩
      rename_i hlen
      have span : ∀ {Q : Prop} after, m.grows after → (s.strict = true → s.strictOk b c h m = .ok (.accept, after)) →
          ∃ before, m.grows before ∧ (Q → before = m) ∧ AcceptedSpan s b c stop ⟨c, h.totalLen, before, after⟩ :=
        @fun _ after hg hst => ⟨m, m.grows_refl, fun _ => rfl, ⟨Nat.le_refl _, by show c + h.totalLen ≤ stop; omega⟩, hg, h, hd, rfl, hst⟩
      split at hs
      · rename_i hst
        cases hs
        refine ⟨hm, fun _ => ⟨rfl, rfl⟩, Nat.le_refl _, by simp, fun st t he => ?_⟩
        cases he
        exact span _ m.grows_refl fun h' => by simp [hst] at h'
      · rename_i hst
        simp only [run_bind_ok] at hs
        obtain ⟨r', hr', hs⟩ := hs
        have hstrict : s.strict = true := by simpa using hst
        cases hverd : r'.1 with
        | accept =>
          rw [hverd] at hs
          cases hs
          refine ⟨hP _ _ _ _ hm hr', fun h' => by simp [hstrict] at h', Nat.le_refl _, by simp, fun st t he => ?_⟩
          cases he
          exact span _ (strictOk_mapStep hr').grows fun _ => by rw [hr', ← hverd]
        | reject =>
          rw [hverd] at hs
          obtain ⟨h1, -, h3, h4, h5⟩ := ih (by omega) (hP _ _ _ _ hm hr') hs
          refine ⟨h1, fun h' => by simp [hstrict] at h', by omega, by omega, fun st t he => ?_⟩
          obtain ⟨before, hg, hb, hsp⟩ := h5 st t he
          refine ⟨before, ReplayMap.grows_trans (strictOk_mapStep hr').grows hg, ?_, widen hsp⟩
          rintro (h' | h')
          · omega
          · rw [hb (.inr h'), strictOk_reject_onAccept h' hr' hverd]

/-- A scan keeps every record of the map, or renews it (R132, R136). -/
theorem scanFrom_grows {s : State} {b : Buffer} {stop fuel c rejects : Nat} {m : ReplayMap} {r : Scan}
    (hc : c + fuel = stop) (hs : s.scanFrom b stop fuel c rejects m = .ok r) : m.grows r.map :=
  (scanFrom_ok m.grows (fun _ _ _ _ hm hr => ReplayMap.grows_trans hm (strictOk_mapStep hr).grows) hc m.grows_refl hs).1

/-- A scan raises no error code (R181, R257). -/
theorem scanFrom_ne_raise (s : State) (b : Buffer) (stop : Nat) (e : ErrCode) :
    ∀ (fuel c rejects : Nat) (m : ReplayMap), c + fuel = stop → s.scanFrom b stop fuel c rejects m ≠ .error (.raise e) := by
  intro fuel
  induction fuel with
  | zero => intro c rejects m _ hs; exact nomatch hs
  | succ fuel ih =>
    intro c rejects m hc hs
    simp only [State.scanFrom, run_bind_error] at hs
    rcases hs with hs | ⟨x, hx, hs⟩
    · exact readByte_ne_raise _ _ _ hs
    cases hv : versionOf x with
    | none => rw [hv] at hs; exact ih _ _ _ (by omega) hs
    | some v =>
      rw [hv] at hs
      simp only at hs
      split at hs
      · exact nomatch hs
      rename_i hhl
      simp only [run_bind_error] at hs
      rcases hs with hs | ⟨h, -, hs⟩
      · exact decodeHeader_ne_raise (readByte_ok_iff.1 hx) hv (by omega) _ hs
      split at hs
      · exact nomatch hs
      split at hs
      · exact nomatch hs
      simp only [run_bind_error] at hs
      rcases hs with hs | ⟨r, -, hs⟩
      · exact strictOk_ne_raise _ _ _ _ _ _ hs
      cases hverd : r.1 with
      | accept => rw [hverd] at hs; exact nomatch hs
      | reject => rw [hverd] at hs; exact ih _ _ _ (by omega) hs

/-! ### When a scan ends -/

/-- A strict check ends when the frame's bytes and the receive key are written (R272). -/
theorem strictOk_written {s : State} {b : Buffer} {c : Nat} {h : Header} (m : ReplayMap)
    (hb : ∀ i, i < h.totalLen → (b (c + i)).isSome = true) (hk : s.rxKeyWritten) : ∃ r, s.strictOk b c h m = .ok r := by
  have hread : ∀ a n, a + n ≤ h.totalLen → ∃ L, readBytes b (c + a) n = .ok L := fun a n han =>
    readBytes_written fun i hi => by rw [Nat.add_assoc]; exact hb _ (by omega)
  have hpre : h.headerLen + h.n + 2 ≤ h.totalLen := by simp [Header.totalLen, Header.throughChecksum]
  have hhl : 6 ≤ h.headerLen := (headerLen_bounds h.version).1
  have hsig13 : h.signed = true → h.totalLen = h.throughChecksum + 13 := fun hs => by simp [Header.totalLen, hs]
  have hts : h.signed = true → ∃ ts, sigTimestamp b c h = .ok ts := fun hs => by
    obtain ⟨L, hL⟩ := hread (h.throughChecksum + 1) 6 (by rw [hsig13 hs]; omega)
    exact ⟨_, by simp only [sigTimestamp]; rw [Nat.add_assoc, hL]; rfl⟩
  have hlink : h.signed = true → ∃ l, sigLinkId b c h = .ok l := fun hs => by
    obtain ⟨v, hv⟩ := Option.isSome_iff_exists.1 (hb h.throughChecksum (by rw [hsig13 hs]; omega))
    exact ⟨v, readByte_some hv⟩
  have hsign : ∃ v, s.signaturePasses b c h = .ok v := by
    unfold State.signaturePasses
    split
    · rename_i hs
      simp only [Bool.and_eq_true] at hs
      split
      · exact ⟨_, rfl⟩
      · obtain ⟨k, hk'⟩ : ∃ k, s.readRxKey = .ok k := readKey_written fun i hi => by simpa using hk i hi
        obtain ⟨L, hL⟩ := hread 0 h.throughChecksum (by rw [hsig13 hs.1]; omega)
        obtain ⟨l, hl⟩ := hlink hs.1
        obtain ⟨ts, hts'⟩ := hts hs.1
        obtain ⟨L2, hL2⟩ := hread (h.throughChecksum + 7) 6 (by rw [hsig13 hs.1])
        rw [Nat.add_zero] at hL
        rw [← Nat.add_assoc] at hL2
        exact ⟨_, by simp [validateSignature, hk', hL, hl, hts', hL2]; rfl⟩
    · exact ⟨_, rfl⟩
  have hrep : ∃ v, s.replayStage b c h m = .ok v := by
    unfold State.replayStage
    split
    · rename_i hs
      simp only [Bool.and_eq_true] at hs
      obtain ⟨l, hl⟩ := hlink hs.1
      obtain ⟨ts, hts'⟩ := hts hs.1
      exact ⟨_, by rw [hl, hts']; rfl⟩
    · exact ⟨_, rfl⟩
  have hmsg : ∃ v, s.messagePasses b c h = .ok v := by
    unfold State.messagePasses
    split
    · exact ⟨_, rfl⟩
    · split
      · obtain ⟨L, hL⟩ := hread 1 (h.headerLen - 1 + h.n) (by omega)
        obtain ⟨L2, hL2⟩ := hread (h.headerLen + h.n) 2 (by omega)
        rw [← Nat.add_assoc] at hL2
        exact ⟨_, by simp [validateCrc, computedChecksum, storedChecksum, hL, hL2]; rfl⟩
      · exact ⟨_, rfl⟩
  obtain ⟨sig, hsig⟩ := hsign
  obtain ⟨rep, hrep⟩ := hrep
  obtain ⟨msg, hmsg⟩ := hmsg
  unfold State.strictOk
  split
  · exact ⟨_, rfl⟩
  split
  · exact ⟨_, rfl⟩
  cases sig with
  | false => exact ⟨(.reject, m), by simp [hsig]⟩
  | true =>
    cases rep with
    | none => exact ⟨(.reject, m), by simp [hsig, hrep]⟩
    | some upd => exact ⟨(if msg then .accept else .reject, s.commit m upd msg), by simp [hsig, hrep, hmsg]⟩

/-- A scan ends when every byte of its range and the receive key are written (R193, R272). -/
theorem scanFrom_written {s : State} {b : Buffer} {stop : Nat} (hk : s.rxKeyWritten) :
    ∀ (fuel c rejects : Nat) (m : ReplayMap), c + fuel = stop →
      (∀ i, c ≤ i → i < stop → (b i).isSome = true) → ∃ r, s.scanFrom b stop fuel c rejects m = .ok r := by
  intro fuel
  induction fuel with
  | zero => intro c rejects m _ _; exact ⟨_, rfl⟩
  | succ fuel ih =>
    intro c rejects m hc hw
    have hnext : ∀ rj m', ∃ r, s.scanFrom b stop fuel (c + 1) rj m' = .ok r := fun rj m' =>
      ih _ _ _ (by omega) fun i h1 h2 => hw i (by omega) h2
    obtain ⟨x, hx⟩ := Option.isSome_iff_exists.1 (hw c (Nat.le_refl _) (by omega))
    simp only [State.scanFrom, readByte_some hx, run_ok_bind]
    cases hv : versionOf x with
    | none => exact hnext _ _
    | some v =>
      simp only
      split
      · exact ⟨_, rfl⟩
      rename_i hhl
      obtain ⟨h, hd⟩ := decodeHeader_written hx hv (limit := stop) (by omega) fun i hi => hw _ (by omega) (by omega)
      simp only [hd, run_ok_bind]
      split
      · exact ⟨_, rfl⟩
      rename_i hlen
      split
      · exact ⟨_, rfl⟩
      obtain ⟨r, hr⟩ := strictOk_written (s := s) (b := b) (c := c) (h := h) m
        (fun i hi => hw _ (by omega) (by omega)) hk
      simp only [hr, run_ok_bind]
      cases r.1 with
      | accept => exact ⟨_, rfl⟩
      | reject => exact hnext _ _

/-! ### The scanner depends on the policy only -/

/-- The part of a state the scanner reads (R182): two states that agree on it scan alike. -/
structure SamePolicy (s s' : State) : Prop where
  options : s.options = s'.options
  windowLo : s.windowLo = s'.windowLo
  windowHi : s.windowHi = s'.windowHi
  rxKeyLen : s.rxKeyLen = s'.rxKeyLen
  rxKey : s.rxKey = s'.rxKey
  params : s.params = s'.params

/-- A strict check reads the policy and nothing else of the state. -/
theorem strictOk_policy {s s' : State} (h : SamePolicy s s') (b : Buffer) (c : Nat) (hd : Header) (m : ReplayMap) :
    s.strictOk b c hd m = s'.strictOk b c hd m := by
  obtain ⟨h1, h2, h3, h4, h5, h6⟩ := h
  cases s
  cases s'
  dsimp only at h1 h2 h3 h4 h5 h6
  subst h1 h2 h3 h4 h5 h6
  rfl

/-- A scan reads the policy and nothing else of the state. -/
theorem scanFrom_policy {s s' : State} (h : SamePolicy s s') (b : Buffer) (stop fuel c rejects : Nat) (m : ReplayMap) :
    s.scanFrom b stop fuel c rejects m = s'.scanFrom b stop fuel c rejects m := by
  have hst : s.strict = s'.strict := by simp [State.strict, h.options]
  induction fuel generalizing c rejects m with
  | zero => rfl
  | succ fuel ih => simp only [State.scanFrom, hst, strictOk_policy h, ih]

end Sys2Proof.Machine
end

