-- ==== Sys2Proof/Laws/Reassemble.lean ====
section
/-! SUPPORT. The Stream Reassembler: what the scan loop of a push can answer, and the sizes it keeps. -/

namespace Sys2Proof.Machine

/-- Frames accepted one after the other from a cursor and a map (R195, R212): each begins at or after the end of the one
before, is what the scan from there on the map that left finds, and is checked on a map no smaller; the last scan finds
nothing. -/
inductive Spans (s : State) (acc : List Byte) : Nat → ReplayMap → List Accepted → Nat → ReplayMap → Prop where
  | done (cur : Nat) {m m' : ReplayMap} {rejects : Nat} (grown : m.grows m')
      (scanned : s.scanBuffer (accBuffer acc) cur acc.length m = .ok ⟨none, rejects, m'⟩) : Spans s acc cur m [] cur m'
  | next {cur stop rejects : Nat} {m m' : ReplayMap} {e : Accepted} {l : List Accepted} (grown : m.grows e.before)
      (scanned : s.scanBuffer (accBuffer acc) cur acc.length m = .ok ⟨some (e.start, e.total), rejects, e.after⟩)
      (accepted : AcceptedSpan s (accBuffer acc) cur acc.length e)
      (rest : Spans s acc (e.start + e.total) e.after l stop m') : Spans s acc cur m (e :: l) stop m'

/-- An accepted span is at least 8 bytes (R93). -/
theorem AcceptedSpan.eight {s : State} {b : Buffer} {c stop : Nat} {e : Accepted} (h : AcceptedSpan s b c stop e) :
    8 ≤ e.total := by
  obtain ⟨hd, -, he, -⟩ := h.frame
  rw [he]; exact hd.totalLen_bounds.1

/-- Spans move the cursor on, inside the buffer, by at least 8 bytes each (R219). -/
theorem Spans.bounds {s : State} {acc : List Byte} {cur stop : Nat} {m m' : ReplayMap} {l : List Accepted}
    (h : Spans s acc cur m l stop m') : cur + 8 * l.length ≤ stop ∧ (cur ≤ acc.length → stop ≤ acc.length) := by
  induction h with
  | done cur => simp
  | next _ _ ha hr ih =>
    have h8 := ha.eight
    have hi := ha.inside
    simp only [List.length_cons]
    exact ⟨by omega, fun _ => ih.2 hi.2⟩

/-- The cursor has moved exactly when a span was accepted (R213, R214). -/
theorem Spans.cursor_zero {s : State} {acc : List Byte} {stop : Nat} {m m' : ReplayMap} {l : List Accepted}
    (h : Spans s acc 0 m l stop m') : stop = 0 ↔ l = [] := by
  have hb := h.bounds.1
  constructor
  · intro h0
    cases l with
    | nil => rfl
    | cons e l => simp only [List.length_cons] at hb; omega
  · rintro rfl; cases h; rfl

/-- Everything a scan loop that ended says (R212), with an invariant of the map it keeps: the records are the accepted
spans' bytes in order, and the loop ended because a scan from the cursor it left found nothing. -/
theorem drainFrom_ok {s : State} {acc : List Byte} (P : ReplayMap → Prop)
    (hP : ∀ c h m r, P m → s.strictOk (accBuffer acc) c h m = .ok r → P r.2) :
    ∀ {fuel cur : Nat} {out : List (List Byte)} {m : ReplayMap} {d : Drain}, cur ≤ acc.length →
      acc.length < cur + fuel → P m → s.drainFrom acc fuel cur out m = .ok d →
      P d.map ∧ (s.strict = false → d.map = m) ∧
        (∃ m' r, P m' ∧ s.scanBuffer (accBuffer acc) d.cursor acc.length m' = .ok r ∧ r.accepted = none ∧ d.map = r.map) ∧
        ∃ l, Spans s acc cur m l d.cursor d.map ∧ d.records = out ++ l.map fun e => slice acc e.start e.total := by
  intro fuel
  induction fuel with
  | zero => intro cur out m d h1 h2; omega
  | succ fuel ih =>
    intro cur out m d hcur hfuel hm hd
    simp only [State.drainFrom, run_bind_ok] at hd
    obtain ⟨r, hr, hd⟩ := hd
    obtain ⟨hPr, hlen, -, -, hacc⟩ := scanFrom_ok P hP (by omega) hm hr
    have hgrow : m.grows r.map := scanFrom_grows (by omega) hr
    cases ha : r.accepted with
    | none =>
      rw [ha] at hd
      cases hd
      exact ⟨hPr, fun h => (hlen h).1, ⟨m, r, hm, hr, ha, rfl⟩, [], .done _ hgrow (by rw [hr, ← ha]), by simp⟩
    | some e =>
      obtain ⟨start, total⟩ := e
      rw [ha] at hd
      obtain ⟨before, hg, -, hspan⟩ := hacc start total ha
      have h8 : 8 ≤ total := hspan.eight
      have hin : cur ≤ start ∧ start + total ≤ acc.length := hspan.inside
      obtain ⟨h1, h2, h3, l, hl, hrec⟩ := ih hin.2 (by omega) hPr hd
      exact ⟨h1, fun h => (h2 h).trans (hlen h).1, h3, ⟨start, total, before, r.map⟩ :: l,
        .next hg (by rw [hr, ← ha]) hspan hl,
        by simp [hrec]⟩

/-- A scan loop raises no error code (R257). -/
theorem drainFrom_ne_raise (s : State) (acc : List Byte) (e : ErrCode) :
    ∀ (fuel cur : Nat) (out : List (List Byte)) (m : ReplayMap), cur ≤ acc.length →
      s.drainFrom acc fuel cur out m ≠ .error (.raise e) := by
  intro fuel
  induction fuel with
  | zero => intro cur out m _ hd; exact nomatch hd
  | succ fuel ih =>
    intro cur out m hcur hd
    simp only [State.drainFrom, run_bind_error] at hd
    rcases hd with hd | ⟨r, hr, hd⟩
    · exact scanFrom_ne_raise _ _ _ _ _ _ _ _ (by omega) hd
    · cases ha : r.accepted with
      | none => rw [ha] at hd; exact nomatch hd
      | some e =>
        obtain ⟨start, total⟩ := e
        rw [ha] at hd
        obtain ⟨_, -, -, this⟩ := (scanFrom_ok (fun _ => True) (fun _ _ _ _ _ _ => trivial) (by omega) trivial hr).2.2.2.2 start total ha
        exact ih _ _ _ this.inside.2 hd

/-- A scan loop ends when the receive key is written; ACC's bytes always are (R219, R272). -/
theorem drainFrom_written {s : State} {acc : List Byte} (hk : s.rxKeyWritten) :
    ∀ (fuel cur : Nat) (out : List (List Byte)) (m : ReplayMap), cur ≤ acc.length →
      ∃ d, s.drainFrom acc fuel cur out m = .ok d := by
  intro fuel
  induction fuel with
  | zero => intro cur out m _; exact ⟨_, rfl⟩
  | succ fuel ih =>
    intro cur out m hcur
    obtain ⟨r, hr⟩ := scanFrom_written (s := s) (b := accBuffer acc) (stop := acc.length) hk (acc.length - cur) cur 0 m
      (by omega) fun i _ h2 => by simp [accBuffer, h2]
    have hr' : s.scanBuffer (accBuffer acc) cur acc.length m = .ok r := hr
    simp only [State.drainFrom, hr', run_ok_bind]
    cases ha : r.accepted with
    | none => exact ⟨_, rfl⟩
    | some e =>
      obtain ⟨start, total⟩ := e
      obtain ⟨_, -, -, this⟩ := (scanFrom_ok (fun _ => True) (fun _ _ _ _ _ _ => trivial) (by omega) trivial hr).2.2.2.2 start total ha
      exact ih _ _ _ this.inside.2

/-- A drain reads the policy and the map, and nothing else of the state. -/
theorem drainFrom_policy {s s' : State} (h : SamePolicy s s') (acc : List Byte) (fuel cur : Nat)
    (out : List (List Byte)) (m : ReplayMap) : s.drainFrom acc fuel cur out m = s'.drainFrom acc fuel cur out m := by
  induction fuel generalizing cur out m with
  | zero => rfl
  | succ fuel ih => simp only [State.drainFrom, State.scanBuffer, scanFrom_policy h, ih]

/-! ### Sizes -/

/-- The grown capacity holds what it grew for, within RA_CAP_MAX, and never shrinks (R211). -/
theorem growCap_bounds {most cap required : Nat} (hcap : cap ≤ most) (hreq : required ≤ most) :
    required ≤ growCap most cap required ∧ growCap most cap required ≤ most ∧ cap ≤ growCap most cap required := by
  unfold growCap
  split <;> omega

/-- A forced resynchronisation discards at least the first byte, and no more than there is (R214). -/
theorem resyncDrop_bounds {acc : List Byte} (h : acc ≠ []) : 1 ≤ resyncDrop acc ∧ resyncDrop acc ≤ acc.length := by
  have hpos : 0 < acc.length := List.length_pos_iff.2 h
  unfold resyncDrop
  split
  · rename_i i hi
    have := List.findIdx?_eq_some_iff_findIdx_eq.1 hi
    simp only [List.length_drop] at this
    omega
  · omega

/-- A forced resynchronisation discards up to the first magic byte past offset 0 (R214). -/
theorem resyncDrop_first {acc : List Byte} {p : Nat} {m : Byte} (hp : 1 ≤ p) (hm : acc[p]? = some m) (hmag : isMagic m = true)
    (hno : ∀ (i : Nat) (x : Byte), 1 ≤ i → i < p → acc[i]? = some x → isMagic x = false) : resyncDrop acc = p := by
  have hlt : p < acc.length := (List.getElem?_eq_some_iff.1 hm).1
  have hfind : (acc.drop 1).findIdx? isMagic = some (p - 1) := by
    rw [List.findIdx?_eq_some_iff_getElem]
    refine ⟨by simp; omega, ?_, fun j hj => ?_⟩
    · have hm' : (acc.drop 1)[p - 1]? = some m := by rw [List.getElem?_drop, show 1 + (p - 1) = p by omega, hm]
      obtain ⟨h3, h4⟩ := List.getElem?_eq_some_iff.1 hm'
      rw [h4]; exact hmag
    · simpa using hno (j + 1) ((acc.drop 1)[j]'(by simp; omega)) (by omega) (by omega) (by simp)
  unfold resyncDrop
  rw [hfind]
  dsimp only
  omega

/-- A forced resynchronisation with no magic byte past offset 0 discards everything (R214). -/
theorem resyncDrop_all {acc : List Byte} (hno : ∀ (i : Nat) (x : Byte), 1 ≤ i → acc[i]? = some x → isMagic x = false) :
    resyncDrop acc = acc.length := by
  have hfind : (acc.drop 1).findIdx? isMagic = none := by
    rw [List.findIdx?_eq_none_iff]
    intro x hx
    obtain ⟨i, hi⟩ := List.getElem?_of_mem hx
    rw [List.getElem?_drop] at hi
    exact hno (1 + i) x (by omega) hi
  unfold resyncDrop
  rw [hfind]

/-- Compaction and resynchronisation together drop no more than there is (R213, R214). -/
theorem dropped_le {s : State} {acc : List Byte} {cur : Nat} (h : cur ≤ acc.length) : s.dropped acc cur ≤ acc.length := by
  unfold State.dropped State.discarded
  split
  · rename_i hc
    have hne : acc ≠ [] := by rintro rfl; simp at hc
    have := resyncDrop_bounds hne
    omega
  · omega

/-- After a resynchronisation ACC is empty or starts with a magic byte (R214, R218). -/
theorem resyncDrop_magic (acc : List Byte) : acc.drop (resyncDrop acc) = [] ∨ ∃ m rest, acc.drop (resyncDrop acc) = m :: rest ∧ isMagic m = true := by
  unfold resyncDrop
  split
  · rename_i i hi
    obtain ⟨hlt, hidx⟩ := List.findIdx?_eq_some_iff_findIdx_eq.1 hi
    have hmag : isMagic (acc.drop 1)[i] = true := by
      subst hidx; exact List.findIdx_getElem
    right
    have hlen : i + 1 < acc.length := by simp only [List.length_drop] at hlt; omega
    refine ⟨acc[i + 1], acc.drop (i + 2), List.drop_eq_getElem_cons hlen, ?_⟩
    simpa [Nat.add_comm] using hmag
  · left; simp

end Sys2Proof.Machine
end

