-- ==== Sys2Proof/Laws/Writer.lean ====
section
/-! SUPPORT. The Frame Writer: the lengths of what it writes, and what trimming keeps. -/

namespace Sys2Proof

/-- A version 1 header is 6 bytes (R81). -/
@[simp] theorem FrameV1.header_length (f : FrameV1) : f.header.length = 6 := rfl

/-- A version 2 header is 10 bytes (R82). -/
@[simp] theorem FrameV2.header_length (f : FrameV2) : f.header.length = 10 := by simp [FrameV2.header]

/-- A version 1 frame's length (R87). -/
@[simp] theorem FrameV1.bytes_length (f : FrameV1) : f.bytes.length = 6 + f.payload.length + 2 := by
  simp [FrameV1.bytes, Nat.add_assoc]

/-- A version 2 frame's length through its checksum (R87). -/
@[simp] theorem FrameV2.bytes_length (f : FrameV2) : f.bytes.length = 10 + f.payload.length + 2 := by
  simp [FrameV2.bytes, Nat.add_assoc]

/-- The trailer's length but for its hash (R84). -/
@[simp] theorem Trailer.bytes_length (t : Trailer) : t.bytes.length = 7 + t.hash.length := by
  simp [Trailer.bytes, Trailer.covered]; omega

namespace Machine

/-- SHA-256's digest is 32 bytes. -/
theorem Sha256.digest_length (m : List Byte) : (Sha256.digest m).length = 32 := by
  simp [Sha256.digest, Sha256.beBytes]

/-- KEYED_HASH gives 32 bytes (R5). -/
@[simp] theorem State.keyedHash_length (s : State) (key msg : List Byte) : (s.keyedHash key msg).length = 32 := by
  unfold State.keyedHash
  split
  · simp
  · exact Sha256.digest_length _

/-- The truncated digest is 6 bytes (R84, R91). -/
@[simp] theorem State.mac_length (s : State) (key msg : List Byte) : (s.mac key msg).length = 6 := by
  simp [State.mac]

/-- Everything trimming does (R161): it keeps at least the v1-defined part, drops only zero bytes, and stops at the
v1-defined length or at a byte that is not zero. -/
theorem trimLen_spec (payload : List Byte) (v1Len n : Nat) :
    trimLen payload v1Len n ≤ n ∧ min n v1Len ≤ trimLen payload v1Len n ∧
      (∀ i, trimLen payload v1Len n ≤ i → i < n → payload[i]? = some 0#8) ∧
      (trimLen payload v1Len n ≤ v1Len ∨ payload[trimLen payload v1Len n - 1]? ≠ some 0#8) := by
  induction n with
  | zero => simp [trimLen]
  | succ n ih =>
    by_cases h : v1Len < n + 1 ∧ payload[n]? = some 0#8
    · rw [trimLen, if_pos h]
      obtain ⟨h1, h2, h3, h4⟩ := ih
      refine ⟨by omega, by omega, fun i hi1 hi2 => ?_, h4⟩
      by_cases hin : i = n
      · rw [hin]; exact h.2
      · exact h3 i hi1 (by omega)
    · rw [trimLen, if_neg h]
      refine ⟨Nat.le_refl _, Nat.min_le_left _ _, fun i h1 h2 => absurd h2 (by omega), ?_⟩
      by_cases hv : v1Len < n + 1
      · right; rw [Nat.add_sub_cancel]; exact fun hp => h ⟨hv, hp⟩
      · left; omega

/-- The written frame's length is the total PACK_V2 checks (R87, R164). -/
theorem State.packBytes_length {s : State} {payload bytes : List Byte} (h : s.packBytes payload = .ok bytes) :
    bytes.length = s.packTotal payload.length := by
  unfold State.packBytes at h
  unfold State.packTotal
  by_cases hk : s.opKeyLen = 0#8
  · simp only [hk, if_true, Except.ok.injEq] at h ⊢
    subst h
    simp [FrameV2.withChecksum]
  · simp only [hk, if_false, run_bind_ok] at h ⊢
    obtain ⟨key, -, h⟩ := h
    cases h
    simp [FrameV2.withChecksum, State.signTrailer]

/-- The writer's frame raises no error code once its checks are passed (R164). -/
theorem State.packBytes_ne_raise (s : State) (payload : List Byte) (c : ErrCode) :
    s.packBytes payload ≠ .error (.raise c) := by
  unfold State.packBytes
  split
  · simp
  · simp only [ne_eq, run_bind_error, State.readOpKey]
    rintro (h | ⟨k, -, h⟩)
    · exact readKey_ne_raise _ _ _ _ _ h
    · exact nomatch h

end Machine

end Sys2Proof
end

