-- ==== Sys2Proof/Laws/Frames.lean ====
section
/-! SUPPORT. Frames as their bytes: what the Frame View, the Scanner and the Writer read and write of them. -/

namespace Sys2Proof.Machine

/-- Bytes held one list after the other. -/
theorem State.holds_append {s : State} {a : Nat} {L M : List Byte} : s.holds a (L ++ M) ↔ s.holds a L ∧ s.holds (a + L.length) M := by
  constructor
  · intro h
    refine ⟨fun i hi => ?_, fun i hi => ?_⟩
    · rw [h i (by simp; omega), List.getElem?_append_left hi]
    · rw [Nat.add_assoc, h (L.length + i) (by simp; omega), List.getElem?_append_right (by omega)]; congr 1; omega
  · rintro ⟨h1, h2⟩ i hi
    by_cases hl : i < L.length
    · rw [h1 i hl, List.getElem?_append_left hl]
    · have := h2 (i - L.length) (by simp at hi; omega)
      rw [show a + i = a + L.length + (i - L.length) by omega, this, List.getElem?_append_right (by omega)]

/-- Held bytes are read, by their number. -/
theorem readBytes_at {b : Buffer} {a n : Nat} {L : List Byte} (hl : L.length = n) (h : ∀ i, i < L.length → b (a + i) = L[i]?) : readBytes b a n = .ok L := by
  subst hl; exact readBytes_holds h

/-- A payload length fits its byte (R81). -/
theorem ofNat8_toNat {n : Nat} (h : n ≤ 255) : (BitVec.ofNat 8 n : Byte).toNat = n := by
  simp only [BitVec.toNat_ofNat]; omega

/-- Comparing byte lists. -/
theorem list_beq_eq_decide (a b : List Byte) : (a == b) = decide (a = b) := by
  by_cases h : a = b <;> simp [h]

/-- A boolean result (R42). -/
theorem boolWord_decide (p : Prop) [Decidable p] : boolWord (decide p) = if p then 1#32 else 0#32 := by
  by_cases h : p <;> simp [h, boolWord]

/-- The header view of a version 1 frame (R81, R85). -/
def FrameV1.view (f : FrameV1) : Header := ⟨.v1, BitVec.ofNat 8 f.payload.length, 0#8, 0#8, f.sequence, f.systemId, f.componentId, f.messageId.setWidth 24⟩

/-- The header view of a version 2 frame (R82, R85). -/
def FrameV2.view (f : FrameV2) : Header := ⟨.v2, BitVec.ofNat 8 f.payload.length, f.incompat, f.compat, f.sequence, f.systemId, f.componentId, f.messageId⟩

/-- Three bytes and the 24-bit number they are (R89). -/
theorem leBytes_three (x : BitVec 24) : ∃ a b c : Byte, leBytes 3 x.toNat = [a, b, c] ∧ (c ++ b ++ a : BitVec 24) = x := by
  refine ⟨_, _, _, rfl, ?_⟩
  apply BitVec.eq_of_toNat_eq
  have h1 := BitVec.toNat_append (BitVec.ofNat 8 (x.toNat / 256 / 256)) (BitVec.ofNat 8 (x.toNat / 256))
  have h2 := BitVec.toNat_append (BitVec.ofNat 8 (x.toNat / 256 / 256) ++ BitVec.ofNat 8 (x.toNat / 256)) (BitVec.ofNat 8 x.toNat)
  refine h2.trans ?_
  rw [h1]
  have hx := x.isLt
  simp only [BitVec.toNat_ofNat]
  rw [← Nat.shiftLeft_add_eq_or_of_lt (by omega), ← Nat.shiftLeft_add_eq_or_of_lt (by omega)]
  simp only [Nat.shiftLeft_eq]
  omega

/-- A version 1 header, held, is decoded (R140). -/
theorem decodeHeader_frameV1 {b : Buffer} {st lim : Nat} {f : FrameV1} (h : st + 6 ≤ lim) (hh : ∀ i, i < f.header.length → b (st + i) = f.header[i]?) :
   decodeHeader b st lim = .ok (FrameV1.view f) := decodeHeader_holds (v := .v1) (by rfl) rfl h hh

/-- A version 2 header, held, is decoded (R140). -/
theorem decodeHeader_frameV2 {b : Buffer} {st lim : Nat} {f : FrameV2} (h : st + 10 ≤ lim) (hh : ∀ i, i < f.header.length → b (st + i) = f.header[i]?) :
   decodeHeader b st lim = .ok (FrameV2.view f) := by
  obtain ⟨m0, m1, m2, e, e'⟩ := leBytes_three f.messageId
  have hd : f.header = 0xFD#8 :: [BitVec.ofNat 8 f.payload.length, f.incompat, f.compat, f.sequence, f.systemId, f.componentId, m0, m1, m2] := by
    simp [FrameV2.header, e, magicV2]
  rw [hd] at hh
  rw [decodeHeader_holds (v := .v2) (by rfl) rfl h hh]
  simp only [headerFields, headerV2, FrameV2.view, ← e']
  rfl

/-- N of a well-formed version 1 frame. -/
theorem FrameV1.view_n {f : FrameV1} (h : f.wf = true) : (FrameV1.view f).n = f.payload.length := ofNat8_toNat (by simpa [FrameV1.wf] using h)

/-- N of a well-formed version 2 frame. -/
theorem FrameV2.view_n {f : FrameV2} (h : f.wf = true) : (FrameV2.view f).n = f.payload.length := ofNat8_toNat (by simpa [FrameV2.wf] using h)

/-- No version 1 frame is signed (R86). -/
theorem FrameV1.view_signed (f : FrameV1) : (FrameV1.view f).signed = false := rfl

/-- The signed bit of a version 2 frame (R86). -/
theorem FrameV2.view_signed (f : FrameV2) : (FrameV2.view f).signed = f.signedBit := rfl

/-- Version 1 header length. -/
theorem FrameV1.view_headerLen (f : FrameV1) : (FrameV1.view f).headerLen = 6 := rfl

/-- Version 2 header length. -/
theorem FrameV2.view_headerLen (f : FrameV2) : (FrameV2.view f).headerLen = 10 := rfl

/-- The total length of a version 1 frame (R87). -/
theorem FrameV1.view_totalLen {f : FrameV1} (h : f.wf = true) : (FrameV1.view f).totalLen = 8 + f.payload.length := by
  simp only [Header.totalLen, Header.throughChecksum, FrameV1.view_signed, FrameV1.view_headerLen, FrameV1.view_n h]; simp; omega

/-- The total length of a version 2 frame (R87). -/
theorem FrameV2.view_totalLen {f : FrameV2} (h : f.wf = true) : (FrameV2.view f).totalLen = 12 + f.payload.length + (if f.signedBit then 13 else 0) := by
  simp only [Header.totalLen, Header.throughChecksum, FrameV2.view_signed, FrameV2.view_headerLen, FrameV2.view_n h]
  rw [show 10 + f.payload.length + 2 = 12 + f.payload.length by omega]; rfl

/-- The length through the checksum, version 1 (R91). -/
theorem FrameV1.view_throughChecksum {f : FrameV1} (h : f.wf = true) : (FrameV1.view f).throughChecksum = 8 + f.payload.length := by
  simp only [Header.throughChecksum, FrameV1.view_headerLen, FrameV1.view_n h]; omega

/-- The length through the checksum, version 2 (R91). -/
theorem FrameV2.view_throughChecksum {f : FrameV2} (h : f.wf = true) : (FrameV2.view f).throughChecksum = 12 + f.payload.length := by
  simp only [Header.throughChecksum, FrameV2.view_headerLen, FrameV2.view_n h]; omega

/-- The two checksums of held bytes (R90, R143). -/
theorem checksums_of_bytes {b : Buffer} {st : Nat} {h : Header} {head pay chk : List Byte} (e : Byte) (hh : head.length = h.headerLen) (hp : pay.length = h.n)
   (h1 : 1 ≤ head.length)
   (hc : chk.length = 2) (hb : ∀ i, i < (head ++ pay ++ chk).length → b (st + i) = (head ++ pay ++ chk)[i]?) :
   computedChecksum b st h e = .ok (checksum (head.drop 1 ++ pay) e) ∧ storedChecksum b st h = .ok (BitVec.ofNat 16 (fromLE chk)) := by
  constructor
  · unfold computedChecksum
    rw [readBytes_at (L := head.drop 1 ++ pay)]
    · rfl
    · simp [hh, hp]
    · intro i hi
      rw [Nat.add_assoc, hb (1 + i) (by simp at hi ⊢; omega)]
      rw [List.getElem?_append_left (by simp at hi ⊢; omega)]
      have : head.drop 1 ++ pay = (head ++ pay).drop 1 := by rw [List.drop_append_of_le_length h1]
      rw [this, List.getElem?_drop]
  · unfold storedChecksum
    rw [readBytes_at (L := chk) hc]
    · rfl
    · intro i hi
      rw [← hh, ← hp, Nat.add_assoc, Nat.add_assoc, hb _ (by simp; omega), List.getElem?_append_right (by simp)]
      congr 1; simp; omega

/-- The trailer of held bytes and the comparison of its hash (R147, R149). -/
theorem signature_of_bytes (s : State) {b : Buffer} {st : Nat} {h : Header} {pre : List Byte} {t : Trailer} (key : List Byte)
   (hp : pre.length = h.throughChecksum) (ht : t.hash.length = 6)
   (hb : ∀ i, i < (pre ++ t.bytes).length → b (st + i) = (pre ++ t.bytes)[i]?) :
   sigLinkId b st h = .ok t.linkId ∧ sigTimestamp b st h = .ok t.timestamp ∧
     validateSignature s b st h key = .ok (s.mac key (pre ++ t.covered) == t.hash) := by
  have hbt : ∀ j, j < t.bytes.length → b (st + h.throughChecksum + j) = t.bytes[j]? := by
    intro j hj
    rw [← hp, Nat.add_assoc, hb _ (by simp at hj ⊢; omega), List.getElem?_append_right (by omega)]
    congr 1; omega
  have e : t.bytes = t.linkId :: (leBytes 6 t.timestamp.toNat ++ t.hash) := by simp [Trailer.bytes, Trailer.covered]
  have hl : sigLinkId b st h = .ok t.linkId := by
    apply readByte_some
    have := hbt 0 (by simp)
    rw [Nat.add_zero] at this
    rw [this, e]; rfl
  have hbt2 : ∀ j, j < (leBytes 6 t.timestamp.toNat ++ t.hash).length → b (st + h.throughChecksum + 1 + j) = (leBytes 6 t.timestamp.toNat ++ t.hash)[j]? := by
    intro j hj
    have := hbt (1 + j) (by rw [e]; simp at hj ⊢; omega)
    rw [← Nat.add_assoc] at this
    rw [this, e, Nat.add_comm 1 j]; rfl
  have hts0 : readBytes b (st + h.throughChecksum + 1) 6 = .ok (leBytes 6 t.timestamp.toNat) :=
    readBytes_at (by simp) (fun i hi => by rw [hbt2 i (by simp at hi ⊢; omega), List.getElem?_append_left hi])
  have hts : sigTimestamp b st h = .ok t.timestamp := by
    unfold sigTimestamp
    rw [hts0, run_ok_bind, ofNat48_leBytes]
  refine ⟨hl, hts, ?_⟩
  have hpre : readBytes b st h.throughChecksum = .ok pre := readBytes_at hp (fun i hi => by
    rw [hb i (by simp; omega), List.getElem?_append_left hi])
  have hh : readBytes b (st + h.throughChecksum + 7) 6 = .ok t.hash := readBytes_at ht (fun i hi => by
    have := hbt2 (6 + i) (by simp; omega)
    rw [show st + h.throughChecksum + 7 + i = st + h.throughChecksum + 1 + (6 + i) by omega, this, List.getElem?_append_right (by simp)]
    congr 1; simp)
  unfold validateSignature
  rw [hpre, run_ok_bind, hl, run_ok_bind, hts, run_ok_bind, hh, run_ok_bind]
  simp [Trailer.covered]

/-- The signature condition of held bytes under a held receive key (R185). -/
theorem signaturePasses_of_bytes {s : State} {b : Buffer} {c : Nat} {h : Header} {key frame hash : List Byte} (hsg : h.signed = true) (hk : s.rxKeyIs key) (hne : key ≠ [])
   (hfl : frame.length = h.totalLen - 6) (hhl : hash.length = 6) (hb : ∀ i, i < frame.length + hash.length → b (c + i) = (frame ++ hash)[i]?)
   (h2 : s.requireSignature = true) :
   s.signaturePasses b c h = .ok (decide ((s.keyedHash key frame).take 6 = hash)) := by
    have hz : s.rxKeyLen ≠ 0#8 := by
      intro hz; have := hk.1; rw [hz] at this; exact hne (List.length_eq_zero_iff.1 this.symm)
    have htot : h.totalLen = h.throughChecksum + 13 := by unfold Header.totalLen; rw [hsg]; rfl
    obtain ⟨ll, tsb, hfr, htsl⟩ : ∃ (ll : Byte) (tsb : List Byte), frame = frame.take h.throughChecksum ++ ll :: tsb ∧ tsb.length = 6 := by
      have hd : (frame.drop h.throughChecksum).length = 7 := by rw [List.length_drop]; omega
      match hdd : frame.drop h.throughChecksum, hd with
      | x :: l, hd => exact ⟨x, l, by rw [← hdd, List.take_append_drop], by simpa using hd⟩
    let T : Trailer := ⟨ll, BitVec.ofNat 48 (fromLE tsb), hash⟩
    have hcov : T.covered = ll :: tsb := by unfold Trailer.covered; rw [leBytes_ofNat48 htsl]
    have hpl : (frame.take h.throughChecksum).length = h.throughChecksum := by rw [List.length_take]; omega
    have hall : frame.take h.throughChecksum ++ T.bytes = frame ++ hash := by
      unfold Trailer.bytes; rw [hcov, ← List.append_assoc, ← hfr]
    obtain ⟨-, -, hval⟩ := signature_of_bytes s (b := b) (st := c) (h := h) (pre := frame.take h.throughChecksum) (t := T) key hpl hhl (by
      rw [hall]; intro i hi; exact hb i (by simpa using hi))
    unfold State.signaturePasses
    rw [if_pos (by simp [hsg, h2]), if_neg hz, State.readRxKey_is hk, run_ok_bind, hval, hcov, ← hfr, list_beq_eq_decide]; rfl

/-! ### Packed frames -/

/-- The frame PACK_V1 writes (R163). -/
def State.packedV1 (s : State) (p : List Byte) : FrameV1 := FrameV1.withChecksum
      ⟨s.packSequence, s.packSystemId, s.packComponentId, s.packMessageId.setWidth 8, p, 0#16⟩ s.packCrcExtra

/-- The frame PACK_V2 writes, a trailer apart (R164). -/
def State.packedV2 (s : State) (p : List Byte) : FrameV2 := FrameV2.withChecksum
    ⟨s.packFlags, s.packCompat, s.packSequence, s.packSystemId, s.packComponentId, s.packMessageId, p, 0#16⟩
    s.packCrcExtra

/-- Everything the bytes of PACK_V2 can be (R160, R162, R164). -/
theorem State.packBytes_cases {s : State} {p b : List Byte} (h : s.packBytes p = .ok b) :
   (s.opKeyLen = 0#8 ∧ b = (State.packedV2 s p).bytes) ∨ (s.opKeyLen ≠ 0#8 ∧ ∃ key, s.readOpKey = .ok key ∧
     b = (State.packedV2 s p).bytes ++ (s.signTrailer (State.packedV2 s p).bytes key s.packLinkId s.packTimestamp).bytes) := by
  unfold State.packBytes at h
  dsimp only at h
  split at h
  · cases h; left; exact ⟨‹_›, rfl⟩
  · simp only [run_bind_ok] at h
    obtain ⟨key, hk, h⟩ := h
    cases h; right; exact ⟨‹_›, key, hk, rfl⟩

/-- The checksum of R160 on a header and a payload. -/
theorem sealChecksum_eq (a b : List Byte) (e : Byte) (h : 1 ≤ a.length) : sealChecksum a b e = checksum (a.drop 1 ++ b) e := by
  unfold sealChecksum; rw [List.drop_append_of_le_length h]

/-- A packed frame is signed exactly when a key is present (R164). -/
theorem State.packedV2_signed {s : State} {p : List Byte} (h : ¬ (s.packIncompat.getLsbD 0 = true ∧ s.opKeyLen = 0#8)) :
   (State.packedV2 s p).signedBit = true ↔ s.opKeyLen ≠ 0#8 := by
  show (s.packFlags.getLsbD 0) = true ↔ _
  unfold State.packFlags
  by_cases hk : s.opKeyLen = 0#8
  · simp [hk]
    simpa [hk] using h
  · simp [hk]

/-- No packed frame is longer than MAX_FRAME (R93). -/
theorem State.packTotal_le {s : State} {n : Nat} (h : n ≤ 255) : s.packTotal n ≤ 280 := by
  unfold State.packTotal; split <;> omega

/-- A number below 2^32 survives a result register. -/
theorem natWord_toNat {n : Nat} (h : n < 2 ^ 32) : (natWord n).toNat = n := by simp [natWord]; omega

/-! ### Scanning frames -/

/-- A whole candidate in lenient mode is accepted (R191). -/
theorem scanFrom_lenient {s : State} {b : Buffer} {stop c fuel rj : Nat} {m : ReplayMap} {h : Header} (hs : s.strict = false)
   (hd : decodeHeader b c stop = .ok h) (hl : c + h.totalLen ≤ stop) :
   s.scanFrom b stop (fuel + 1) c rj m = .ok ⟨some (c, h.totalLen), rj, m⟩ := by
  obtain ⟨h1, ⟨x, hx, hv⟩, -⟩ := decodeHeader_ok hd
  simp only [State.scanFrom, readByte_some hx, run_ok_bind, hv]
  rw [if_neg (by have : h.headerLen = h.version.headerLen := rfl; omega), hd, run_ok_bind, if_neg (by omega), if_pos hs]

/-- A whole candidate at the cursor in lenient mode is accepted (R191). -/
theorem scanBuffer_lenient {s : State} {b : Buffer} {stop c : Nat} {m : ReplayMap} {h : Header} (hs : s.strict = false)
   (hd : decodeHeader b c stop = .ok h) (hl : c + h.totalLen ≤ stop) :
   s.scanBuffer b c stop m = .ok ⟨some (c, h.totalLen), 0, m⟩ := by
  have := (h.totalLen_bounds).1
  unfold State.scanBuffer
  obtain ⟨k, hk⟩ : ∃ k, stop - c = k + 1 := ⟨stop - c - 1, by omega⟩
  rw [hk]; exact scanFrom_lenient hs hd hl

/-- The rejects counted so far only add up (R181). -/
theorem scanFrom_acc {s : State} {b : Buffer} {stop : Nat} : ∀ (fuel c rj : Nat) (m : ReplayMap) (r : Scan),
   s.scanFrom b stop fuel c 0 m = .ok r → s.scanFrom b stop fuel c rj m = .ok ⟨r.accepted, r.rejects + rj, r.map⟩ := by
  suffices H : ∀ (fuel c r0 rj : Nat) (m : ReplayMap) (r : Scan),
   s.scanFrom b stop fuel c r0 m = .ok r → s.scanFrom b stop fuel c (r0 + rj) m = .ok ⟨r.accepted, r.rejects + rj, r.map⟩ by
    intro fuel c rj m r h
    have := H fuel c 0 rj m r h
    rwa [Nat.zero_add] at this
  intro fuel
  induction fuel with
  | zero => intro c r0 rj m r h; cases h; rfl
  | succ fuel ih =>
    intro c r0 rj m r h
    simp only [State.scanFrom, run_bind_ok] at h ⊢
    obtain ⟨x, hx, h⟩ := h
    refine ⟨x, hx, ?_⟩
    cases hv : versionOf x with
    | none => rw [hv] at h; exact ih _ _ _ _ _ h
    | some v =>
      rw [hv] at h
      simp only at h ⊢
      split at h
      · rw [if_pos ‹_›]; cases h; rfl
      · rw [if_neg ‹_›]
        simp only [run_bind_ok] at h ⊢
        obtain ⟨hd, hdd, h⟩ := h
        refine ⟨hd, hdd, ?_⟩
        split at h
        · rw [if_pos ‹_›]; cases h; rfl
        · rw [if_neg ‹_›]
          split at h
          · rw [if_pos ‹_›]; cases h; rfl
          · rw [if_neg ‹_›]
            simp only [run_bind_ok] at h ⊢
            obtain ⟨q, hq, h⟩ := h
            refine ⟨q, hq, ?_⟩
            cases hverd : q.1 with
            | accept => rw [hverd] at h; cases h; rfl
            | reject =>
              rw [hverd] at h
              have := ih _ _ rj _ _ h
              rwa [show r0 + 1 + rj = r0 + rj + 1 by omega] at this

/-- A whole candidate at the cursor in strict mode (R181 steps 7 and 8). -/
theorem scanBuffer_strict {s : State} {b : Buffer} {start stop : Nat} {m m' : ReplayMap} {h : Header} {v : Verdict} (hst : s.strict = true)
    (hd : decodeHeader b start stop = .ok h) (hl : start + h.totalLen ≤ stop) (hso : s.strictOk b start h m = .ok (v, m')) :
    (v = .accept → s.scanBuffer b start stop m = .ok ⟨some (start, h.totalLen), 0, m'⟩) ∧
    (v = .reject → ∀ r, s.scanBuffer b (start + 1) stop m' = .ok r →
      s.scanBuffer b start stop m = .ok ⟨r.accepted, r.rejects + 1, r.map⟩) := by
  have h8 := h.totalLen_bounds.1
  obtain ⟨h1, ⟨x, hx, hv⟩, -⟩ := decodeHeader_ok hd
  obtain ⟨k, hk⟩ : ∃ k, stop - start = k + 1 := ⟨stop - start - 1, by omega⟩
  have hh : h.headerLen = h.version.headerLen := rfl
  constructor
  · intro hvv
    subst hvv
    unfold State.scanBuffer
    rw [hk, State.scanFrom, readByte_some hx, run_ok_bind, hv]
    dsimp only
    rw [if_neg (by omega), hd, run_ok_bind, if_neg (by omega), if_neg (by rw [hst]; decide), hso, run_ok_bind]
  · intro hvv r hr
    subst hvv
    unfold State.scanBuffer at hr ⊢
    rw [hk, State.scanFrom, readByte_some hx, run_ok_bind, hv]
    dsimp only
    rw [if_neg (by omega), hd, run_ok_bind, if_neg (by omega), if_neg (by rw [hst]; decide), hso, run_ok_bind]
    dsimp only
    rw [show stop - (start + 1) = k by omega] at hr
    exact scanFrom_acc _ _ 1 _ _ hr

/-- A byte that is no magic (R80). -/
theorem versionOf_none {b : Byte} (h1 : b ≠ 0xFE#8) (h2 : b ≠ 0xFD#8) : versionOf b = none := by
  unfold versionOf magicV1 magicV2; simp [h1, h2]

/-- Bytes that are no magic are passed over (R181 step 1). -/
theorem scanFrom_noise {s : State} {b : Buffer} {stop : Nat} : ∀ (noise : List Byte) (c fuel rj : Nat) (m : ReplayMap),
   (∀ i, i < noise.length → b (c + i) = noise[i]?) → (∀ x ∈ noise, x ≠ 0xFE#8 ∧ x ≠ 0xFD#8) → 
   s.scanFrom b stop (noise.length + fuel) c rj m = s.scanFrom b stop fuel (c + noise.length) rj m := by
  intro noise
  induction noise with
  | nil => intro c fuel rj m _ _; simp
  | cons x l ih =>
    intro c fuel rj m h hn
    have h0 : b c = some x := by simpa using h 0 (by simp)
    have hx := hn x (by simp)
    rw [show (x :: l).length + fuel = (l.length + fuel) + 1 by simp; omega, State.scanFrom, readByte_some h0, run_ok_bind, versionOf_none hx.1 hx.2]
    dsimp only
    rw [ih (c + 1) fuel rj m (fun i hi => by
      have := h (i + 1) (by simpa using hi); rw [show c + 1 + i = c + (i + 1) by omega, this]; simp) (fun y hy => hn y (by simp [hy]))]
    congr 1; simp; omega

/-- A scan from before such bytes is the scan from after them. -/
theorem scan_from_noise {s : State} {b : Buffer} {noise : List Byte} {c stop : Nat} {m : ReplayMap} {r : Scan}
   (h : ∀ i, i < noise.length → b (c + i) = noise[i]?) (hn : ∀ x ∈ noise, x ≠ 0xFE#8 ∧ x ≠ 0xFD#8) (hl : c + noise.length ≤ stop)
   (hr : s.scanBuffer b (c + noise.length) stop m = .ok r) : s.scanBuffer b c stop m = .ok r := by
  unfold State.scanBuffer at hr ⊢
  rw [show stop - c = noise.length + (stop - (c + noise.length)) by omega, scanFrom_noise noise _ _ _ _ h hn]
  exact hr

/-- A header that runs past the end stops the scan (R181 step 2). -/
theorem scanBuffer_cutHeader {s : State} {b : Buffer} {c stop : Nat} {m : ReplayMap} {x : Byte} {v : Version} (hx : b c = some x) (hv : versionOf x = some v)
   (h1 : c < stop) (h2 : stop < c + v.headerLen) : s.scanBuffer b c stop m = .ok ⟨none, 0, m⟩ := by
  unfold State.scanBuffer
  obtain ⟨k, hk⟩ : ∃ k, stop - c = k + 1 := ⟨stop - c - 1, by omega⟩
  rw [hk, State.scanFrom, readByte_some hx, run_ok_bind, hv]
  dsimp only
  rw [if_pos (by omega)]

/-- A frame that runs past the end stops the scan (R181 step 4). -/
theorem scanBuffer_cutFrame {s : State} {b : Buffer} {c stop : Nat} {m : ReplayMap} {h : Header} (hd : decodeHeader b c stop = .ok h) 
   (h1 : c + h.headerLen ≤ stop) (h2 : stop < c + h.totalLen) : s.scanBuffer b c stop m = .ok ⟨none, 0, m⟩ := by
  unfold State.scanBuffer
  obtain ⟨_, ⟨x, hx, hv⟩, -⟩ := decodeHeader_ok hd
  have hb := headerLen_bounds h.version
  have hh : h.headerLen = h.version.headerLen := rfl
  obtain ⟨k, hk⟩ : ∃ k, stop - c = k + 1 := ⟨stop - c - 1, by omega⟩
  rw [hk, State.scanFrom, readByte_some hx, run_ok_bind, hv]
  dsimp only
  rw [if_neg (by omega), hd, run_ok_bind, if_pos (by omega)]

/-- A scan of nothing finds nothing (R181). -/
theorem scanBuffer_end (s : State) (b : Buffer) (c : Nat) (m : ReplayMap) : s.scanBuffer b c c m = .ok ⟨none, 0, m⟩ := by
  unfold State.scanBuffer; rw [Nat.sub_self]; rfl

/-- The scan loop ends where a scan finds nothing (R212). -/
theorem drainFrom_none {s : State} {acc : List Byte} {fuel cur : Nat} {out : List (List Byte)} {m : ReplayMap} {r : Scan}
   (h : s.scanBuffer (accBuffer acc) cur acc.length m = .ok r) (hn : r.accepted = none) : s.drainFrom acc (fuel + 1) cur out m = .ok ⟨cur, out, r.map⟩ := by
  rw [State.drainFrom, h, run_ok_bind, hn]

/-- The scan loop goes on behind an accepted frame (R212). -/
theorem drainFrom_some {s : State} {acc : List Byte} {fuel cur st tot : Nat} {out : List (List Byte)} {m : ReplayMap} {r : Scan}
   (h : s.scanBuffer (accBuffer acc) cur acc.length m = .ok r) (hn : r.accepted = some (st, tot)) :
   s.drainFrom acc (fuel + 1) cur out m = s.drainFrom acc fuel (st + tot) (out ++ [slice acc st tot]) r.map := by
  rw [State.drainFrom, h, run_ok_bind, hn]

/-- Any well-formed frame: its view, its magic and its length, and that its held header is decoded. -/
theorem encode_view {i : Instr} (hw : i.wf = true) (ho : opcodeOf i = none) :
  ∃ (h : Header) (m : Byte), versionOf m = some h.version ∧ (encode i)[0]? = some m ∧ h.totalLen = (encode i).length ∧
    ∀ (b : Buffer) (st lim : Nat), st + h.headerLen ≤ lim → (∀ j, j < h.headerLen → b (st + j) = (encode i)[j]?) → decodeHeader b st lim = .ok h := by
  cases i with
  | frameV1 f =>
    refine ⟨FrameV1.view f, magicV1, rfl, rfl, ?_, fun b st lim hl hb => decodeHeader_frameV1 hl (fun j hj => ?_)⟩
    · rw [FrameV1.view_totalLen hw]; show _ = f.bytes.length; simp; omega
    · rw [hb j hj]; show f.bytes[j]? = _; rw [FrameV1.bytes, List.append_assoc, List.getElem?_append_left hj]
  | frameV2 f =>
    simp only [Instr.wf, Bool.and_eq_true, Bool.not_eq_true'] at hw
    refine ⟨FrameV2.view f, magicV2, rfl, rfl, ?_, fun b st lim hl hb => decodeHeader_frameV2 hl (fun j hj => ?_)⟩
    · rw [FrameV2.view_totalLen hw.1, hw.2]; show _ = f.bytes.length; simp; omega
    · rw [hb j (by simpa [FrameV2.view_headerLen] using hj)]; show f.bytes[j]? = _; rw [FrameV2.bytes, List.append_assoc, List.getElem?_append_left hj]
  | frameV2Signed f t =>
    simp only [Instr.wf, Bool.and_eq_true, Trailer.wf, decide_eq_true_eq] at hw
    refine ⟨FrameV2.view f, magicV2, rfl, rfl, ?_, fun b st lim hl hb => decodeHeader_frameV2 hl (fun j hj => ?_)⟩
    · rw [FrameV2.view_totalLen hw.1.1, hw.1.2]; show _ = (f.bytes ++ t.bytes).length; simp [hw.2]; omega
    · rw [hb j (by simpa [FrameV2.view_headerLen] using hj)]; show (f.bytes ++ t.bytes)[j]? = _
      rw [FrameV2.bytes, List.append_assoc, List.append_assoc, List.getElem?_append_left hj]
  | _ => cases ho

/-- Accepted spans rise and are disjoint (R195). -/
theorem Spans.pairwise {s : State} {acc : List Byte} {cur stop : Nat} {m m' : ReplayMap} {l : List Accepted}
    (h : Spans s acc cur m l stop m') :
    l.Pairwise (fun a b => a.start + a.total ≤ b.start ∧ a.after.grows b.before) ∧
      (∀ e ∈ l, cur ≤ e.start ∧ m.grows e.before ∧ e.after.grows m') ∧ m.grows m' := by
  induction h with
  | done cur hg _ => exact ⟨.nil, by simp, hg⟩
  | next hg _ ha hr ih =>
    have := ha.inside
    have hstep := ReplayMap.grows_trans hg ha.grown
    refine ⟨List.pairwise_cons.2 ⟨fun e he => ⟨(ih.2.1 e he).1, (ih.2.1 e he).2.1⟩, ih.1⟩, ?_,
      ReplayMap.grows_trans hstep ih.2.2⟩
    intro e he
    rcases List.mem_cons.1 he with rfl | he
    · exact ⟨this.1, hg, ih.2.2⟩
    · obtain ⟨h1, h2, h3⟩ := ih.2.1 e he
      exact ⟨by omega, ReplayMap.grows_trans hstep h2, h3⟩

/-- Accepted spans are frames of the buffer (R194). -/
theorem Spans.frames {s : State} {acc : List Byte} {cur stop : Nat} {m m' : ReplayMap} {l : List Accepted}
    (h : Spans s acc cur m l stop m') :
    ∀ e ∈ l, e.start + e.total ≤ acc.length ∧ ∃ h, decodeHeader (accBuffer acc) e.start acc.length = .ok h ∧
      e.total = h.totalLen ∧
      (s.strict = true → s.strictOk (accBuffer acc) e.start h e.before = .ok (.accept, e.after)) := by
  induction h with
  | done => simp
  | next hg _ ha hr ih =>
    intro e he
    rcases List.mem_cons.1 he with rfl | he
    · exact ⟨ha.inside.2, ha.frame⟩
    · exact ih e he

/-- The cursor is the end of the last accepted span (R212). -/
theorem Spans.last {s : State} {acc : List Byte} {cur stop : Nat} {m m' : ReplayMap} {l : List Accepted}
    (h : Spans s acc cur m l stop m') :
    stop = (match l.getLast? with | some e => e.start + e.total | none => cur) := by
  induction h with
  | done => rfl
  | @next cur stop rj m m' e l hg _ ha hr ih =>
    rw [ih]
    cases l with
    | nil => rfl
    | cons e l => simp [List.getLast?_cons]

/-- The place of a scan loop behind the frames `l`: the end of the last and the map it left, or where the loop began. -/
def loopAt (cur : Nat) (m : ReplayMap) (l : List Accepted) : Nat × ReplayMap :=
  match l.getLast? with
  | some p => (p.start + p.total, p.after)
  | none => (cur, m)

/-- Behind a first frame the loop goes on from that frame. -/
theorem loopAt_cons (cur : Nat) (m : ReplayMap) (e : Accepted) (l : List Accepted) :
    loopAt cur m (e :: l) = loopAt (e.start + e.total) e.after l := by
  cases l with
  | nil => rfl
  | cons p l => simp [loopAt, List.getLast?_cons]

/-- The scan loop is these scans: each finds the next accepted frame, and the last finds nothing (R212). -/
theorem Spans.scans {s : State} {acc : List Byte} {cur stop : Nat} {m m' : ReplayMap} {l : List Accepted}
    (h : Spans s acc cur m l stop m') : ∀ k, k ≤ l.length → ∃ rejects,
      s.scanBuffer (accBuffer acc) (loopAt cur m (l.take k)).1 acc.length (loopAt cur m (l.take k)).2 =
        .ok ⟨l[k]?.map (fun e => (e.start, e.total)), rejects, (l[k]?.map (fun e => e.after)).getD m'⟩ := by
  induction h with
  | done cur _ hs =>
    intro k hk
    obtain rfl : k = 0 := by simpa using hk
    exact ⟨_, by simpa [loopAt] using hs⟩
  | next _ hs _ _ ih =>
    intro k hk
    cases k with
    | zero => exact ⟨_, by simpa [loopAt] using hs⟩
    | succ k =>
      rw [List.take_succ_cons, loopAt_cons]
      exact ih k (by simpa using hk)

/-- Everything a scan loop from cursor 0 leaves (R212). -/
theorem State.drain_spans {s : State} {acc : List Byte} {d : Drain} (h : s.drain acc = .ok d) :
  ∃ l, Spans s acc 0 s.replayMap l d.cursor d.map ∧ d.records = l.map (fun e => slice acc e.start e.total) ∧ d.cursor ≤ acc.length ∧ (d.cursor = 0 ↔ d.records = []) := by
  obtain ⟨-, -, -, l, hl, hrec⟩ := drainFrom_ok (fun _ => True) (fun _ _ _ _ _ _ => trivial) (Nat.zero_le _) (by omega) trivial h
  rw [List.nil_append] at hrec
  refine ⟨l, hl, hrec, hl.bounds.2 (Nat.zero_le _), ?_⟩
  rw [hl.cursor_zero, hrec]; simp

end Sys2Proof.Machine
end

