-- ==== Sys2Proof/Laws/Commands.lean ====
section
/-! SUPPORT. What each command can do when it has a continuation, and when the two scanning commands have one. -/

namespace Sys2Proof.Machine

/-- CKSUM (R122). -/
theorem execCksum_next {s t : State} (h : exec .cksum s = .next t) :
   (∃ v, t = (s.setRes 0 v).setErr .ok) ∨ (∃ c, t = s.setErr c) := by
  simp only [exec, execCksum, finish_next, run_bind_ok] at h
  rcases h with ⟨u, ⟨_, -, _, -, h⟩, rfl⟩ | ⟨c, -, rfl⟩
  · cases h; exact .inl ⟨_, rfl⟩
  · exact .inr ⟨c, rfl⟩

/-- FV_DECODE (R142). -/
theorem execFvDecode_next {s t : State} (h : exec .fvDecode s = .next t) :
   (∃ v r, t = (s.setHeader v r).setErr .ok) ∨ (∃ c, t = s.setErr c) := by
  simp only [exec, execFvDecode, finish_next, run_bind_ok] at h
  rcases h with ⟨u, ⟨_, -, h⟩, rfl⟩ | ⟨c, -, rfl⟩
  · cases h; exact .inl ⟨_, _, rfl⟩
  · exact .inr ⟨c, rfl⟩

/-- FV_VALIDATE_CRC (R144). -/
theorem execFvValidateCrc_next {s t : State} (h : exec .fvValidateCrc s = .next t) :
   (∃ v w x, t = (((s.setRes 0 v).setRes 1 w).setRes 2 x).setErr .ok) ∨ (∃ c, t = s.setErr c) := by
  simp only [exec, execFvValidateCrc, finish_next, run_bind_ok] at h
  rcases h with ⟨u, ⟨_, -, _, -, _, -, _, -, h⟩, rfl⟩ | ⟨c, -, rfl⟩
  · cases h; exact .inl ⟨_, _, _, rfl⟩
  · exact .inr ⟨c, rfl⟩

/-- FV_HAS_SIG (R146). -/
theorem execFvHasSig_next {s t : State} (h : exec .fvHasSig s = .next t) :
   (∃ v, t = (s.setRes 0 v).setErr .ok) ∨ (∃ c, t = s.setErr c) := by
  simp only [exec, execFvHasSig, finish_next, run_bind_ok] at h
  rcases h with ⟨u, ⟨_, -, h⟩, rfl⟩ | ⟨c, -, rfl⟩
  · cases h; exact .inl ⟨_, rfl⟩
  · exact .inr ⟨c, rfl⟩

/-- FV_VALIDATE_SIG (R148). -/
theorem execFvValidateSig_next {s t : State} (h : exec .fvValidateSig s = .next t) :
   (∃ v, t = (s.setRes 0 v).setErr .ok) ∨ (∃ c, t = s.setErr c) := by
  simp only [exec, execFvValidateSig, finish_next, run_bind_ok] at h
  rcases h with ⟨u, ⟨_, -, _, -, h⟩, rfl⟩ | ⟨c, -, rfl⟩
  · split at h
    · cases h; exact .inl ⟨_, rfl⟩
    · simp only [run_bind_ok] at h
      obtain ⟨_, -, _, -, _, -, h⟩ := h
      cases h; exact .inl ⟨_, rfl⟩
  · exact .inr ⟨c, rfl⟩

/-- FV_SIG_TIMESTAMP (R150). -/
theorem execFvSigTimestamp_next {s t : State} (h : exec .fvSigTimestamp s = .next t) :
   (∃ v w, t = ((s.setRes 0 v).setRes 1 w).setErr .ok) ∨ (∃ c, t = s.setErr c) := by
  simp only [exec, execFvSigTimestamp, finish_next, run_bind_ok] at h
  rcases h with ⟨u, ⟨_, -, h⟩, rfl⟩ | ⟨c, -, rfl⟩
  · split at h
    · simp only [run_bind_ok] at h
      obtain ⟨_, -, _, -, h⟩ := h
      cases h; exact .inl ⟨_, _, rfl⟩
    · cases h; exact .inl ⟨_, _, rfl⟩
  · exact .inr ⟨c, rfl⟩

/-- FV_SIG_LINK_ID (R151). -/
theorem execFvSigLinkId_next {s t : State} (h : exec .fvSigLinkId s = .next t) :
   (∃ v, t = (s.setRes 0 v).setErr .ok) ∨ (∃ c, t = s.setErr c) := by
  simp only [exec, execFvSigLinkId, finish_next, run_bind_ok] at h
  rcases h with ⟨u, ⟨_, -, h⟩, rfl⟩ | ⟨c, -, rfl⟩
  · split at h
    · simp only [run_bind_ok] at h
      obtain ⟨_, -, _, -, h⟩ := h
      cases h; exact .inl ⟨_, rfl⟩
    · cases h; exact .inl ⟨_, rfl⟩
  · exact .inr ⟨c, rfl⟩

/-- RPL_GET (R135). -/
theorem execRplGet_next {s t : State} (h : exec .rplGet s = .next t) :
   (∃ v w x, t = (((s.setRes 0 v).setRes 1 w).setRes 2 x).setErr .ok) ∨ (∃ c, t = s.setErr c) := by
  simp only [exec, execRplGet, finish_next, run_bind_ok] at h
  rcases h with ⟨u, ⟨_, -, h⟩, rfl⟩ | ⟨c, -, rfl⟩
  · cases h; exact .inl ⟨_, _, _, rfl⟩
  · exact .inr ⟨c, rfl⟩

/-- A check that raised (R10). -/
theorem require_raise {p : Prop} [Decidable p] {c d : ErrCode} (h : require p c = .error (.raise d)) : ¬ p ∧ d = c := by
  unfold require at h; split at h <;> simp_all

/-- PACK_V1 (R163). -/
theorem execPackV1_next {s t : State} (h : exec .packV1 s = .next t) :
   (∃ bytes, bytes.length = 8 + s.packPayloadLen ∧ s.packPayloadLen ≤ 255 ∧ s.packDst + bytes.length ≤ s.params.memSize ∧
     (∃ payload, payload.length = s.packPayloadLen ∧ s.holds s.packSrc payload ∧ s.packMessageId.toNat ≤ 255 ∧ bytes = (FrameV1.withChecksum
      ⟨s.packSequence, s.packSystemId, s.packComponentId, s.packMessageId.setWidth 8, payload, 0#16⟩ s.packCrcExtra).bytes) ∧
     t = ((s.setFrameRam (s.frameRam.writeBytes s.packDst bytes)).setRes 0 (natWord bytes.length)).setErr .ok) ∨ (∃ c, c ≠ .ok ∧ t = s.setErr c) := by
  simp only [exec, execPackV1, finish_next, run_bind_ok, require_ok_iff, run_bind_error] at h
  rcases h with ⟨u, ⟨_, h1, _, h2, _, h3, _, h4, _, h5, payload, hp, h⟩, rfl⟩ | ⟨c, h, rfl⟩
  · cases h
    obtain ⟨hl, hi⟩ := readBytes_ok hp
    left
    refine ⟨_, ?_, h1, ?_, ⟨payload, hl, ?_, h2, rfl⟩, ?_⟩
    · simp [FrameV1.withChecksum, hl]; omega
    · simp [FrameV1.withChecksum, hl]; exact h5
    · intro i hi'; exact hi i (by omega)
    · congr 3
      simp [FrameV1.withChecksum, hl]
  · refine .inr ⟨c, ?_, rfl⟩
    rcases h with h | ⟨_, -, h | ⟨_, -, h | ⟨_, -, h | ⟨_, -, h | ⟨_, -, h | ⟨_, -, h⟩⟩⟩⟩⟩⟩
    case _ => unfold require at h; split at h <;> simp_all <;> (subst h; decide)
    case _ => unfold require at h; split at h <;> simp_all <;> (subst h; decide)
    case _ => unfold require at h; split at h <;> simp_all <;> (subst h; decide)
    case _ => unfold require at h; split at h <;> simp_all <;> (subst h; decide)
    case _ => unfold require at h; split at h <;> simp_all <;> (subst h; decide)
    case _ => exact absurd h (readBytes_ne_raise _ _ _ _)
    case _ => cases h

/-- PACK_V2 (R164). -/
theorem execPackV2_next {s t : State} (h : exec .packV2 s = .next t) :
   (∃ payload n bytes, payload.length = s.packPayloadLen ∧ s.packPayloadLen ≤ 255 ∧ s.opKeyLen.toNat ≤ s.params.keyMax ∧
     ¬ (s.packIncompat.getLsbD 0 = true ∧ s.opKeyLen = 0#8) ∧ s.holds s.packSrc payload ∧
     n = (if s.packTrim then trimLen payload s.packV1Len s.packPayloadLen else s.packPayloadLen) ∧
     s.packBytes (payload.take n) = .ok bytes ∧ n ≤ payload.length ∧
     bytes.length = s.packTotal n ∧ s.packDst + bytes.length ≤ s.params.memSize ∧
     t = (((s.setFrameRam (s.frameRam.writeBytes s.packDst bytes)).setRes 0 (natWord bytes.length)).setRes 1 (natWord n)).setErr .ok)
   ∨ (∃ c ∈ [ErrCode.outOfRange, .payloadTooLarge, .signedFlagWithoutKey, .dstTooSmall, .badKeyLen], t = s.setErr c) := by
  simp only [exec, execPackV2, finish_next, run_bind_ok, require_ok_iff, run_bind_error] at h
  rcases h with ⟨u, ⟨_, h1, _, h2, _, h3, _, h4, payload, hp, _, h5, _, h6, bytes, hb, h⟩, rfl⟩ | ⟨c, h, rfl⟩
  · cases h
    obtain ⟨hl, hi⟩ := readBytes_ok hp
    have hn : (if s.packTrim then trimLen payload s.packV1Len s.packPayloadLen else s.packPayloadLen) ≤ payload.length := by
      split
      · rw [hl]; exact (trimLen_spec payload s.packV1Len s.packPayloadLen).1
      · omega
    have hbl := State.packBytes_length hb
    rw [List.length_take, Nat.min_eq_left hn] at hbl
    left
    refine ⟨payload, _, bytes, hl, h1, h2, h3, fun i hi' => hi i (by omega), rfl, hb, hn, hbl, by rw [hbl]; exact h6, ?_⟩
    rw [hbl]
  · refine .inr ⟨c, ?_, rfl⟩
    rcases h with h | ⟨_, -, h | ⟨_, -, h | ⟨_, -, h | ⟨_, -, h | ⟨_, -, h | ⟨_, -, h | ⟨_, -, h | ⟨_, -, h⟩⟩⟩⟩⟩⟩⟩⟩
    case _ => rw [(require_raise h).2]; decide
    case _ => rw [(require_raise h).2]; decide
    case _ => rw [(require_raise h).2]; decide
    case _ => rw [(require_raise h).2]; decide
    case _ => exact absurd h (readBytes_ne_raise _ _ _ _)
    case _ => rw [(require_raise h).2]; decide
    case _ => rw [(require_raise h).2]; decide
    case _ => exact absurd h (State.packBytes_ne_raise _ _ _)
    case _ => cases h

/-- SCAN (R192). -/
theorem execScan_next {s t : State} (h : exec .scan s = .next t) :
   (∃ r, s.enable = true ∧ s.argNat 1 ≤ s.params.memSize ∧ s.argNat 0 ≤ s.argNat 1 ∧
      s.scanBuffer s.ram (s.argNat 0) (s.argNat 1) s.replayMap = .ok r ∧ t = (s.setScan r).setErr .ok)
   ∨ (∃ c ∈ [ErrCode.notEnabled, .outOfRange], t = s.setErr c ∧ (c = .notEnabled → s.enable = false)) := by
  simp only [exec, execScan, finish_next, run_bind_ok, require_ok_iff, run_bind_error] at h
  rcases h with ⟨u, ⟨_, h1, _, h2, r, hr, h⟩, rfl⟩ | ⟨c, h, rfl⟩
  · cases h
    exact .inl ⟨r, h1, h2.1, h2.2, hr, rfl⟩
  · refine .inr ⟨c, ?_⟩
    rcases h with h | ⟨_, -, h | ⟨_, h2, h | ⟨_, -, h⟩⟩⟩
    case _ => rw [(require_raise h).2]; simpa using (require_raise h).1
    case _ => rw [(require_raise h).2]; simp
    case _ => exact absurd h (scanFrom_ne_raise _ _ _ _ _ _ _ _ (by have := h2.2; omega))
    case _ => cases h

/-- A push of a chunk (R211 to R214). -/
theorem State.pushChunk_ok {s u : State} {chunk} (h : s.pushChunk chunk = .ok u) :
   ∃ d, s.drain (s.acc ++ chunk) = .ok d ∧ u = s.setDrain (s.acc ++ chunk) d := by
  simp only [State.pushChunk, run_bind_ok] at h
  obtain ⟨d, hd, h⟩ := h
  cases h; exact ⟨d, hd, rfl⟩

/-- A push of a chunk that fits raises no error code (R257). -/
theorem State.pushChunk_ne_raise (s : State) (chunk : List Byte) (e : ErrCode) : s.pushChunk chunk ≠ .error (.raise e) := by
  intro h
  simp only [State.pushChunk, run_bind_error] at h
  rcases h with h | ⟨_, -, h⟩
  · exact drainFrom_ne_raise _ _ _ _ _ _ _ (by omega) h
  · cases h

/-- RA_PUSH (R215). -/
theorem execRaPush_next {s t : State} (h : exec .raPush s = .next t) :
   (∃ chunk d, s.enable = true ∧ chunk.length = s.argNat 1 ∧ s.holds (s.argNat 0) chunk ∧ s.argNat 0 + s.argNat 1 ≤ s.params.memSize ∧
      s.acc.length + chunk.length ≤ s.params.raCapMax ∧ s.drain (s.acc ++ chunk) = .ok d ∧ t = (s.setDrain (s.acc ++ chunk) d).setErr .ok)
   ∨ (∃ c ∈ [ErrCode.notEnabled, .outOfRange, .raOverflow], t = s.setErr c ∧ (c = .notEnabled → s.enable = false)) := by
  simp only [exec, execRaPush, finish_next, run_bind_ok, require_ok_iff, run_bind_error] at h
  rcases h with ⟨u, ⟨_, h1, _, h2, _, h3, chunk, hc, h⟩, rfl⟩ | ⟨c, h, rfl⟩
  · obtain ⟨d, hd, rfl⟩ := State.pushChunk_ok h
    obtain ⟨hl, hi⟩ := readBytes_ok hc
    exact .inl ⟨chunk, d, h1, hl, fun i hi' => hi i (by omega), h2, by rw [hl]; exact h3, hd, rfl⟩
  · refine .inr ⟨c, ?_⟩
    rcases h with h | ⟨_, -, h | ⟨_, -, h | ⟨_, -, h | ⟨_, -, h⟩⟩⟩⟩
    case _ => rw [(require_raise h).2]; simpa using (require_raise h).1
    case _ => rw [(require_raise h).2]; simp
    case _ => rw [(require_raise h).2]; simp
    case _ => exact absurd h (readBytes_ne_raise _ _ _ _)
    case _ => exact absurd h (State.pushChunk_ne_raise _ _ _)

/-- A frame that arrives (R211; log 8). -/
theorem receive_next {s t : State} {chunk} (h : receive chunk s = .next t) :
   (∃ d, s.enable = true ∧ 
      s.acc.length + chunk.length ≤ s.params.raCapMax ∧ s.drain (s.acc ++ chunk) = .ok d ∧ t = (s.setDrain (s.acc ++ chunk) d).setErr .ok)
   ∨ (∃ c ∈ [ErrCode.notEnabled, .raOverflow], t = s.setErr c ∧ (c = .notEnabled → s.enable = false)) := by
  simp only [receive, finish_next, run_bind_ok, require_ok_iff, run_bind_error] at h
  rcases h with ⟨u, ⟨_, h1, _, h3, h⟩, rfl⟩ | ⟨c, h, rfl⟩
  · obtain ⟨d, hd, rfl⟩ := State.pushChunk_ok h
    exact .inl ⟨d, h1, h3, hd, rfl⟩
  · refine .inr ⟨c, ?_⟩
    rcases h with h | ⟨_, -, h | ⟨_, -, h⟩⟩
    case _ => rw [(require_raise h).2]; simpa using (require_raise h).1
    case _ => rw [(require_raise h).2]; simp
    case _ => exact absurd h (State.pushChunk_ne_raise _ _ _)

/-- What a push leaves, field by field (R213 to R215). -/
theorem State.setDrain_eq (s : State) (acc : List Byte) (d : Drain) :
   s.setDrain acc d = { s with res := #v[natWord d.records.length, natWord (acc.drop (s.dropped acc d.cursor)).length, natWord d.cursor, natWord (s.discarded acc d.cursor)], acc := acc.drop (s.dropped acc d.cursor), raCap := growCap s.params.raCapMax s.raCap acc.length, replayMap := d.map, frameOut := s.frameOut ++ d.records } := rfl

/-- A scan changes the results and the map (R192). -/
theorem State.setScan_eq (s : State) (r : Scan) :
   ∃ v, s.setScan r = { s with res := v, replayMap := r.map } := by
  unfold State.setScan; split <;> exact ⟨_, rfl⟩

/-- FV_DECODE changes the results (R142). -/
theorem State.setHeader_eq (s : State) (n : Nat) (h : Header) : ∃ v, s.setHeader n h = { s with res := v } := ⟨_, rfl⟩

/-- FV_DECODE of a decoded header (R142). -/
theorem fvDecode_eq {s : State} {h : Header} (hv : s.viewHeader = .ok h) :
   exec .fvDecode s = .next ((s.setHeader (s.argNat 0) h).setErr .ok) := by
  change finish s (s.viewHeader >>= fun h => .ok (s.setHeader (s.argNat 0) h)) = _
  rw [hv, run_ok_bind, finish_ok]

/-- SCAN of a range whose scan ends (R192). -/
theorem execScan_ok {s : State} {r : Scan} (he : s.enable = true) (h1 : s.argNat 1 ≤ s.params.memSize) (h2 : s.argNat 0 ≤ s.argNat 1)
  (hr : s.scanBuffer s.ram (s.argNat 0) (s.argNat 1) s.replayMap = .ok r) : exec .scan s = .next ((s.setScan r).setErr .ok) := by
  show execScan s = _
  unfold execScan
  rw [require_pos he, run_ok_bind, require_pos ⟨h1, h2⟩, run_ok_bind, hr, run_ok_bind, finish_ok]

/-- RA_PUSH of a chunk whose scan loop ends (R215). -/
theorem execRaPush_ok {s : State} {chunk : List Byte} {d : Drain} (he : s.enable = true) (hl : chunk.length = s.argNat 1) (hh : s.holds (s.argNat 0) chunk)
   (h1 : s.argNat 0 + s.argNat 1 ≤ s.params.memSize) (h2 : s.acc.length + chunk.length ≤ s.params.raCapMax) (hd : s.drain (s.acc ++ chunk) = .ok d) :
   exec .raPush s = .next ((s.setDrain (s.acc ++ chunk) d).setErr .ok) := by
  show execRaPush s = _
  unfold execRaPush
  rw [require_pos he, run_ok_bind, require_pos (show s.inMem _ _ from h1), run_ok_bind, require_pos (show s.raLen + _ ≤ _ by rw [← hl]; exact h2), run_ok_bind,
    show readBytes s.ram _ _ = _ from readBytes_at hl hh, run_ok_bind, State.pushChunk, hd, run_ok_bind, finish_ok]

/-- Every wire row is the arrival of its bytes (log 8). -/
theorem exec_frame {i : Instr} (ho : opcodeOf i = none) (s : State) : exec i s = receive (encode i) s := by
  cases i <;> first | rfl | cases ho

end Sys2Proof.Machine
end

