-- ==== Sys2Proof/Laws/PerInstr.lean ====
section
/-! SUPPORT. One lemma per row of the table: the length of an instruction's bytes. -/

namespace Sys2Proof.Laws.EncodedLength

/-- A well-formed instruction's length in bytes: 4 for a command word (R95), the total length of R87 for a frame, and
never more than MAX_FRAME (R93). -/
def Statement (i : Instr) : Prop :=
  i.wf = true →
    (encode i).length =
      (match i with
        | .frameV1 f => 6 + f.payload.length + 2
        | .frameV2 f => 10 + f.payload.length + 2
        | .frameV2Signed f _ => 10 + f.payload.length + 2 + 13
        | .cksum | .fvDecode | .fvValidateCrc | .fvHasSig | .fvValidateSig | .fvSigTimestamp | .fvSigLinkId => 4
        | .packV1 | .packV2 | .scan | .rplGet | .raPush | .raDrop => 4) ∧
    (encode i).length ≤ Config.maxFrame

theorem cksum : Statement .cksum := fun _ => by decide
theorem fvDecode : Statement .fvDecode := fun _ => by decide
theorem fvValidateCrc : Statement .fvValidateCrc := fun _ => by decide
theorem fvHasSig : Statement .fvHasSig := fun _ => by decide
theorem fvValidateSig : Statement .fvValidateSig := fun _ => by decide
theorem fvSigTimestamp : Statement .fvSigTimestamp := fun _ => by decide
theorem fvSigLinkId : Statement .fvSigLinkId := fun _ => by decide
theorem packV1 : Statement .packV1 := fun _ => by decide
theorem packV2 : Statement .packV2 := fun _ => by decide
theorem scan : Statement .scan := fun _ => by decide
theorem rplGet : Statement .rplGet := fun _ => by decide
theorem raPush : Statement .raPush := fun _ => by decide
theorem raDrop : Statement .raDrop := fun _ => by decide

theorem frameV1 (f : FrameV1) : Statement (.frameV1 f) := fun h => by
  have hp : f.payload.length ≤ 255 := by simpa [Instr.wf, FrameV1.wf] using h
  simp only [encode, opcodeOf, frameBytes, FrameV1.bytes_length, Config.maxFrame, true_and]
  omega

theorem frameV2 (f : FrameV2) : Statement (.frameV2 f) := fun h => by
  simp only [Instr.wf, FrameV2.wf, Bool.and_eq_true, decide_eq_true_eq] at h
  simp only [encode, opcodeOf, frameBytes, FrameV2.bytes_length, Config.maxFrame, true_and]
  omega

theorem frameV2Signed (f : FrameV2) (t : Trailer) : Statement (.frameV2Signed f t) := fun h => by
  simp only [Instr.wf, FrameV2.wf, Trailer.wf, Bool.and_eq_true, decide_eq_true_eq] at h
  simp only [encode, opcodeOf, frameBytes, List.length_append, FrameV2.bytes_length, Trailer.bytes_length,
    Config.maxFrame]
  omega

end Sys2Proof.Laws.EncodedLength
end

