-- ==== Sys2Proof/Laws/Window.lean ====
section
/-! SUPPORT. The host window: where an access goes, and everything a step can do. -/

namespace Sys2Proof.Machine

/-- A step that takes a write. -/
theorem step_write {s : State} {off : BitVec 16} {data : List Byte} {rest} (h : s.pending = .write off data :: rest) :
   step s = hostWrite off.toNat data (s.setPending rest) := by simp [step, h, access]

/-- A step that takes a read. -/
theorem step_read {s : State} {off : BitVec 16} {w} {rest} (h : s.pending = .read off w :: rest) :
   step s = hostRead off.toNat w (s.setPending rest) := by simp [step, h, access]

/-- A register write (R61, R62). -/
theorem hostWrite_register {off : Nat} {v : Word} {s : State} (h1 : off < 0x100) (h2 : off % 4 = 0) :
   hostWrite off (leBytes 4 v.toNat) s = writeReg v (s.respond .done) (regAt off) := by
  simp [hostWrite, legalAccess, h1, h2, regionOf, writeRegion]

/-- A register read (R61, R62). -/
theorem hostRead_register {off : Nat} {s : State} (h1 : off < 0x100) (h2 : off % 4 = 0) :
   hostRead off 4 s = .next (s.respond (.data (leBytes 4 (s.readReg (regAt off)).toNat))) := by
  simp [hostRead, legalAccess, h1, h2, regionOf, State.readRegion]

/-- The RX_KEY window (R20). -/
theorem regionOf_rxKey_eq {n o : Nat} (h1 : 0x100 ≤ o) (h2 : o < 0x140) : regionOf n o = .rxKey (o - 0x100) := by
  simp [regionOf, show ¬ o < 0x100 by omega, h2]

/-- The OP_KEY window (R20). -/
theorem regionOf_opKey_eq {n o : Nat} (h1 : 0x140 ≤ o) (h2 : o < 0x180) : regionOf n o = .opKey (o - 0x140) := by
  simp [regionOf, show ¬ o < 0x100 by omega, show ¬ o < 0x140 by omega, h2]

/-- FRAME_RAM in the window (R20). -/
theorem regionOf_frameRam_eq {n o : Nat} (h1 : 0x8000 ≤ o) (h2 : o < 0x8000 + n) :
    regionOf n o = .frameRam (o - 0x8000) := by
  have : o < frameRamEnd n := h2
  simp [regionOf, show ¬ o < 0x100 by omega, show ¬ o < 0x140 by omega, show ¬ o < 0x180 by omega, Config.frameRamBase, show ¬ o < 32768 by omega, this]

/-- The reserved offsets above the key windows (R20). -/
theorem regionOf_reserved_eq {n o : Nat} (h : (0x180 ≤ o ∧ o < 0x8000) ∨ 0x8000 + n ≤ o) : regionOf n o = .reserved := by
  rcases h with h | h
  · simp [regionOf, show ¬ o < 0x100 by omega, show ¬ o < 0x140 by omega, show ¬ o < 0x180 by omega, Config.frameRamBase, show o < 32768 by omega]
  · have : ¬ o < frameRamEnd n := by simp [frameRamEnd, Config.frameRamBase]; omega
    simp [regionOf, show ¬ o < 0x100 by omega, show ¬ o < 0x140 by omega, show ¬ o < 0x180 by omega, Config.frameRamBase, show ¬ o < 32768 by omega, this]

/-- The legal accesses above the register window (R61): naturally aligned, and not across the end of FRAME_RAM. -/
theorem legalAccess_memory {n o w : Nat} (h1 : 0x100 ≤ o) : legalAccess n o w = true ↔
    (w = 1 ∨ w = 2 ∨ w = 4) ∧ o % w = 0 ∧ ¬ (o < 0x8000 + n ∧ 0x8000 + n < o + w) := by
  have h2 : ¬ o < 0x100 := by omega
  simp only [legalAccess, h2, if_false, frameRamEnd, Config.frameRamBase, Bool.and_eq_true, Bool.or_eq_true, beq_iff_eq,
    Bool.not_eq_true', Bool.and_eq_false_iff]
  by_cases p : o < 0x8000 + n <;> by_cases q : 0x8000 + n < o + w <;> simp [p, q, or_assoc] <;> omega

/-- Accesses below FRAME_RAM, inside it, or past its end straddle nothing (R61). -/
theorem legalAccess_aligned {n o w : Nat} (h1 : 0x100 ≤ o) (hw : w = 1 ∨ w = 2 ∨ w = 4) (ha : o % w = 0)
    (hs : o < 0x8000 ∨ o + w ≤ 0x8000 + n ∨ 0x8000 + n ≤ o) : legalAccess n o w = true :=
  (legalAccess_memory h1).2 ⟨hw, ha, by rcases hw with rfl | rfl | rfl <;> omega⟩

/-- A write above the register window. -/
theorem hostWrite_memory {o : Nat} {data : List Byte} {s : State} (hl : legalAccess s.params.memSize o data.length = true) :
    hostWrite o data s = writeRegion data (s.respond .done) (regionOf s.params.memSize o) := by
  simp [hostWrite, hl]

/-- A read above the register window. -/
theorem hostRead_memory {o w : Nat} {s : State} (hl : legalAccess s.params.memSize o w = true) :
   hostRead o w s = match s.readRegion w (regionOf s.params.memSize o) with
    | .ok bytes => .next (s.respond (.data bytes))
    | .error (.raise code) => raise code s
    | .error (.fault f) => .fault f := by
  rw [hostRead, hl]; rfl

/-- The reserved offsets of the register window (R20). -/
theorem regAt_reserved {o : Nat} (ha : o % 4 = 0) (h : (0x034 ≤ o ∧ o < 0x040) ∨ (0x064 ≤ o ∧ o < 0x080) ∨
        (0x090 ≤ o ∧ o < 0x100)) : regAt o = .reserved := by
  unfold regAt
  repeat rw [if_neg (by omega)]

/-- ARG0..ARG8 (R20). -/
theorem regAt_arg {o : Nat} {i : Fin 9} (h : o = 0x040 + 4 * i) : regAt o = .arg i := by
  subst h; revert i; decide

/-- Every offset is in one region (R20). -/
theorem regionOf_cases (n o : Nat) :
    (o < 0x100 ∧ regionOf n o = .register (regAt o)) ∨ (0x100 ≤ o ∧ o < 0x140 ∧ regionOf n o = .rxKey (o - 0x100)) ∨
    (0x140 ≤ o ∧ o < 0x180 ∧ regionOf n o = .opKey (o - 0x140)) ∨
    (0x8000 ≤ o ∧ o < 0x8000 + n ∧ regionOf n o = .frameRam (o - 0x8000)) ∨
    (((0x180 ≤ o ∧ o < 0x8000) ∨ 0x8000 + n ≤ o) ∧ regionOf n o = .reserved) := by
  by_cases h1 : o < 0x100
  · exact .inl ⟨h1, if_pos h1⟩
  by_cases h2 : o < 0x140
  · exact .inr (.inl ⟨by omega, h2, regionOf_rxKey_eq (by omega) h2⟩)
  by_cases h3 : o < 0x180
  · exact .inr (.inr (.inl ⟨by omega, h3, regionOf_opKey_eq (by omega) h3⟩))
  by_cases h4 : 0x8000 ≤ o ∧ o < 0x8000 + n
  · exact .inr (.inr (.inr (.inl ⟨h4.1, h4.2, regionOf_frameRam_eq h4.1 h4.2⟩)))
  · have : (0x180 ≤ o ∧ o < 0x8000) ∨ 0x8000 + n ≤ o := by omega
    exact .inr (.inr (.inr (.inr ⟨this, regionOf_reserved_eq this⟩)))

/-- A legal access to RX_KEY stays inside its window. -/
theorem regionOf_rxKey {n o i w : Nat} (h : regionOf n o = .rxKey i) (hl : legalAccess n o w = true) : i + w ≤ 64 := by
  rcases regionOf_cases n o with ⟨-, h'⟩ | ⟨h1, h2, h'⟩ | ⟨-, -, h'⟩ | ⟨-, -, h'⟩ | ⟨-, h'⟩ <;> rw [h'] at h <;>
    first
    | exact Region.noConfusion h
    | (injection h with h
       obtain ⟨hw, ha, -⟩ := (legalAccess_memory h1).1 hl
       rcases hw with rfl | rfl | rfl <;> omega)

/-- A legal access to OP_KEY stays inside its window. -/
theorem regionOf_opKey {n o i w : Nat} (h : regionOf n o = .opKey i) (hl : legalAccess n o w = true) : i + w ≤ 64 := by
  rcases regionOf_cases n o with ⟨-, h'⟩ | ⟨-, -, h'⟩ | ⟨h1, h2, h'⟩ | ⟨-, -, h'⟩ | ⟨-, h'⟩ <;> rw [h'] at h <;>
    first
    | exact Region.noConfusion h
    | (injection h with h
       obtain ⟨hw, ha, -⟩ := (legalAccess_memory (by omega)).1 hl
       rcases hw with rfl | rfl | rfl <;> omega)

/-- A legal access to FRAME_RAM stays inside it. -/
theorem regionOf_frameRam {n o i w : Nat} (h : regionOf n o = .frameRam i) (hl : legalAccess n o w = true) : i + w ≤ n := by
  rcases regionOf_cases n o with ⟨-, h'⟩ | ⟨-, -, h'⟩ | ⟨-, -, h'⟩ | ⟨h1, h2, h'⟩ | ⟨-, h'⟩ <;> rw [h'] at h <;>
    first
    | exact Region.noConfusion h
    | (injection h with h
       obtain ⟨hw, ha, hs⟩ := (legalAccess_memory (by omega)).1 hl
       omega)

/-- A COMMAND write that has a continuation (R235). -/
theorem issue_next {w : Word} {s t : State} (h : issue w s = .next t) : (∃ i, exec i s = .next t) ∨ t = s.setErr .illegalCmd := by
  unfold issue at h
  split at h
  · exact .inl ⟨_, h⟩
  · right; simpa [raise, eq_comm] using h

/-- Everything a CTRL write can do (R230 to R233). -/
theorem writeCtrl_cases (v : Word) (s : State) :
   (∃ c, writeCtrl v s = s.setErr c) ∨ writeCtrl v s = s.dropInstance.setErr .ok ∨
   (s.enable = false ∧ s.mapLoadFactor ≠ 0#16 ∧ s.rxKeyLen.toNat ≤ s.params.keyMax ∧ writeCtrl v s = { s with enable := true, replayMap := [], acc := [], raCap := s.params.raInitCap, err := .ok }) := by
  unfold writeCtrl softReset disable enable
  split
  · exact .inr (.inl rfl)
  split
  · rename_i h
    split
    · exact .inl ⟨_, rfl⟩
    · rename_i hc
      right; right
      refine ⟨by simp only [Bool.and_eq_true, Bool.not_eq_true'] at h; exact h.2, ?_, ?_, rfl⟩
      · intro hh; exact hc (.inl hh)
      · by_contra hh; exact hc (.inr (by omega))
  split
  · exact .inr (.inl rfl)
  · exact .inl ⟨_, rfl⟩

/-- A host read raises no error code (R237). -/
theorem State.readRegion_ne_raise (s : State) (w : Nat) (r : Region) (c : ErrCode) :
    s.readRegion w r ≠ .error (.raise c) := by
  cases r with
  | register | reserved => exact nofun
  | rxKey i => exact readKey_ne_raise _ _ _ _ _
  | opKey i => exact readKey_ne_raise _ _ _ _ _
  | frameRam i => exact readBytes_ne_raise _ _ _ _

/-- A step: idle, an access that changes nothing but the answer, or a legal write. -/
theorem step_cases {s t : State} (h : step s = .next t) :
   (s.pending = [] ∧ t = s) ∨
   ∃ a rest, s.pending = a :: rest ∧ 
    ((∃ r, t = (s.setPending rest).respond r ∧ ((∃ o w, a = .read o w) ∨ r = .busError ∨ r = .done)) ∨
     (∃ off data, a = .write off data ∧ legalAccess s.params.memSize off.toNat data.length = true ∧ writeRegion data ((s.setPending rest).respond .done) (regionOf s.params.memSize off.toNat) = .next t)) := by
  unfold step at h
  split at h
  · rename_i hp; cases h; exact .inl ⟨hp, rfl⟩
  · rename_i a rest hp
    refine .inr ⟨a, rest, hp, ?_⟩
    cases a with
    | read off w =>
      simp only [access, hostRead] at h
      split at h
      · split at h
        · cases h; exact .inl ⟨_, rfl, .inl ⟨_, _, rfl⟩⟩
        · rename_i code hh
          exact absurd hh (State.readRegion_ne_raise _ _ _ _)
        · cases h
      · cases h; exact .inl ⟨_, rfl, .inl ⟨_, _, rfl⟩⟩
    | write off data =>
      simp only [access, hostWrite] at h
      split at h
      · rename_i hl
        exact .inr ⟨_, _, rfl, hl, h⟩
      · cases h; exact .inl ⟨_, rfl, .inr (.inl rfl)⟩

/-- Everything a step can do. -/
theorem step_inv {s t : State} (h : step s = .next t) :
    t = s ∨ ∃ rest, ((∃ r, t = (s.setPending rest).respond r) ∨
      (∃ i, exec i ((s.setPending rest).respond .done) = .next t) ∨
      (∃ c ∈ [ErrCode.illegalCmd, .cfgLocked], t = ((s.setPending rest).respond .done).setErr c) ∨
      (∃ v, t = writeCtrl v ((s.setPending rest).respond .done)) ∨
      (s.enable = false ∧ ∃ o lo hi cap lf kl key, (s.rxKey.within Config.keyWindow → key.within Config.keyWindow) ∧
        t = { (s.setPending rest).respond .done with options := o, windowLo := lo, windowHi := hi, mapInitCap := cap, mapLoadFactor := lf, rxKeyLen := kl, rxKey := key }) ∨
      (∃ kl key args ram, (s.opKey.within Config.keyWindow → key.within Config.keyWindow) ∧ (s.frameRam.within s.params.memSize → ram.within s.params.memSize) ∧
        t = { (s.setPending rest).respond .done with opKeyLen := kl, opKey := key, args := args, frameRam := ram })) := by
  rcases step_cases h with ⟨-, rfl⟩ | ⟨a, rest, hp, ⟨r, rfl, -⟩ | ⟨off, data, rfl, hl, hw⟩⟩
  · exact .inl rfl
  · exact .inr ⟨rest, .inl ⟨r, rfl⟩⟩
  · refine .inr ⟨rest, .inr ?_⟩
    have frozen : ∀ {u stored : State}, (.next (frozenWrite u stored) : Host.Outcome State Fault Refusal) = .next t → u.enable = s.enable →
        t = u.setErr .cfgLocked ∨ (s.enable = false ∧ t = stored) := by
      intro u stored hh hu
      cases hh
      unfold frozenWrite
      cases hs : s.enable <;> rw [hu, hs]
      · exact .inr ⟨rfl, rfl⟩
      · exact .inl rfl
    revert hw
    cases hr : regionOf s.params.memSize off.toNat with
    | register r =>
      simp only [writeRegion]
      generalize (BitVec.ofNat 32 (fromLE data)) = v
      cases r <;> simp only [writeReg] <;> intro hw
      case command =>
        rcases issue_next hw with ⟨i, hi⟩ | rfl
        · exact .inl ⟨i, hi⟩
        · exact .inr (.inl ⟨_, by simp, rfl⟩)
      case ctrl =>
        cases hw
        exact .inr (.inr (.inl ⟨_, rfl⟩))
      case arg => cases hw; exact .inr (.inr (.inr (.inr ⟨_, _, _, _, id, id, rfl⟩)))
      case opKeyLen => cases hw; exact .inr (.inr (.inr (.inr ⟨_, _, _, _, id, id, rfl⟩)))
      all_goals first
        | (rcases frozen hw rfl with rfl | ⟨he, rfl⟩
           · exact .inr (.inl ⟨_, by simp, rfl⟩)
           · exact .inr (.inr (.inr (.inl ⟨he, _, _, _, _, _, _, _, id, rfl⟩))))
        | (cases hw; exact .inr (.inr (.inr (.inr ⟨_, _, _, _, id, id, rfl⟩))))
    | rxKey i =>
      intro hw
      simp only [writeRegion] at hw
      rcases frozen hw rfl with rfl | ⟨he, rfl⟩
      · exact .inr (.inl ⟨_, by simp, rfl⟩)
      · refine .inr (.inr (.inr (.inl ⟨he, _, _, _, _, _, _, _, fun h => ?_, rfl⟩)))
        exact Memory.within_writeBytes _ _ h (regionOf_rxKey hr hl)
    | opKey i =>
      intro hw; cases hw
      refine .inr (.inr (.inr (.inr ⟨_, _, _, _, fun h => ?_, id, rfl⟩)))
      exact Memory.within_writeBytes _ _ h (regionOf_opKey hr hl)
    | frameRam i =>
      intro hw; cases hw
      refine .inr (.inr (.inr (.inr ⟨_, _, _, _, id, fun h => ?_, rfl⟩)))
      exact Memory.within_writeBytes _ _ h (regionOf_frameRam hr hl)
    | reserved => intro hw; cases hw; exact .inr (.inr (.inr (.inr ⟨_, _, _, _, id, id, rfl⟩)))

end Sys2Proof.Machine
end

