-- ==== Sys2Proof/Tests/Slice0.lean ====
section
/-! SUPPORT. The model's own tests. Expected values are those of spec/95_test_vectors.md (each test names its vector) or
are written out from the rule it names. The witnesses at the end meet the hypotheses of the statements. -/

namespace Sys2Proof.Tests

set_option Elab.async false

open Sys2Proof.Machine

/-! ### Helpers: small states -/

/-- Bytes written at a FRAME_RAM index. -/
def ram (a : Nat) (bytes : List Byte) (s : State) : State := s.setFrameRam (s.frameRam.writeBytes a bytes)

/-- ARG0 and the following registers. -/
def args (vs : List Word) (s : State) : State :=
  { s with args := Vector.ofFn fun i => vs.getD i.val 0#32 }

/-- The per-call key. -/
def opKey (k : List Byte) (s : State) : State :=
  { s with opKey := s.opKey.writeBytes 0 k, opKeyLen := BitVec.ofNat 8 k.length }

/-- The receive key. -/
def rxKey (k : List Byte) (s : State) : State :=
  { s with rxKey := s.rxKey.writeBytes 0 k, rxKeyLen := BitVec.ofNat 8 k.length }

/-- OPTIONS. -/
def opts (o : BitVec 5) (s : State) : State := { s with options := o }

/-- The host's next access. -/
def host (a : HostAccess) (s : State) : State := s.setPending [a]

/-- A 4-byte register write. -/
def wr (off : BitVec 16) (v : Word) : HostAccess := .write off (leBytes 4 v.toNat)

/-- The resolver of 95_test_vectors.md. -/
def table : Params :=
  { Params.default with resolver := [(0#24, ⟨50#8, 7#8, 9#8⟩), (1#24, ⟨124#8, 2#8, 2#8⟩)] }

/-- Reset, with that resolver. -/
def off : State := { State.reset with params := table }

/-- An instance alive (OPTIONS = 0x01, strict). -/
def on : State := { off with enable := true }

/-- An instance alive in lenient mode. -/
def lenient : State := opts 0#5 on

/-- The sizes of a small machine, its FRAME_RAM no whole number of words (R6). -/
def smallSizes : Params :=
  { table with memSize := 513, keyMax := 16, raInitCap := 0, raCapMax := 280, resyncThreshold := 280 }

/-- That machine, its instance alive in lenient mode. -/
def small : State := { State.resetWith smallSizes with enable := true, options := 0#5 }

/-- A next state that meets a condition. -/
def after (o : Host.Outcome State Fault Refusal) (p : State → Bool) : Bool :=
  match o with
  | .next t => p t
  | _ => false

/-- A next state with ERR = OK and these results. -/
def gives (o : Host.Outcome State Fault Refusal) (r : List Word) : Bool :=
  after o fun t => t.err == .ok && t.res.toList == r

/-- A next state with this error code and the results of reset. -/
def errs (o : Host.Outcome State Fault Refusal) (c : ErrCode) : Bool :=
  after o fun t => t.err == c && t.res.toList == [0#32, 0#32, 0#32, 0#32]

/-- This fault. -/
def stops (o : Host.Outcome State Fault Refusal) (f : Fault) : Bool :=
  match o with
  | .fault g => g == f
  | _ => false

/-! ### The named frames of 95_test_vectors.md section 2, their bytes written out -/

def p7 : List Byte := [0x00#8, 0x00#8, 0x00#8, 0x00#8, 0x02#8, 0x03#8, 0x51#8]

def bytesF1 : List Byte := [0xFD#8, 0x07#8, 0x00#8, 0x00#8, 0x03#8, 0x01#8, 0x01#8, 0x00#8, 0x00#8, 0x00#8] ++ p7 ++
  [0xA4#8, 0x4A#8]

def bytesF2 : List Byte := [0xFE#8, 0x07#8, 0x03#8, 0x01#8, 0x01#8, 0x00#8] ++ p7 ++ [0xA3#8, 0xD8#8]

def bytesF3 : List Byte := [0xFD#8, 0x07#8, 0x01#8, 0x00#8, 0x03#8, 0x01#8, 0x01#8, 0x00#8, 0x00#8, 0x00#8] ++ p7 ++
  [0xB4#8, 0xC4#8, 0x01#8, 0xE8#8, 0x03#8, 0x00#8, 0x00#8, 0x00#8, 0x00#8, 0x35#8, 0x53#8, 0xB1#8, 0x04#8, 0x45#8,
    0x85#8]

/-- The key `00 01 .. 1F`. -/
def key32 : List Byte := (List.range 32).map (BitVec.ofNat 8)

def f1 : FrameV2 := ⟨0#8, 0#8, 3#8, 1#8, 1#8, 0#24, p7, 0x4AA4#16⟩

def f2 : FrameV1 := ⟨3#8, 1#8, 1#8, 0#8, p7, 0xD8A3#16⟩

def f3 : FrameV2 := ⟨1#8, 0#8, 3#8, 1#8, 1#8, 0#24, p7, 0xC4B4#16⟩

def t3 : Trailer := ⟨1#8, 1000#48, [0x35#8, 0x53#8, 0xB1#8, 0x04#8, 0x45#8, 0x85#8]⟩

/-- The longest payload (R81). -/
def long : List Byte := List.replicate 255 0x5A#8

/-! ### WellFormed refuses an ill-formed term for each check -/

theorem test_wf_v1_payload_256 : (Instr.frameV1 { f2 with payload := 0#8 :: long }).wf = false := by decide +kernel
theorem test_wf_v2_payload_256 : (Instr.frameV2 { f1 with payload := 0#8 :: long }).wf = false := by decide +kernel
theorem test_wf_signed_payload_256 : (Instr.frameV2Signed { f3 with payload := 0#8 :: long } t3).wf = false := by
  decide +kernel
theorem test_wf_v2_signed_bit_set : (Instr.frameV2 f3).wf = false := by decide
theorem test_wf_signed_bit_clear : (Instr.frameV2Signed f1 t3).wf = false := by decide
theorem test_wf_hash_5_bytes : (Instr.frameV2Signed f3 { t3 with hash := t3.hash.drop 1 }).wf = false := by decide
theorem test_wf_accepts_the_longest : (Instr.frameV2Signed { f3 with payload := long } t3).wf = true := by
  decide +kernel

/-! ### Every constructor's decoding, its word or bytes written out (R95, R97; R81, R82, R84) -/

theorem test_decode_cksum : decode [0x01#8, 0#8, 0#8, 0#8] = .ok (.cksum, []) := by decide
theorem test_decode_fvDecode : decode [0x10#8, 0#8, 0#8, 0#8] = .ok (.fvDecode, []) := by decide
theorem test_decode_fvValidateCrc : decode [0x11#8, 0#8, 0#8, 0#8] = .ok (.fvValidateCrc, []) := by decide
theorem test_decode_fvHasSig : decode [0x12#8, 0#8, 0#8, 0#8] = .ok (.fvHasSig, []) := by decide
theorem test_decode_fvValidateSig : decode [0x13#8, 0#8, 0#8, 0#8] = .ok (.fvValidateSig, []) := by decide
theorem test_decode_fvSigTimestamp : decode [0x14#8, 0#8, 0#8, 0#8] = .ok (.fvSigTimestamp, []) := by decide
theorem test_decode_fvSigLinkId : decode [0x15#8, 0#8, 0#8, 0#8] = .ok (.fvSigLinkId, []) := by decide
theorem test_decode_packV1 : decode [0x20#8, 0#8, 0#8, 0#8] = .ok (.packV1, []) := by decide
theorem test_decode_packV2 : decode [0x21#8, 0#8, 0#8, 0#8] = .ok (.packV2, []) := by decide
theorem test_decode_scan : decode [0x30#8, 0#8, 0#8, 0#8] = .ok (.scan, []) := by decide
theorem test_decode_rplGet : decode [0x31#8, 0#8, 0#8, 0#8] = .ok (.rplGet, []) := by decide
theorem test_decode_raPush : decode [0x40#8, 0#8, 0#8, 0#8] = .ok (.raPush, []) := by decide
theorem test_decode_raDrop : decode [0x41#8, 0#8, 0#8, 0#8] = .ok (.raDrop, []) := by decide
theorem test_decode_frameV1 : decode bytesF2 = .ok (.frameV1 f2, []) := by decide +kernel
theorem test_decode_frameV2 : decode bytesF1 = .ok (.frameV2 f1, []) := by decide +kernel
theorem test_decode_frameV2Signed : decode bytesF3 = .ok (.frameV2Signed f3 t3, []) := by decide +kernel
theorem test_encode_frames : encode (.frameV1 f2) = bytesF2 ∧ encode (.frameV2 f1) = bytesF1 ∧
    encode (.frameV2Signed f3 t3) = bytesF3 := by decide +kernel
/-- V-CTL-7. -/
theorem test_decode_reserved_refused : decode [0x30#8, 1#8, 0#8, 0#8] = .error .reservedBits ∧
    decode [0#8, 0#8, 0#8, 0#8] = .error .unassignedOpcode ∧ decodeCommand 0xFF#32 = .error .unassignedOpcode := by
  decide

/-! ### One step for each instruction -/

/-- V-CRC-7. -/
theorem test_cksum : gives (exec .cksum (args [0#32, 9#32, 0#32] (ram 0 ((List.range 9).map fun i =>
    BitVec.ofNat 8 (0x31 + i)) off))) [0x856F#32, 0#32, 0#32, 0#32] = true := by decide +kernel
/-- V-CRC-12. -/
theorem test_cksum_outOfRange : errs (exec .cksum (args [8191#32, 2#32] off)) .outOfRange = true := by decide +kernel
/-- V-FV-1. -/
theorem test_fvDecode : gives (exec .fvDecode (ram 0 bytesF1 off)) [0x702#32, 0x0A010103#32, 0#32, 0x0013000A#32] = true := by
  decide +kernel
/-- V-FV-3. -/
theorem test_fvDecode_signed : gives (exec .fvDecode (args [0x40#32] (ram 0x40 bytesF3 off)))
    [0x10702#32, 0x0A010103#32, 0x01000000#32, 0x0020004A#32] = true := by decide +kernel
/-- V-FV-7. -/
theorem test_fvValidateCrc : gives (exec .fvValidateCrc (args [0#32, 50#32] (ram 0 bytesF1 off)))
    [1#32, 0x4AA4#32, 0x4AA4#32, 0#32] = true := by decide +kernel
/-- V-FV-8. -/
theorem test_fvValidateCrc_mismatch : gives (exec .fvValidateCrc (args [0#32, 51#32] (ram 0 bytesF1 off)))
    [0#32, 0x5B2D#32, 0x4AA4#32, 0#32] = true := by decide +kernel
/-- V-FV-10. -/
theorem test_fvHasSig : gives (exec .fvHasSig (args [0x40#32] (ram 0x40 bytesF3 off))) [1#32, 0#32, 0#32, 0#32] = true := by
  decide +kernel
/-- V-FV-11. -/
theorem test_fvValidateSig : gives (exec .fvValidateSig (opKey key32 (ram 0 bytesF3 off))) [1#32, 0#32, 0#32, 0#32] = true := by
  decide +kernel
/-- V-FV-15. -/
theorem test_fvValidateSig_badKeyLen : errs (exec .fvValidateSig { ram 0 bytesF3 off with opKeyLen := 65#8 }) .badKeyLen =
    true := by decide +kernel
/-- V-FV-16. -/
theorem test_fvSigTimestamp : gives (exec .fvSigTimestamp (ram 0 bytesF3 off)) [0x3E8#32, 0#32, 0#32, 0#32] = true ∧
    gives (exec .fvSigTimestamp (ram 0 bytesF1 off)) [0xFFFFFFFF#32, 0xFFFFFFFF#32, 0#32, 0#32] = true := by
  decide +kernel
/-- V-FV-17, V-FV-18. -/
theorem test_fvSigLinkId : gives (exec .fvSigLinkId (ram 0 bytesF3 off)) [1#32, 0#32, 0#32, 0#32] = true ∧
    errs (exec .fvSigLinkId (args [8172#32] (ram 8172 (bytesF3.take 20) off))) .outOfRange = true := by decide +kernel
/-- V-PK-1. -/
theorem test_packV1 : after (exec .packV1 (args [0#32, 64#32, 0x100#32, 7#32, 0x32010103#32] (ram 0x100 p7 off)))
    (fun t => t.res.toList == [15#32, 0#32, 0#32, 0#32] && decide (t.holds 0 bytesF2)) = true := by decide +kernel
/-- V-PK-12. -/
theorem test_packV1_dstTooSmall : errs (exec .packV1 (args [0#32, 14#32, 0x100#32, 7#32] (ram 0x100 p7 off))) .dstTooSmall =
    true := by decide +kernel
/-- V-PK-3: trimmed from 9 to 7. -/
theorem test_packV2_trimmed : after (exec .packV2 (args [0#32, 64#32, 0x100#32, 0x01070009#32, 0x32010103#32]
    (ram 0x100 (p7 ++ [0#8, 0#8]) off)))
    (fun t => t.res.toList == [19#32, 7#32, 0#32, 0#32] && decide (t.holds 0 bytesF1)) = true := by decide +kernel
/-- V-PK-8: signed. -/
theorem test_packV2_signed : after (exec .packV2 (opKey key32 (args [0#32, 64#32, 0x100#32, 0x00070007#32, 0x32010103#32,
    0#32, 0x100#32, 1000#32] (ram 0x100 p7 off))))
    (fun t => t.res.toList == [32#32, 7#32, 0#32, 0#32] && decide (t.holds 0 bytesF3)) = true := by decide +kernel
/-- V-SC-1. -/
theorem test_scan : gives (exec .scan (args [0#32, 19#32] (ram 0 bytesF1 on))) [1#32, 0#32, 19#32, 0#32] = true := by
  decide +kernel
/-- V-SC-14: a false candidate rejected, the frame behind it found. -/
theorem test_scan_noise : gives (exec .scan (args [0#32, 29#32] (ram 0 ([0x00#8, 0xFE#8, 0x00#8, 0x01#8, 0x02#8, 0x03#8,
    0x04#8, 0x05#8, 0x06#8, 0x07#8] ++ bytesF1) on))) [1#32, 10#32, 19#32, 1#32] = true := by decide +kernel
/-- After the first row of V-RPL-1. -/
theorem test_rplGet : gives (exec .rplGet (args [0x010101#32] { on with replayMap := [(0x010101, 100#64)] }))
    [100#32, 0#32, 1#32, 0#32] = true := by decide +kernel
/-- V-RPL-2. -/
theorem test_rplGet_absent : gives (exec .rplGet (args [0x010101#32, 7#32, 1#32] on)) [7#32, 1#32, 0#32, 0#32] = true := by
  decide +kernel
/-- V-RA-1. -/
theorem test_raPush : after (exec .raPush (args [0#32, 36#32] (ram 0 ([0x55#8, 0xAA#8] ++ bytesF1 ++ bytesF2) on)))
    (fun t => t.res.toList == [2#32, 0#32, 36#32, 0#32] && t.frameOut == [bytesF1, bytesF2] && t.acc == []) = true := by
  decide +kernel
/-- V-RA-11. -/
theorem test_raPush_outOfRange : errs (exec .raPush (args [8190#32, 3#32] on)) .outOfRange = true := by decide +kernel
/-- V-CTL-12, and R216 on a partly received frame. -/
theorem test_raDrop : gives (exec .raDrop off) [0#32, 0#32, 0#32, 0#32] = true ∧
    after (exec .raDrop { on with acc := bytesF1.take 10 }) (fun t => t.acc == [] && t.raCap == 2048) = true := by
  decide +kernel
/-- The second frame of V-RA-1 alone, in strict mode. -/
theorem test_frameV1 : after (exec (.frameV1 f2) on) (fun t => t.frameOut == [bytesF2] && t.err == .ok) = true := by
  decide +kernel
/-- V-RA-1's first frame, its two noise bytes pushed before. -/
theorem test_frameV2 : after (exec (.frameV2 f1) { on with acc := [0x55#8, 0xAA#8] })
    (fun t => t.frameOut == [bytesF1] && t.res.toList == [1#32, 0#32, 21#32, 0#32]) = true := by decide +kernel
/-- The first frame of V-RPL-6: its record is made. -/
theorem test_frameV2Signed : after (exec (.frameV2Signed f3 t3) (rxKey key32 (opts 0x15#5 on)))
    (fun t => t.frameOut == [bytesF3] && t.replayMap == [(0x010101, 1000#64)]) = true := by decide +kernel

/-! ### The host window -/

/-- V-CTL-1. -/
theorem test_read_id : after (step (host (.read 0#16 4) off)) (fun t => t.response ==
    .data [0x4C#8, 0x56#8, 0x41#8, 0x4D#8]) = true := by decide +kernel
/-- V-CTL-4. -/
theorem test_enable : after (step (host (wr 0x004#16 1#32) off)) (fun t => t.enable && t.statusWord == 0x100#32) = true := by
  decide +kernel
/-- V-CTL-5. -/
theorem test_frozen : after (step (host (wr 0x010#16 0#32) on)) (fun t => t.err == .cfgLocked && t.options == 1#5) = true := by
  decide +kernel
/-- V-CTL-11. -/
theorem test_bus_error : after (step (host (.read 0x008#16 2) on)) (fun t => t.response == .busError && t.err == .ok) = true ∧
    after (step (host (.read 0x8002#16 4) on)) (fun t => t.response == .busError) = true ∧
    after (step (host (.write 0x8003#16 [0x5A#8]) on)) (fun t => t.frameRam.read 3 == some 0x5A#8) = true := by
  decide +kernel
/-- R272. -/
theorem test_unwritten : stops (step (host (.read 0x8000#16 1) off)) (.unwrittenByte 0) = true := by decide +kernel
/-- R6, R36, R61: the last byte of a FRAME_RAM of 513 bytes, the range past it, and an access across its end. -/
theorem test_small_machine : after (step (host (.write 0x8200#16 [0x5A#8]) small)) (fun t => t.frameRam.read 512 == some 0x5A#8) =
      true ∧ errs (exec .cksum (args [512#32, 2#32] small)) .outOfRange = true ∧
    after (step (host (.read 0x8200#16 2) small)) (fun t => t.response == .busError) = true ∧
    after (step (host (.read 0x8204#16 4) small)) (fun t => t.response == .data [0#8, 0#8, 0#8, 0#8]) = true ∧
    errs (exec .fvValidateSig { ram 0 bytesF3 small with opKeyLen := 17#8 }) .badKeyLen = true := by decide +kernel
/-- FIPS 180-4's digest of "abc", its first and last two bytes. -/
theorem test_sha256 : (Sha256.digest [0x61#8, 0x62#8, 0x63#8]).take 2 = [0xBA#8, 0x78#8] ∧
    (Sha256.digest [0x61#8, 0x62#8, 0x63#8]).drop 30 = [0x15#8, 0xAD#8] := by decide +kernel

/-! ### Witnesses: each meets the hypotheses of the statement it names, clause by clause -/

theorem witness_DecodeEncodeRoundTrip : (Instr.frameV2Signed { f3 with payload := long } t3).wf = true ∧
    (Instr.frameV1 { f2 with payload := [] }).wf = true ∧ (Instr.raDrop).wf = true := by decide +kernel
theorem witness_DecodedBytesAreTheEncoding : decode (bytesF3 ++ [0xFF#8]) = .ok (.frameV2Signed f3 t3, [0xFF#8]) := by
  decide +kernel
theorem witness_CommandWordLegality : (host (wr commandOffset 0x41#32) off).pending =
      .write commandOffset (leBytes 4 (0x41#32 : Word).toNat) :: [] ∧
    (0x41#32 : Word).extractLsb' 8 24 = 0#24 ∧ (0x41#32 : Word).extractLsb' 0 8 = 0x41#8 ∧
    (0x141#32 : Word).extractLsb' 8 24 ≠ 0#24 ∧
    (0x42#32 : Word).extractLsb' 0 8 ∉ [0x01#8, 0x10#8, 0x11#8, 0x12#8, 0x13#8, 0x14#8, 0x15#8, 0x20#8, 0x21#8, 0x30#8,
      0x31#8, 0x40#8, 0x41#8] := by decide
theorem witness_StepRunsCommand : opcodeOf .cksum ≠ none ∧ (host (.write commandOffset (encode .cksum)) off).pending =
    .write commandOffset (encode .cksum) :: [] := by decide
/-- The frame's last byte is the last of FRAME_RAM. -/
def stagedF2 : State := host (commandWrite 0x40#8) (args [8177#32, 15#32] (ram 8177 bytesF2 on))
theorem witness_StepRunsFrame : (Instr.frameV1 f2).wf = true ∧ opcodeOf (.frameV1 f2) = none ∧
    stagedF2.pending = commandWrite 0x40#8 :: [] ∧ stagedF2.argNat 1 = (encode (.frameV1 f2)).length ∧
    stagedF2.argNat 0 + (encode (.frameV1 f2)).length ≤ off.params.memSize ∧
    stagedF2.holds (stagedF2.argNat 0) (encode (.frameV1 f2)) := by decide +kernel
theorem witness_PlacedWordRuns : on.params.Legal ∧ small.params.Legal ∧ decodeTableWord 32 0x41 = some .raDrop ∧
    decodeTableWord 16 0x00FE = some (.frameV1 ⟨0#8, 0#8, 0#8, 0#8, [], 0#16⟩) := by decide +kernel

theorem witness_ResetValues : (host (wr 0x004#16 2#32) on).pending = wr 0x004#16 2#32 :: [] ∧
    (2#32 : Word).getLsbD 1 = true ∧ (host (wr 0x004#16 0#32) on).pending = wr 0x004#16 0#32 :: [] ∧
    (0#32 : Word).getLsbD 0 = false ∧ (host (wr 0x004#16 0#32) on).enable = true := by decide
theorem witness_CtrlWrite : (host (wr 0x004#16 3#32) on).pending = .write 0x004#16 (leBytes 4 (3#32 : Word).toNat) :: [] ∧
    (3#32 : Word).getLsbD 1 = true ∧ (1#32 : Word).getLsbD 1 = false ∧ (1#32 : Word).getLsbD 0 = true ∧
    { off with mapLoadFactor := 0#16 }.mapLoadFactor = 0#16 ∧ 64 < { off with rxKeyLen := 65#8 }.rxKeyLen.toNat ∧
    off.enable = false ∧ off.mapLoadFactor ≠ 0#16 ∧ { off with rxKeyLen := 64#8 }.rxKeyLen.toNat ≤ 64 ∧
    (0#32 : Word).getLsbD 1 = false ∧ (0#32 : Word).getLsbD 0 = false ∧ on.enable = true ∧
    (0#32 : Word).getLsbD 0 = off.enable := by decide
theorem witness_CtrlWrite_changes : after (step (host (wr 0x004#16 1#32) off)) (fun t => t.enable != off.enable) = true := by
  decide +kernel
theorem witness_FrozenGroupWrites : (host (wr 0x024#16 65#32) on).pending = wr 0x024#16 65#32 :: [] ∧ on.enable = true ∧
    off.enable = false ∧ 0x100 ≤ (0x13C#16).toNat ∧ (0x13F#16).toNat < 0x140 ∧ (0x13C#16).toNat % 4 = 0 ∧
    (host (.write 0x13C#16 (long.take 4)) on).pending = .write 0x13C#16 (long.take 4) :: [] ∧
    (long.take 4).length = 4 := by decide +kernel
theorem witness_PlainWrites : (host (wr 0x0FC#16 5#32) on).pending = wr 0x0FC#16 5#32 :: [] ∧
    (0x0FC#16).toNat % 4 = 0 ∧ 0x090 ≤ (0x0FC#16).toNat ∧ (0x034#16).toNat % 4 = 0 ∧ (0x064#16).toNat % 4 = 0 ∧
    (0x060#16).toNat = 0x040 + 4 * (8 : Fin 9).val ∧
    (host (.write 0x17F#16 [7#8]) on).pending = .write 0x17F#16 [7#8] :: [] ∧ (0x17F#16).toNat % 1 = 0 ∧
    0x8000 ≤ (0x9FFF#16).toNat ∧ (0x9FFF#16).toNat + 1 = 0x8000 + off.params.memSize ∧ 0x180 ≤ (0x180#16).toNat ∧
    (0x7FFF#16).toNat < 0x8000 ∧ 0x8000 + off.params.memSize ≤ (0xA000#16).toNat := by decide
theorem witness_HostReads : (host (.read 0x08C#16 4) on).pending = .read 0x08C#16 4 :: [] ∧
    (0x060#16).toNat = 0x040 + 4 * (8 : Fin 9).val ∧ (0x03C#16).toNat % 4 = 0 ∧
    (∀ i, i < 1 → (rxKey (long.take 64) on).rxKey.read ((0x13F#16).toNat - 0x100 + i) = [0x5A#8][i]?) ∧
    (∀ i, i < 4 → (opKey (long.take 64) on).opKey.read ((0x17C#16).toNat - 0x140 + i) = (long.take 4)[i]?) ∧
    (ram 8190 [1#8, 2#8] on).holds ((0x9FFE#16).toNat - 0x8000) [1#8, 2#8] ∧ (0x9FFE#16).toNat % 2 = 0 ∧
    0x8000 + off.params.memSize ≤ (0xA000#16).toNat := by decide +kernel
theorem witness_BusErrors : (host (.read 0x100#16 3) on).pending = .read 0x100#16 3 :: [] ∧ ¬ (3 = 1 ∨ 3 = 2 ∨ 3 = 4) ∧
    (0x0FC#16).toNat < 0x100 ∧ (0x0FC#16).toNat % 4 = 0 ∧ (0x9FFC#16).toNat % 4 = 0 ∧
    (0x9FFC#16).toNat + 4 = 0x8000 + on.params.memSize ∧ (0x8200#16).toNat % 2 = 0 ∧
    (0x8200#16).toNat < 0x8000 + small.params.memSize ∧ 0x8000 + small.params.memSize < (0x8200#16).toNat + 2 := by decide
/-- F3 at the end of FRAME_RAM but for its bytes from `n` on, ARG0 on it. -/
def cutF3 (n : Nat) (s : State) : State := args [8160#32] (ram 8160 (bytesF3.take n) s)
theorem witness_UnwrittenReadsFault_host : (host (.read 0x9FFC#16 4) on).pending = .read 0x9FFC#16 4 :: [] ∧
    (0x9FFC#16).toNat % 4 = 0 ∧ (0x9FFC#16).toNat + 4 = 0x8000 + on.params.memSize ∧
    ¬ (ram 8188 [0#8, 0#8, 0#8] on).written ((0x9FFC#16).toNat - 0x8000) 4 ∧
    on.rxKey.read ((0x13C#16).toNat - 0x100 + 3) = none ∧ on.opKey.read ((0x17C#16).toNat - 0x140 + 3) = none := by
  decide +kernel
theorem witness_UnwrittenReadsFault_range : (args [8191#32, 1#32] on).argNat 0 + (args [8191#32, 1#32] on).argNat 1 ≤
      off.params.memSize ∧ ¬ (args [8191#32, 1#32] on).written 8191 1 ∧ on.enable = true ∧
    on.acc.length + 1 ≤ off.params.raCapMax := by decide +kernel
/-- A payload of one byte, unwritten, at the end of FRAME_RAM. -/
def packUnwritten : State := args [0#32, 9#32, 8191#32, 1#32] on
theorem witness_UnwrittenReadsFault_payload : packUnwritten.packPayloadLen = 1 ∧
    packUnwritten.packSrc + 1 = on.params.memSize ∧ ¬ packUnwritten.written packUnwritten.packSrc 1 ∧
    packUnwritten.packMessageId.toNat ≤ 255 ∧ packUnwritten.packDstLen = 8 + 1 ∧
    packUnwritten.packDst + (8 + 1) ≤ on.params.memSize ∧ packUnwritten.opKeyLen.toNat ≤ on.params.keyMax ∧
    packUnwritten.packIncompat.getLsbD 0 = false := by decide +kernel
theorem witness_UnwrittenReadsFault_header : (args [8191#32] on).frameRam.read 8191 = none ∧
    (args [8186#32] (ram 8186 (bytesF2.take 5) on)).frameRam.read 8186 = some 0xFE#8 ∧ 8186 + 6 = on.params.memSize ∧
    ¬ (ram 8186 (bytesF2.take 5) on).written 8186 6 ∧
    (args [8182#32] (ram 8182 (bytesF3.take 9) on)).frameRam.read 8182 = some 0xFD#8 ∧ 8182 + 10 = on.params.memSize ∧
    ¬ (ram 8182 (bytesF3.take 9) on).written 8182 10 := by decide +kernel
theorem witness_UnwrittenReadsFault_frame : f2.wf = true ∧ f3.wf = true ∧ f3.signedBit = true ∧
    (args [8177#32] (ram 8177 (bytesF2.take 14) on)).holds 8177 f2.header ∧
    8177 + (8 + f2.payload.length) = on.params.memSize ∧
    ¬ (ram 8177 (bytesF2.take 14) on).written 8177 (8 + f2.payload.length) ∧
    (cutF3 18 on).argNat 0 + (12 + f3.payload.length + 13) = on.params.memSize ∧ (cutF3 18 on).holds 8160 f3.header ∧
    ¬ (cutF3 18 on).written 8160 (12 + f3.payload.length) ∧
    (cutF3 19 on).frameRam.read (8160 + (12 + f3.payload.length)) = none ∧
    ¬ (cutF3 25 on).written (8160 + (12 + f3.payload.length) + 1) 6 ∧
    (opKey key32 (cutF3 31 on)).opKeyLen ≠ 0#8 ∧ (opKey key32 (cutF3 31 on)).opKeyLen.toNat ≤ on.params.keyMax ∧
    (opKey key32 (cutF3 31 on)).opKeyWritten ∧ ¬ (cutF3 31 on).written 8160 (12 + f3.payload.length + 13) ∧
    ¬ { cutF3 32 on with opKeyLen := 1#8 }.opKeyWritten := by decide +kernel
/-- PACK_V2 with a key length and no key, into exactly the room the frame needs. -/
def packNoKey : State := { args [8166#32, 26#32, 0#32, 1#32] (ram 0 [7#8] on) with opKeyLen := 1#8 }
theorem witness_UnwrittenReadsFault_opKey : packNoKey.packPayloadLen = 1 ∧ packNoKey.opKeyLen.toNat ≤ on.params.keyMax ∧
    ¬ packNoKey.opKeyWritten ∧ packNoKey.packSrc + 1 ≤ on.params.memSize ∧ packNoKey.written packNoKey.packSrc 1 ∧
    packNoKey.packDstLen = 25 + 1 ∧ packNoKey.packDst + (25 + 1) = on.params.memSize := by decide +kernel
theorem witness_UnwrittenReadsFault_scan : on.enable = true ∧ (args [0#32, 8192#32] on).argNat 1 ≤ on.params.memSize ∧
    (ram 0 [0x55#8] on).holds 0 [0x55#8] ∧ (∀ b ∈ [0x55#8], b ≠ 0xFE#8 ∧ b ≠ 0xFD#8) ∧
    (ram 0 [0x55#8] on).frameRam.read 1 = none ∧ (ram 0 (0x55#8 :: bytesF2.take 5) on).frameRam.read 1 = some 0xFE#8 ∧
    1 + 6 = (args [0#32, 7#32] on).argNat 1 ∧ ¬ (ram 0 (0x55#8 :: bytesF2.take 5) on).written 1 6 ∧
    (ram 0 (0x55#8 :: bytesF3.take 9) on).frameRam.read 1 = some 0xFD#8 ∧ 1 + 10 = (args [0#32, 11#32] on).argNat 1 ∧
    ¬ (ram 0 (0x55#8 :: bytesF3.take 9) on).written 1 10 := by decide +kernel
/-- REQUIRE_SIGNATURE with a key length and no key, F3 at index 0. -/
def noRxKey (stop : Word) : State := { opts 0x05#5 (args [0#32, stop] (ram 0 bytesF3 on)) with rxKeyLen := 1#8 }
theorem witness_UnwrittenReadsFault_rxKey : (Instr.frameV2Signed f3 t3).wf = true ∧ f3.incompat &&& 0xFE#8 = 0#8 ∧
    (noRxKey 32#32).enable = true ∧ (noRxKey 32#32).strict = true ∧ (noRxKey 32#32).options.getLsbD 2 = true ∧
    ¬ (noRxKey 32#32).rxKeyWritten ∧ (noRxKey 32#32).holds 0 (f3.bytes ++ t3.bytes) ∧
    0 + (25 + f3.payload.length) = (noRxKey 32#32).argNat 1 ∧ 25 + f3.payload.length ≤ on.params.raCapMax ∧
    (noRxKey 32#32).acc = [] := by decide +kernel
theorem witness_CksumResult : (args [8192#32] on).argNat 0 + (args [8192#32] on).argNat 1 ≤ off.params.memSize ∧
    (args [8192#32] on).holds 8192 [] ∧
    off.params.memSize < (args [8191#32, 2#32] on).argNat 0 + (args [8191#32, 2#32] on).argNat 1 := by decide +kernel
theorem witness_ChecksumDetectsByteChange : (0#8 : Byte) ≠ 1#8 := by decide

theorem witness_FvHeaderErrors : off.params.memSize ≤ (args [8192#32] off).argNat 0 ∧
    (args [8191#32] (ram 8191 [0#8] off)).frameRam.read 8191 = some 0#8 ∧
    off.params.memSize < (args [8187#32] (ram 8187 [0xFE#8] off)).argNat 0 + 6 ∧
    (args [8187#32] (ram 8187 [0xFE#8] off)).frameRam.read 8187 = some 0xFE#8 ∧
    off.params.memSize < (args [8183#32] (ram 8183 [0xFD#8] off)).argNat 0 + 10 ∧
    (args [8183#32] (ram 8183 [0xFD#8] off)).frameRam.read 8183 = some 0xFD#8 := by decide +kernel
theorem witness_FvDecodeResult : (args [8186#32] (ram 8186 (bytesF2.take 6) off)).argNat 0 + 6 = off.params.memSize ∧
    (args [8186#32] (ram 8186 (bytesF2.take 6) off)).holds 8186 [0xFE#8, 7#8, 3#8, 1#8, 1#8, 0#8] ∧
    (args [8182#32] (ram 8182 (bytesF3.take 10) off)).argNat 0 + 10 = off.params.memSize ∧
    (args [8182#32] (ram 8182 (bytesF3.take 10) off)).holds 8182
      [0xFD#8, 7#8, 1#8, 0#8, 3#8, 1#8, 1#8, 0#8, 0#8, 0#8] := by decide +kernel
theorem witness_FvHasSigResult : (ram 8186 (bytesF2.take 6) off).holds 8186 [0xFE#8, 7#8, 3#8, 1#8, 1#8, 0#8] ∧
    (ram 8182 (bytesF3.take 10) off).holds 8182 [0xFD#8, 7#8, 1#8, 0#8, 3#8, 1#8, 1#8, 0#8, 0#8, 0#8] := by
  decide +kernel
theorem witness_FvValidateCrcResult : f2.wf = true ∧ f3.wf = true ∧
    (ram 8177 bytesF2 off).holds 8177 f2.bytes ∧ 8177 + (8 + f2.payload.length) = off.params.memSize ∧
    (ram 8178 (bytesF2.take 14) off).holds 8178 f2.header ∧ off.params.memSize < 8178 + (8 + f2.payload.length) ∧
    (ram 8160 bytesF3 off).holds 8160 f3.bytes ∧ 8160 + (12 + f3.payload.length + 13) = off.params.memSize ∧
    (ram 8161 (bytesF3.take 31) off).holds 8161 f3.header ∧ f3.signedBit = true ∧
    off.params.memSize < 8161 + (12 + f3.payload.length + 13) := by decide +kernel
theorem witness_FvValidateSigResult : f1.wf = true ∧ f2.wf = true ∧ (Instr.frameV2Signed f3 t3).wf = true ∧
    (ram 0 bytesF1 off).holds 0 f1.header ∧ f1.signedBit = false ∧ 64 < { off with opKeyLen := 65#8 }.opKeyLen.toNat ∧
    (ram 8161 (bytesF3.take 31) off).holds 8161 f3.header ∧ f3.signedBit = true ∧
    off.params.memSize < 8161 + (25 + f3.payload.length) ∧ (opKey key32 off).opKeyLen ≠ 0#8 ∧ off.opKeyLen = 0#8 ∧
    (ram 0 bytesF2 off).holds 0 f2.header ∧ (ram 8160 bytesF3 off).holds 8160 (f3.bytes ++ t3.bytes) ∧
    8160 + (25 + f3.payload.length) = off.params.memSize ∧ (opKey key32 off).opKeyIs key32 ∧
    (opKey (long.take 64) off).opKeyIs (long.take 64) ∧ key32 ≠ [] := by decide +kernel
theorem witness_SignatureFieldResults : (Instr.frameV2Signed f3 t3).wf = true ∧
    (ram 8160 bytesF3 off).holds 8160 (f3.bytes ++ t3.bytes) ∧ 8160 + (25 + f3.payload.length) = off.params.memSize ∧
    (ram 8161 (bytesF3.take 31) off).holds 8161 f3.header ∧ off.params.memSize < 8161 + (25 + f3.payload.length) ∧
    f1.wf = true ∧ f1.signedBit = false ∧ (ram 0 bytesF1 off).holds 0 f1.header ∧ f2.wf = true ∧
    (ram 0 bytesF2 off).holds 0 f2.header := by decide +kernel
theorem witness_ReportingCommandsFrame : after (exec .cksum (args [8192#32] on)) (fun _ => true) = true ∧
    after (exec .fvDecode (ram 0 bytesF1 off)) (fun _ => true) = true ∧
    after (exec .fvValidateCrc (ram 0 bytesF1 off)) (fun _ => true) = true ∧
    after (exec .fvHasSig (ram 0 bytesF1 off)) (fun _ => true) = true ∧
    after (exec .fvValidateSig (ram 0 bytesF1 off)) (fun _ => true) = true ∧
    after (exec .fvSigTimestamp (ram 0 bytesF1 off)) (fun _ => true) = true ∧
    after (exec .fvSigLinkId (ram 0 bytesF1 off)) (fun _ => true) = true ∧
    after (exec .rplGet on) (fun _ => true) = true := by decide +kernel

theorem witness_TrimmingRule : 2 < trimLen [1#8, 0#8, 3#8, 0#8] 2 4 ∧ [1#8, 0#8].length ≤ 2 ∧
    (1#8 : Byte) ∈ [1#8, 0#8, 3#8, 0#8] := by decide
/-- PACK_V1 of a payload that ends at the end of FRAME_RAM into exactly the room its frame needs. -/
def pack1 : State := args [8170#32, 15#32, 8185#32, 7#32, 0x32010103#32, 255#32] (ram 8185 p7 off)
theorem witness_PackV1Effect : pack1.packPayloadLen = 7 ∧ pack1.packMessageId.toNat = 255 ∧
    pack1.packSrc + pack1.packPayloadLen = off.params.memSize ∧ pack1.packDstLen = 8 + pack1.packPayloadLen ∧
    pack1.packDst + (8 + pack1.packPayloadLen) ≤ off.params.memSize ∧ p7.length = pack1.packPayloadLen ∧
    pack1.holds pack1.packSrc p7 ∧ 255 < (args [0#32, 0#32, 0#32, 256#32] off).packPayloadLen ∧
    255 < (args [0#32, 0#32, 0#32, 255#32, 0#32, 256#32] off).packMessageId.toNat ∧
    off.params.memSize < (args [0#32, 0#32, 8192#32, 1#32] off).packSrc + (args [0#32, 0#32, 8192#32, 1#32] off).packPayloadLen ∧
    (args [0#32, 7#32] off).packDstLen < 8 + (args [0#32, 7#32] off).packPayloadLen ∧
    off.params.memSize < (args [8185#32, 8#32] off).packDst + (8 + (args [8185#32, 8#32] off).packPayloadLen) := by
  decide +kernel
/-- A signed PACK_V2 with the longest key, into exactly the room its frame needs, at the end of FRAME_RAM. -/
def pack2 : State := opKey (long.take 64) (args [8160#32, 32#32, 0x100#32, 0x01070009#32, 0x32010103#32, 0x01000000#32,
  0x100#32, 1000#32] (ram 0x100 (p7 ++ [0#8, 0#8]) off))
theorem witness_PackV2Effect : 255 < (args [0#32, 0#32, 0#32, 256#32] off).packPayloadLen ∧
    64 < { off with opKeyLen := 65#8 }.opKeyLen.toNat ∧ off.opKeyLen = 0#8 ∧
    (args [0#32, 0#32, 0#32, 0#32, 0#32, 0x01000000#32] off).packIncompat.getLsbD 0 = true ∧
    pack2.packPayloadLen ≤ 255 ∧ pack2.opKeyLen.toNat ≤ 64 ∧ pack2.opKeyLen ≠ 0#8 ∧ off.packIncompat.getLsbD 0 = false ∧
    off.params.memSize < (args [0#32, 0#32, 8192#32, 1#32] off).packSrc + (args [0#32, 0#32, 8192#32, 1#32] off).packPayloadLen ∧
    (p7 ++ [0#8, 0#8]).length = pack2.packPayloadLen ∧ pack2.holds pack2.packSrc (p7 ++ [0#8, 0#8]) ∧
    pack2.packSrc + pack2.packPayloadLen ≤ off.params.memSize ∧ (args [0#32, 11#32] off).packDstLen < 12 + 0 + 0 ∧
    off.params.memSize < (args [8181#32, 12#32] off).packDst + (12 + 0 + 0) ∧ pack2.opKeyIs (long.take 64) ∧
    long.take 64 ≠ [] ∧ pack2.packDstLen = 12 + 7 + 13 ∧ pack2.packDst + (12 + 7 + 13) = off.params.memSize := by
  decide +kernel
theorem witness_PackFrame : after (exec .packV1 pack1) (fun t => t.err == .ok) = true ∧
    after (exec .packV2 pack2) (fun t => t.err == .ok) = true ∧
    after (exec .packV1 (args [0#32, 7#32] off)) (fun t => t.err != .ok) = true := by decide +kernel
theorem witness_PackThenValidateCrc : after (exec .packV1 pack1) (fun t => t.err == .ok) = true ∧
    after (exec .packV2 pack2) (fun t => t.err == .ok) = true := by decide +kernel
theorem witness_PackThenScanLenient : pack1.params.Legal ∧ after (exec .packV1 { pack1 with enable := true, options := 0#5 })
    (fun t => t.err == .ok) = true ∧ { pack1 with enable := true, options := 0#5 }.strict = false := by decide +kernel
theorem witness_PackThenDecode : after (exec .packV1 pack1) (fun t => t.err == .ok) = true ∧
    after (exec .packV2 pack2) (fun t => t.err == .ok) = true := by decide +kernel
/-- What `pack2` leaves at its destination, through the trailer's timestamp. -/
def packed2 : List Byte := (readBytes pack2.ram 0 0).toOption.getD [] ++
  [0xFD#8, 0x07#8, 0x01#8, 0x00#8, 0x03#8, 0x01#8, 0x01#8, 0x00#8, 0x00#8, 0x00#8] ++ p7 ++
  [0xB4#8, 0xC4#8, 0x01#8, 0xE8#8, 0x03#8, 0x00#8, 0x00#8, 0x00#8, 0x00#8]
theorem witness_PackThenValidateSignature : after (exec .packV2 pack2) (fun t => t.err == .ok &&
    decide (packed2.length + 6 = (t.res[(0 : Fin 4)]).toNat) && decide (t.holds pack2.packDst packed2)) = true ∧
    (opKey key32 off).opKeyIs key32 ∧
    (pack2.keyedHash key32 packed2).take 6 ≠ (pack2.keyedHash (long.take 64) packed2).take 6 := by decide +kernel

theorem witness_ScanLenient : lenient.enable = true ∧ lenient.strict = false ∧
    (args [0#32, 8192#32] (ram 0 [0x55#8, 0xAA#8] lenient)).argNat 1 ≤ off.params.memSize ∧
    (ram 0 ([0x55#8, 0xAA#8] ++ bytesF2) lenient).holds 0 [0x55#8, 0xAA#8] ∧
    (∀ b ∈ [0x55#8, 0xAA#8], b ≠ 0xFE#8 ∧ b ≠ 0xFD#8) ∧ f2.wf = true ∧ f3.wf = true ∧
    (ram 0 ([0x55#8, 0xAA#8] ++ bytesF2) lenient).holds 2 f2.header ∧
    (args [0#32, 17#32] lenient).argNat 1 = 2 + (8 + f2.payload.length) ∧ 2 + 6 ≤ (args [0#32, 16#32] lenient).argNat 1 ∧
    (args [0#32, 16#32] lenient).argNat 1 < 2 + (8 + f2.payload.length) ∧
    (ram 0 ([0x55#8, 0xAA#8] ++ bytesF3) lenient).holds 2 f3.header ∧
    (args [0#32, 34#32] lenient).argNat 1 = 2 + (12 + f3.payload.length + 13) ∧
    (args [0#32, 33#32] lenient).argNat 1 < 2 + (12 + f3.payload.length + 13) ∧
    (ram 2 [0xFE#8] lenient).frameRam.read 2 = some 0xFE#8 ∧ (args [0#32, 7#32] lenient).argNat 1 < 2 + 6 ∧
    (ram 2 [0xFD#8] lenient).frameRam.read 2 = some 0xFD#8 ∧ (args [0#32, 11#32] lenient).argNat 1 < 2 + 10 := by
  decide +kernel
theorem witness_ScanCompletes : off.enable = false ∧ on.enable = true ∧
    off.params.memSize < (args [0#32, 8193#32] on).argNat 1 ∧ (args [5#32, 4#32] on).argNat 1 < (args [5#32, 4#32] on).argNat 0 ∧
    (args [8177#32, 8192#32] (ram 8177 bytesF2 (rxKey key32 on))).argNat 1 ≤ off.params.memSize ∧
    (args [8177#32, 8192#32] (ram 8177 bytesF2 (rxKey key32 on))).argNat 0 ≤ 8192 ∧
    (args [8177#32, 8192#32] (ram 8177 bytesF2 (rxKey key32 on))).rxKeyWritten ∧
    (args [8177#32, 8192#32] (ram 8177 bytesF2 (rxKey key32 on))).written 8177 15 := by decide +kernel
theorem witness_ScanAcceptsOnlyFrames : after (exec .scan (args [8177#32, 8192#32] (ram 8177 bytesF2 on)))
    (fun t => t.err == .ok && t.res[(0 : Fin 4)] == 1#32 && t.res[(3 : Fin 4)] == 0#32) = true ∧ on.strict = true ∧
    { table with replayCommit := .onAccept }.replayCommit = .onAccept := by decide +kernel
theorem witness_ScanFrame : after (exec .scan (args [0#32, 15#32] (ram 0 bytesF2 lenient))) (fun t => t.err == .ok) = true ∧
    lenient.strict = false ∧ after (exec .scan (args [5#32, 4#32] on)) (fun t => t.err != .ok) = true := by decide +kernel
/-- F2 as a buffer. -/
def bufF2 : Buffer := accBuffer bytesF2
/-- F3 as a buffer. -/
def bufF3 : Buffer := accBuffer bytesF3
/-- The header fields of F2. -/
def h2 : Header := ⟨.v1, 7#8, 0#8, 0#8, 3#8, 1#8, 1#8, 0#24⟩
/-- The header fields of F3. -/
def h3 : Header := ⟨.v2, 7#8, 1#8, 0#8, 3#8, 1#8, 1#8, 0#24⟩
/-- SCAN of F2 at the end of FRAME_RAM. -/
def scanF2 : State := args [8177#32, 8192#32] (ram 8177 bytesF2 on)
theorem witness_ScanSteps_exec : scanF2.enable = true ∧ scanF2.argNat 1 = scanF2.params.memSize ∧
    scanF2.argNat 0 ≤ scanF2.argNat 1 ∧
    scanF2.scanBuffer scanF2.ram (scanF2.argNat 0) (scanF2.argNat 1) scanF2.replayMap = .ok ⟨some (8177, 15), 0, []⟩ ∧
    (args [0#32, 1#32] on).scanBuffer (args [0#32, 1#32] on).ram 0 1 [] = .error (.fault (.unwrittenByte 0)) := by
  decide +kernel
theorem witness_ScanSteps : accBuffer [0x55#8] 0 = some 0x55#8 ∧ bufF2 0 = some 0xFE#8 ∧ bufF3 0 = some 0xFD#8 ∧ 5 < 0 + 6 ∧
    9 < 0 + 10 ∧ lenient.strict = false ∧ decodeHeader bufF2 0 15 = .ok h2 ∧ h2.totalLen = 15 ∧
    decodeHeader bufF2 0 14 = .ok h2 ∧ on.strict = true ∧ on.strictOk bufF2 0 h2 [] = .ok (.accept, []) ∧
    (opts 0x09#5 on).strict = true ∧ decodeHeader (accBuffer bytesF1) 0 19 = .ok { h3 with incompat := 0#8 } ∧
    (opts 0x09#5 on).strictOk (accBuffer bytesF1) 0 { h3 with incompat := 0#8 } [] = .ok (.reject, []) ∧
    (opts 0x09#5 on).scanBuffer (accBuffer bytesF1) 1 19 [] = .ok ⟨none, 0, []⟩ := by decide +kernel
theorem witness_StrictRejectsBeforeReplay : { h3 with incompat := 2#8 }.incompat &&& 0xFE#8 ≠ 0#8 ∧
    { h3 with incompat := 0#8 }.incompat &&& 0xFE#8 = 0#8 ∧ (opts 0x09#5 on).options.getLsbD 3 = true ∧
    h3.version = .v2 ∧ { h3 with incompat := 0#8 }.incompat.getLsbD 0 = false ∧ h3.incompat &&& 0xFE#8 = 0#8 ∧
    h3.incompat.getLsbD 0 = true ∧ (opts 0x05#5 on).options.getLsbD 2 = true ∧ (opts 0x05#5 on).rxKeyLen = 0#8 ∧
    [0x5A#8] ≠ [] ∧ (rxKey [0x5A#8] (opts 0x05#5 on)).rxKeyIs [0x5A#8] ∧ (bytesF3.take 26).length = h3.totalLen - 6 ∧
    (bytesF3.drop 26).length = 6 ∧ (∀ i, i < 26 + 6 → bufF3 (0 + i) = (bytesF3.take 26 ++ bytesF3.drop 26)[i]?) ∧
    (on.keyedHash [0x5A#8] (bytesF3.take 26)).take 6 ≠ bytesF3.drop 26 := by decide +kernel
theorem witness_ReplayRule : 0x010101 < 2 ^ 24 ∧ Sparse.get ([] : ReplayMap) 0x010101 = none ∧
    Sparse.get ([(0x010101, 1000#64)] : ReplayMap) 0x010101 = some 1000#64 ∧
    (949#48).toNat + 50 < (1000#64).toNat ∧ (1000#64).toNat ≤ (950#48).toNat + 50 ∧ (950#48).toNat ≤ (1000#64).toNat ∧
    (1000#64).toNat < (1001#48).toNat := by decide
theorem witness_ReplayedTimestamp : 0x010101 < 2 ^ 24 ∧ (100#48).toNat < (110#48).toNat ∧
    replayCheck [] 10 0x010101 100#48 = some (some (0x010101, 100#64)) ∧
    replayCheck (ReplayMap.apply [] (some (0x010101, 100#64))) 10 0x010101 110#48 = some (some (0x010101, 110#64)) := by
  decide
theorem witness_StrictVerdict : { h3 with incompat := 0#8 }.incompat &&& 0xFE#8 = 0#8 ∧
    on.messagePasses (accBuffer bytesF1) 0 { h3 with incompat := 0#8 } = .ok true ∧ on.options.getLsbD 3 = false ∧
    ¬ ({ h3 with incompat := 0#8 }.version = .v2 ∧ { h3 with incompat := 0#8 }.incompat.getLsbD 0 = true) ∧
    (opts 0x09#5 on).messagePasses bufF2 0 h2 = .ok true ∧ h2.version = .v1 ∧ h2.incompat &&& 0xFE#8 = 0#8 ∧
    h3.incompat &&& 0xFE#8 = 0#8 ∧ on.messagePasses bufF3 0 h3 = .ok true ∧ h3.version = .v2 ∧
    h3.incompat.getLsbD 0 = true ∧ key32 ≠ [] ∧ (rxKey key32 (opts 0x15#5 on)).rxKeyIs key32 ∧
    (bytesF3.take 26).length = h3.totalLen - 6 ∧ (bytesF3.drop 26).length = 6 ∧
    (∀ i, i < 26 + 6 → bufF3 (0 + i) = (bytesF3.take 26 ++ bytesF3.drop 26)[i]?) ∧
    (on.keyedHash key32 (bytesF3.take 26)).take 6 = bytesF3.drop 26 ∧ on.options.getLsbD 4 = false ∧
    (opts 0x15#5 on).options.getLsbD 4 = true ∧ sigLinkId bufF3 0 h3 = .ok 1#8 ∧ sigTimestamp bufF3 0 h3 = .ok 1000#48 ∧
    replayCheck [(0x010101, 1001#64)] on.window (compositeKey 1#8 1#8 1#8) 1000#48 = none ∧
    replayCheck [] on.window (compositeKey 1#8 1#8 1#8) 1000#48 = some (some (0x010101, 1000#64)) := by decide +kernel
theorem witness_MessageConditions : on.resolve 5#24 = none ∧ on.resolve 0#24 = some ⟨50#8, 7#8, 9#8⟩ ∧
    h2.version = .v1 ∧ { h2 with payloadLen := 8#8 }.payloadLen ≠ 7#8 ∧ h3.version = .v2 ∧
    { h3 with payloadLen := 6#8 }.payloadLen.toNat < (7#8 : Byte).toNat ∧
    (9#8 : Byte).toNat < { h3 with payloadLen := 10#8 }.payloadLen.toNat ∧ h2.payloadLen = 7#8 ∧
    ((bytesF2.drop 1).take 12).length = h2.headerLen - 1 + h2.n ∧ (bytesF2.drop 13).length = 2 ∧
    (∀ i, i < 12 + 2 → bufF2 (0 + 1 + i) = ((bytesF2.drop 1).take 12 ++ bytesF2.drop 13)[i]?) := by decide +kernel

theorem witness_RplGetResult : off.enable = false ∧ on.enable = true ∧ (args [0x010101#32] on).arg 0 ≠ 0xFFFFFFFF#32 ∧
    Sparse.get ([(0x010101, 100#64)] : ReplayMap) ((args [0x010101#32] on).argNat 0) = some 100#64 ∧
    (args [0xFFFFFFFF#32] on).arg 0 = 0xFFFFFFFF#32 ∧
    Sparse.get on.replayMap ((args [0x01000000#32] on).argNat 0) = none := by decide +kernel
theorem witness_RecordsNeverDecrease : after (step (host (wr commandOffset 0x30#32) (args [0#32, 32#32] (ram 0 bytesF3
    (rxKey key32 (opts 0x15#5 { on with replayMap := [(0x010101, 999#64)] })))))) (fun t => t.enable &&
      Sparse.get t.replayMap 0x010101 == some 1000#64) = true := by decide +kernel

theorem witness_RaPushEffect : off.enable = false ∧ on.enable = true ∧
    off.params.memSize < (args [8190#32, 3#32] on).argNat 0 + (args [8190#32, 3#32] on).argNat 1 ∧
    (args [8177#32, 15#32] (ram 8177 bytesF2 on)).argNat 0 + 15 ≤ off.params.memSize ∧
    on.acc = [] ∧ (rxKey key32 on).rxKeyWritten ∧
    bytesF2.length = (args [8177#32, 15#32] on).argNat 1 ∧ (ram 8177 bytesF2 on).holds 8177 bytesF2 := by decide +kernel
/-- V-RA-8's fifth push. -/
theorem witness_RaPushEffect_overflow : 32768 < { on with acc := List.replicate 32764 0xFE#8 }.acc.length + 8192 := by
  show 32768 < (List.replicate 32764 0xFE#8).length + 8192
  rw [List.length_replicate]
  decide
theorem witness_RaPushDispatchesFrames : on.params.Legal ∧ on.strict = true ∧ after (exec .raPush (args [0#32, 15#32] (ram 0 bytesF2 on)))
    (fun t => t.err == .ok && t.res[(0 : Fin 4)] == 1#32) = true := by decide +kernel
theorem witness_RaPushLeavesBoundedTail : on.params.Legal ∧ after (exec .raPush (args [0#32, 14#32] (ram 0 bytesF2 on)))
    (fun t => t.err == .ok && t.res[(2 : Fin 4)] == 0#32) = true := by decide +kernel
/-- ACC of `n` zeros and then `rest`, and an empty chunk next. -/
def zeros (n : Nat) (rest : List Byte) : State := { lenient with acc := List.replicate n 0#8 ++ rest }
/-- Nothing is found in zeros alone, nor in zeros with one magic byte behind them. -/
theorem zeros_scan (n : Nat) (rest : List Byte) (h : rest = [] ∨ rest = [0xFE#8]) :
    (zeros n rest).scanBuffer (accBuffer ((zeros n rest).acc ++ [])) 0 ((zeros n rest).acc ++ []).length
      (zeros n rest).replayMap = .ok ⟨none, 0, []⟩ := by
  have hlen : ((zeros n rest).acc ++ []).length = n + rest.length := by simp [zeros]
  refine scan_from_noise (noise := List.replicate n 0#8) (fun i hi => ?_) (fun b hb => ?_) ?_ ?_
  · simp only [List.length_replicate] at hi
    simp [accBuffer, zeros, List.getElem?_append_left, hi]
  · rw [List.eq_of_mem_replicate hb]; decide
  · simp [zeros]
  · rw [hlen, List.length_replicate, Nat.zero_add]
    rcases h with rfl | rfl
    · exact scanBuffer_end _ _ _ _
    · exact scanBuffer_cutHeader (x := 0xFE#8) (v := .v1) (by simp [accBuffer, zeros]) rfl (by simp) (by simp [Version.headerLen])
/-- The premises that do not depend on what ACC holds. -/
theorem zeros_ready (n : Nat) (rest : List Byte) (h : n + rest.length ≤ 32768) : (zeros n rest).enable = true ∧
    (zeros n rest).argNat 0 + (zeros n rest).argNat 1 ≤ (zeros n rest).params.memSize ∧
    ([] : List Byte).length = (zeros n rest).argNat 1 ∧ (zeros n rest).holds ((zeros n rest).argNat 0) [] ∧
    (zeros n rest).acc.length + ([] : List Byte).length ≤ (zeros n rest).params.raCapMax :=
  ⟨rfl, show lenient.argNat 0 + lenient.argNat 1 ≤ lenient.params.memSize by decide, rfl,
    fun i hi => absurd hi (Nat.not_lt_zero i), show (List.replicate n 0#8 ++ rest).length ≤ 32768 by simpa using h⟩
/-- D22: 1120 bytes are kept. -/
theorem witness_ForcedResync_1120 : (zeros 1120 []).scanBuffer (accBuffer ((zeros 1120 []).acc ++ [])) 0
      ((zeros 1120 []).acc ++ []).length (zeros 1120 []).replayMap = .ok ⟨none, 0, []⟩ ∧
    ((zeros 1120 []).acc ++ []).length = (zeros 1120 []).params.resyncThreshold ∧
    (zeros 1120 []).acc.length + ([] : List Byte).length ≤ (zeros 1120 []).params.raCapMax :=
  ⟨zeros_scan 1120 [] (.inl rfl), by simp only [zeros, List.append_nil, List.length_replicate]; decide,
    (zeros_ready 1120 [] (by decide)).2.2.2.2⟩
/-- V-RA-5: 1121 bytes without a magic. -/
theorem witness_ForcedResync_noMagic : (zeros 1121 []).params.resyncThreshold < ((zeros 1121 []).acc ++ []).length ∧
    ∀ (i : Nat) (x : Byte), 1 ≤ i → ((zeros 1121 []).acc ++ [])[i]? = some x → x ≠ 0xFE#8 ∧ x ≠ 0xFD#8 := by
  simp only [zeros, List.append_nil, List.length_replicate]
  refine ⟨by decide, fun i x _ h => ?_⟩
  rw [List.eq_of_mem_replicate (List.mem_of_getElem? h)]
  decide
/-- The magic behind `n` zeros is the first. -/
theorem zeros_magic (n : Nat) : ((zeros n [0xFE#8]).acc ++ [])[n]? = some 0xFE#8 ∧
    ∀ (i : Nat) (x : Byte), 1 ≤ i → i < n → ((zeros n [0xFE#8]).acc ++ [])[i]? = some x → x ≠ 0xFE#8 ∧ x ≠ 0xFD#8 := by
  simp only [zeros, List.append_nil]
  refine ⟨by simp, fun i x _ hi h => ?_⟩
  rw [List.getElem?_append_left (by simpa using hi)] at h
  rw [List.eq_of_mem_replicate (List.mem_of_getElem? h)]
  decide
/-- 1121 bytes of which the last is the first magic. -/
theorem witness_ForcedResync_magic : (zeros 1120 [0xFE#8]).params.resyncThreshold < ((zeros 1120 [0xFE#8]).acc ++ []).length ∧
    ((zeros 1120 [0xFE#8]).acc ++ [])[1120]? = some 0xFE#8 := by
  refine ⟨?_, (zeros_magic 1120).1⟩
  simp only [zeros, List.append_nil, List.length_append, List.length_replicate]
  decide
theorem witness_ForcedResync_found : (args [0#32, 15#32] (ram 0 bytesF2 lenient)).holds 0 bytesF2 ∧
    lenient.scanBuffer (accBuffer (lenient.acc ++ bytesF2)) 0 15 lenient.replayMap = .ok ⟨some (0, 15), 0, []⟩ ∧
    after (exec .raPush (args [0#32, 15#32] (ram 0 bytesF2 lenient))) (fun _ => true) = true := by decide +kernel
/-- Four pushes, one empty, that cut two frames anywhere. -/
def cuts : List (Nat × List Byte) :=
  [(0, bytesF1.take 10), (8000, bytesF1.drop 10 ++ bytesF2.take 1), (5, []), (8178, bytesF2.drop 1)]
theorem witness_ChunkingInvariance : lenient.params.Legal ∧ lenient.enable = true ∧ lenient.strict = false ∧
    lenient.acc = [] ∧ (∀ i ∈ [Instr.frameV2 f1, .frameV1 f2], i.wf = true ∧ opcodeOf i = none) ∧
    (∀ p ∈ cuts, p.1 + p.2.length ≤ lenient.params.memSize ∧ Config.maxFrame + p.2.length ≤ lenient.params.raCapMax) ∧
    (cuts.map Prod.snd).flatten = ([Instr.frameV2 f1, .frameV1 f2].map encode).flatten := by decide +kernel

theorem witness_FrameArrivalLenient : (Instr.frameV2Signed { f3 with payload := long } t3).wf = true ∧
    opcodeOf (.frameV2Signed f3 t3) = none ∧ off.enable = false ∧ small.enable = true ∧ small.strict = false ∧
    small.acc = [] ∧ (encode (.frameV2Signed { f3 with payload := long } t3)).length = small.params.raCapMax ∧
    small.params.raCapMax < { small with acc := [0#8] }.acc.length +
      (encode (.frameV2Signed { f3 with payload := long } t3)).length := by decide +kernel
theorem witness_FrameArrivalStrict : (Instr.frameV1 f2).wf = true ∧ opcodeOf (.frameV1 f2) = none ∧ on.enable = true ∧
    on.strict = true ∧ on.acc = [] ∧ (encode (.frameV1 f2)).length ≤ on.params.raCapMax ∧
    decodeHeader (accBuffer (encode (.frameV1 f2))) 0 15 = .ok h2 ∧
    on.strictOk (accBuffer (encode (.frameV1 f2))) 0 h2 on.replayMap = .ok (.accept, []) := by decide +kernel

theorem witness_ErrorsChangeOnlyStatus : after (exec .scan off) (fun t => t.err != .ok) = true ∧
    after (exec (.frameV1 f2) off) (fun t => t.err != .ok) = true := by decide +kernel
theorem witness_ErrorMatrix : after (exec .packV2 pack2) (fun _ => true) = true ∧
    after (exec .raPush off) (fun _ => true) = true := by decide +kernel
theorem witness_InstanceCommands : opcodeOf .raPush ≠ none ∧ off.enable = false ∧
    after (exec .rplGet off) (fun t => t.err == .notEnabled) = true := by decide +kernel
theorem witness_CommandsKeepTheRest : after (exec .packV1 pack1) (fun _ => true) = true ∧
    after (exec (.frameV2Signed f3 t3) lenient) (fun _ => true) = true := by decide +kernel
theorem witness_ConfigurationFrozen : after (step (host (wr 0x010#16 0#32) on)) (fun t => t.enable && on.enable) = true := by
  decide +kernel
theorem witness_FrameOutAppendOnly : after (step (host (commandWrite 0x40#8) stagedF2)) (fun t => t.frameOut.length == 1) =
    true := by decide +kernel
theorem witness_ResetMeetsInvariant : table.Legal ∧ smallSizes.Legal ∧ { table with memSize := 512 }.Legal ∧
    { table with memSize := 32768 }.Legal ∧ ¬ { table with memSize := 511 }.Legal := by decide
theorem witness_StepKeepsInvariant : after (step (host (wr 0x004#16 1#32) State.reset)) (fun t => t.enable) = true := by
  decide +kernel
/-- The invariant holds of the state in which an instance has just been enabled. -/
theorem witness_StepKeepsInvariant_inv : State.Inv on :=
  ⟨⟨rfl, fun _ _ => rfl⟩, ⟨rfl, fun _ _ => rfl⟩, ⟨rfl, fun _ _ => rfl⟩, by decide, rfl, fun _ _ => rfl,
    fun _ _ h => (nomatch h), fun _ => by decide, by decide, fun h => (nomatch h)⟩

end Sys2Proof.Tests
end

/-! The invariant of the machine: it holds after hardware reset, and every step keeps it (R6, R30, R33, R36 to R38, R130,
R231, R232). -/

namespace Sys2Proof.Machine

/-! ### The records of the anti-replay map -/

/-- What the invariant says of REPLAY_MAP (R38, R130, R134): canonical, composite keys, 48-bit timestamps. -/
structure ReplayMap.Sound (m : ReplayMap) : Prop where
  canonical : Sparse.wf m = true
  keys : ∀ k, 2 ^ 24 ≤ k → Sparse.get m k = none
  values : ∀ k v, Sparse.get m k = some v → v.toNat < 2 ^ 48

/-- The empty map that ENABLE begins with (R231). -/
theorem ReplayMap.sound_nil : ReplayMap.Sound [] := ⟨rfl, fun _ _ => rfl, nofun⟩

/-- A record at a composite key with a 48-bit timestamp keeps the map sound (R132, R186). -/
theorem ReplayMap.Sound.put {m : ReplayMap} (hm : m.Sound) {k : Nat} {v : BitVec 64} (hk : k < 2 ^ 24)
    (hv : v.toNat < 2 ^ 48) : (m.put k v).Sound where
  canonical := Sparse.wf_put m k v hm.canonical
  keys k' hk' := by
    rw [ReplayMap.put, Sparse.get_put_other m (by omega)]
    exact hm.keys k' hk'
  values k' v' h := by
    rw [ReplayMap.put, Sparse.get_put] at h
    split at h
    · cases h
      exact hv
    · exact hm.values k' v' h

/-- What a strict check does to the map keeps it sound. -/
theorem MapStep.sound {m m' : ReplayMap} (h : MapStep m m') (hm : m.Sound) : m'.Sound := by
  cases h with
  | same => exact hm
  | put k v hk hv _ => exact hm.put hk hv

/-- A scan keeps the map sound (R181, R187). -/
theorem scanBuffer_sound {s : State} {b : Buffer} {start stop : Nat} {m : ReplayMap} {r : Scan} (hle : start ≤ stop)
    (hm : m.Sound) (h : s.scanBuffer b start stop m = .ok r) : r.map.Sound :=
  (scanFrom_ok ReplayMap.Sound (fun _ _ _ _ hm hr => (strictOk_mapStep hr).sound hm) (by omega) hm h).1

/-- The scan loop of a push keeps the map sound (R212). -/
theorem drain_sound {s : State} {acc : List Byte} {d : Drain} (hm : s.replayMap.Sound) (h : s.drain acc = .ok d) :
    d.map.Sound :=
  (drainFrom_ok ReplayMap.Sound (fun _ _ _ _ hm hr => (strictOk_mapStep hr).sound hm) (Nat.zero_le _) (by omega) hm h).1

/-! ### What the invariant does not read, and what it asks of a write -/

section Keeps

variable {s : State}

/-- The invariant's three clauses on the map. -/
theorem State.Inv.sound (hi : s.Inv) : s.replayMap.Sound := ⟨hi.mapCanonical, hi.mapKeys, hi.mapValues⟩

/-- A result or an error code is no part of the invariant. -/
theorem State.Inv.report (hi : s.Inv) (res : Vector Word 4) (err : ErrCode) :
    State.Inv { s with res := res, err := err } := { hi with }

/-- An error code is no part of the invariant. -/
theorem State.Inv.setErr (hi : s.Inv) (err : ErrCode) : (s.setErr err).Inv := hi.report s.res err

/-- The host's accesses and the bus's answers are no part of the invariant (log 1, 2). -/
theorem State.Inv.answer (hi : s.Inv) (rest : List HostAccess) (r : Response) :
    ((s.setPending rest).respond r).Inv := { hi with }

/-- Bytes stored inside FRAME_RAM (R36). -/
theorem State.Inv.storeBytes (hi : s.Inv) {a : Nat} {bytes : List Byte} (hfit : a + bytes.length ≤ s.params.memSize) :
    (s.setFrameRam (s.frameRam.writeBytes a bytes)).Inv :=
  { hi with frameRam := Memory.within_writeBytes a bytes hi.frameRam hfit }

/-- A sound map, while ENABLE is 1 (R38). -/
theorem State.Inv.setReplayMap (hi : s.Inv) (he : s.enable = true) {m : ReplayMap} (hm : m.Sound) :
    (s.setReplayMap m).Inv :=
  { hi with
    mapCanonical := hm.canonical, mapKeys := hm.keys, mapValues := hm.values
    disabled := fun h => absurd (he.symm.trans h) (by decide) }

/-- Without an accumulated byte, whatever ENABLE is (R216). -/
theorem State.Inv.dropAcc (hi : s.Inv) : (s.setAcc [] s.raCap).Inv :=
  { hi with
    accBounds := ⟨Nat.zero_le _, hi.accBounds.2⟩
    disabled := fun h =>
      have ⟨hmap, _, hcap⟩ := hi.disabled h
      ⟨hmap, rfl, hcap⟩ }

/-- What a push leaves of an appended buffer that fits (R211 to R214): a part of it, in a capacity grown for the whole. -/
theorem State.Inv.setDrain (hi : s.Inv) (he : s.enable = true) {acc : List Byte} {d : Drain}
    (hfit : acc.length ≤ s.params.raCapMax) (hd : s.drain acc = .ok d) : (s.setDrain acc d).Inv := by
  obtain ⟨-, hmost, hinit⟩ := hi.accBounds
  obtain ⟨hholds, hcap, hgrow⟩ := growCap_bounds hmost hfit
  have hleft : (acc.drop (s.dropped acc d.cursor)).length ≤ acc.length := by
    rw [List.length_drop]
    exact Nat.sub_le _ _
  exact { hi.setReplayMap he (drain_sound hi.sound hd) with
    accBounds := ⟨hleft.trans hholds, hcap, hinit.trans hgrow⟩
    disabled := fun h => absurd (he.symm.trans h) (by decide) }

/-- ENABLE cleared, or set afresh from a legal configuration (R231 to R233). -/
theorem State.Inv.restart (hi : s.Inv) (on : Bool) (err : ErrCode)
    (hon : on = true → s.mapLoadFactor ≠ 0#16 ∧ s.rxKeyLen.toNat ≤ s.params.keyMax) :
    State.Inv { s with enable := on, replayMap := [], acc := [], raCap := s.params.raInitCap, err := err } := by
  obtain ⟨-, -, ⟨hcap, -⟩, -⟩ := hi.sizes
  exact { hi with
    accBounds := ⟨Nat.zero_le _, hcap, Nat.le_refl _⟩
    mapCanonical := ReplayMap.sound_nil.canonical
    mapKeys := ReplayMap.sound_nil.keys
    mapValues := ReplayMap.sound_nil.values
    configured := hon
    disabled := fun _ => ⟨rfl, rfl, rfl⟩ }

/-! ### Instructions and CTRL writes -/

/-- A chunk that arrives as a wire frame (R211; log 8). -/
theorem receive_keeps_inv {t : State} {bytes : List Byte} (hi : s.Inv) (h : receive bytes s = .next t) : t.Inv := by
  obtain ⟨d, he, hfit, hd, rfl⟩ | ⟨c, -, rfl, -⟩ := receive_next h
  · exact (hi.setDrain he (by rwa [List.length_append]) hd).setErr .ok
  · exact hi.setErr c

/-- Every instruction keeps the invariant. The commands that report change results and the error code only; the packers
store inside FRAME_RAM; SCAN and the pushes leave a sound map. -/
theorem exec_keeps_inv {i : Instr} {t : State} (hi : s.Inv) (h : exec i s = .next t) : t.Inv := by
  cases i with
  | cksum => obtain ⟨_, rfl⟩ | ⟨_, rfl⟩ := execCksum_next h <;> exact hi.report _ _
  | fvDecode => obtain ⟨_, _, rfl⟩ | ⟨_, rfl⟩ := execFvDecode_next h <;> exact hi.report _ _
  | fvValidateCrc => obtain ⟨_, _, _, rfl⟩ | ⟨_, rfl⟩ := execFvValidateCrc_next h <;> exact hi.report _ _
  | fvHasSig => obtain ⟨_, rfl⟩ | ⟨_, rfl⟩ := execFvHasSig_next h <;> exact hi.report _ _
  | fvValidateSig => obtain ⟨_, rfl⟩ | ⟨_, rfl⟩ := execFvValidateSig_next h <;> exact hi.report _ _
  | fvSigTimestamp => obtain ⟨_, _, rfl⟩ | ⟨_, rfl⟩ := execFvSigTimestamp_next h <;> exact hi.report _ _
  | fvSigLinkId => obtain ⟨_, rfl⟩ | ⟨_, rfl⟩ := execFvSigLinkId_next h <;> exact hi.report _ _
  | rplGet => obtain ⟨_, _, _, rfl⟩ | ⟨_, rfl⟩ := execRplGet_next h <;> exact hi.report _ _
  | packV1 =>
    obtain ⟨bytes, -, -, hfit, -, rfl⟩ | ⟨c, -, rfl⟩ := execPackV1_next h
    · exact (hi.storeBytes hfit).report _ _
    · exact hi.setErr c
  | packV2 =>
    obtain ⟨_, _, bytes, -, -, -, -, -, -, -, -, -, hfit, rfl⟩ | ⟨c, -, rfl⟩ := execPackV2_next h
    · exact (hi.storeBytes hfit).report _ _
    · exact hi.setErr c
  | scan =>
    obtain ⟨r, he, -, hle, hr, rfl⟩ | ⟨c, -, rfl, -⟩ := execScan_next h
    · obtain ⟨res, hres⟩ := State.setScan_eq s r
      rw [hres]
      exact (hi.setReplayMap he (scanBuffer_sound hle hi.sound hr)).report res .ok
    · exact hi.setErr c
  | raPush =>
    obtain ⟨chunk, d, he, -, -, -, hfit, hd, rfl⟩ | ⟨c, -, rfl, -⟩ := execRaPush_next h
    · exact (hi.setDrain he (by rwa [List.length_append]) hd).setErr .ok
    · exact hi.setErr c
  | raDrop =>
    cases h
    exact hi.dropAcc.setErr .ok
  | frameV1 f => exact receive_keeps_inv hi h
  | frameV2 f => exact receive_keeps_inv hi h
  | frameV2Signed f tr => exact receive_keeps_inv hi h

/-- Every CTRL write keeps the invariant (R230 to R233). -/
theorem writeCtrl_keeps_inv (hi : s.Inv) (v : Word) : (writeCtrl v s).Inv := by
  obtain ⟨c, h⟩ | h | ⟨-, hlf, hkey, h⟩ := writeCtrl_cases v s <;> rw [h]
  · exact hi.setErr c
  · exact hi.restart false .ok nofun
  · exact hi.restart true .ok fun _ => ⟨hlf, hkey⟩

end Keeps

/-- A memory in which nothing is written has any size. -/
theorem Memory.within_nil (size : Nat) : Memory.within [] size := ⟨rfl, fun _ _ => rfl⟩

/-- Hardware reset of a machine of legal sizes (R271; log 7). -/
theorem State.resetWith_inv {p : Params} (hp : p.Legal) : (State.resetWith p).Inv := by
  have ⟨_, _, ⟨hcap, _⟩, _⟩ := hp
  exact {
    frameRam := Memory.within_nil _
    rxKey := Memory.within_nil _
    opKey := Memory.within_nil _
    accBounds := ⟨Nat.zero_le _, hcap, Nat.le_refl _⟩
    mapCanonical := ReplayMap.sound_nil.canonical
    mapKeys := ReplayMap.sound_nil.keys
    mapValues := ReplayMap.sound_nil.values
    configured := nofun
    sizes := hp
    disabled := fun _ => ⟨rfl, rfl, rfl⟩ }

/-- R6's default sizes are legal (log 7). -/
theorem defaultParams_legal : Params.default.Legal := by decide

/-- Settles O60: every outcome of a step is an access that changes no field the invariant reads, an instruction, a CTRL
write, a configuration write while ENABLE is 0, or a store inside its memory. -/
theorem stepKeepsInvariant : Obligations.StepKeepsInvariant := by
  unfold Obligations.StepKeepsInvariant
  intro s t hi h
  obtain rfl | ⟨rest, hcase⟩ := step_inv h
  · exact hi
  have hdone := hi.answer rest .done
  obtain ⟨r, rfl⟩ | ⟨i, hexec⟩ | ⟨c, -, rfl⟩ | ⟨v, rfl⟩ | ⟨hoff, _, _, _, _, _, _, _, hrx, rfl⟩ |
    ⟨_, _, _, _, hop, hram, rfl⟩ := hcase
  · exact hi.answer rest r
  · exact exec_keeps_inv hdone hexec
  · exact hdone.setErr c
  · exact writeCtrl_keeps_inv hdone v
  · exact { hdone with
      rxKey := hrx hi.rxKey
      configured := fun hon => absurd (hoff.symm.trans hon) (by decide) }
  · exact { hdone with opKey := hop hi.opKey, frameRam := hram hi.frameRam }

/-- Settles O59: nothing is written, the map and ACC are empty, ENABLE is 0, and R6's defaults are legal. -/
theorem resetMeetsInvariant : Obligations.ResetMeetsInvariant :=
  ⟨State.resetWith_inv defaultParams_legal, fun _ => State.resetWith_inv⟩

end Sys2Proof.Machine

/-! What an instruction may change, and what no step changes: the configuration while CTRL.ENABLE is 1, and the
records already in FRAME_OUT (R31, R35 to R38, R41, R43, R275). -/

namespace Sys2Proof.Machine

/-! ### What an instruction may change -/

/-- What the instruction `i` started in the first state may leave: the results and STATUS.ERR may change in every case,
and each case names what may change beside them (R36 to R38, R41; log 8 for the wire rows). -/
inductive Effect (s : State) : Instr → State → Prop where
  /-- Nothing else: a command that reports, or an error. -/
  | report {i : Instr} (res : Vector Word 4) (err : ErrCode) : Effect s i { s with res := res, err := err }
  /-- FRAME_RAM, by a packer. -/
  | pack {i : Instr} (hi : i = .packV1 ∨ i = .packV2) (res : Vector Word 4) (err : ErrCode) (ram : Memory) :
      Effect s i { s with res := res, err := err, frameRam := ram }
  /-- The map, by SCAN. -/
  | scan (res : Vector Word 4) (err : ErrCode) (m : ReplayMap) :
      Effect s .scan { s with res := res, err := err, replayMap := m }
  /-- ACC, by RA_DROP. -/
  | drop (res : Vector Word 4) (err : ErrCode) (acc : List Byte) :
      Effect s .raDrop { s with res := res, err := err, acc := acc }
  /-- The map, ACC, RA_CAP and new FRAME_OUT records, by a chunk that RA_PUSH or a frame brings. -/
  | push {i : Instr} (hi : i = .raPush ∨ opcodeOf i = none) (res : Vector Word 4) (err : ErrCode) (m : ReplayMap)
      (acc : List Byte) (cap : Nat) (records : List (List Byte)) :
      Effect s i { s with
        res := res, err := err, replayMap := m, acc := acc, raCap := cap, frameOut := s.frameOut ++ records }

/-- Two result registers written one after the other (R100). -/
theorem State.setRes_setRes (s : State) (i j : Fin 4) (v w : Word) :
    (s.setRes i v).setRes j w = { s with res := (s.res.set i v).set j w } := rfl

/-- What a drained chunk leaves is a push (R213 to R215). -/
theorem setDrain_effect {i : Instr} (hi : i = .raPush ∨ opcodeOf i = none) (s : State) (acc : List Byte) (d : Drain) :
    Effect s i ((s.setDrain acc d).setErr .ok) := by
  rw [State.setDrain_eq]
  exact .push hi _ .ok _ _ _ _

/-- A frame that arrives has the effect of a chunk, or an error (R211; log 8). -/
theorem receive_effect {i : Instr} {s t : State} {bytes : List Byte} (ho : opcodeOf i = none)
    (h : receive bytes s = .next t) : Effect s i t := by
  obtain ⟨d, -, -, -, rfl⟩ | ⟨_, -, rfl, -⟩ := receive_next h
  · exact setDrain_effect (.inr ho) s _ d
  · exact .report _ _

/-- Every instruction has one of the effects. -/
theorem exec_effect {i : Instr} {s t : State} (h : exec i s = .next t) : Effect s i t := by
  cases i with
  | cksum => obtain ⟨_, rfl⟩ | ⟨_, rfl⟩ := execCksum_next h <;> exact .report _ _
  | fvDecode => obtain ⟨_, _, rfl⟩ | ⟨_, rfl⟩ := execFvDecode_next h <;> exact .report _ _
  | fvValidateCrc =>
    obtain ⟨_, _, _, rfl⟩ | ⟨_, rfl⟩ := execFvValidateCrc_next h
    · rw [State.setRes_setRes]
      exact .report _ _
    · exact .report _ _
  | fvHasSig => obtain ⟨_, rfl⟩ | ⟨_, rfl⟩ := execFvHasSig_next h <;> exact .report _ _
  | fvValidateSig => obtain ⟨_, rfl⟩ | ⟨_, rfl⟩ := execFvValidateSig_next h <;> exact .report _ _
  | fvSigTimestamp => obtain ⟨_, _, rfl⟩ | ⟨_, rfl⟩ := execFvSigTimestamp_next h <;> exact .report _ _
  | fvSigLinkId => obtain ⟨_, rfl⟩ | ⟨_, rfl⟩ := execFvSigLinkId_next h <;> exact .report _ _
  | rplGet =>
    obtain ⟨_, _, _, rfl⟩ | ⟨_, rfl⟩ := execRplGet_next h
    · rw [State.setRes_setRes]
      exact .report _ _
    · exact .report _ _
  | packV1 =>
    obtain ⟨_, -, -, -, -, rfl⟩ | ⟨_, -, rfl⟩ := execPackV1_next h
    · exact .pack (.inl rfl) _ _ _
    · exact .report _ _
  | packV2 =>
    obtain ⟨_, _, _, -, -, -, -, -, -, -, -, -, -, rfl⟩ | ⟨_, -, rfl⟩ := execPackV2_next h
    · rw [State.setRes_setRes]
      exact .pack (.inr rfl) _ _ _
    · exact .report _ _
  | scan =>
    obtain ⟨r, -, -, -, -, rfl⟩ | ⟨_, -, rfl, -⟩ := execScan_next h
    · obtain ⟨res, hres⟩ := State.setScan_eq s r
      rw [hres]
      exact .scan res .ok r.map
    · exact .report _ _
  | raPush =>
    obtain ⟨_, d, -, -, -, -, -, -, rfl⟩ | ⟨_, -, rfl, -⟩ := execRaPush_next h
    · exact setDrain_effect (.inl rfl) s _ d
    · exact .report _ _
  | raDrop =>
    cases h
    exact .drop _ _ _
  | frameV1 f => exact receive_effect rfl h
  | frameV2 f => exact receive_effect rfl h
  | frameV2Signed f tr => exact receive_effect rfl h

/-- Settles O56: in each effect, a field that the statement lets the instruction change is the next state's own, and
every other field is the first state's. -/
theorem commandsKeepTheRest : Obligations.CommandsKeepTheRest := by
  unfold Obligations.CommandsKeepTheRest
  intro i s t h
  cases exec_effect h with
  | report res err => simp only [ite_self]
  | pack hi res err ram => simp only [if_pos hi, ite_self]
  | scan res err m => simp only [true_or, if_true, ite_self]
  | drop res err acc => simp only [true_or, or_true, if_true, ite_self]
  | push hi res err m acc cap records =>
    have hmap : i = .scan ∨ i = .raPush ∨ opcodeOf i = none := .inr hi
    have hacc : i = .raPush ∨ i = .raDrop ∨ opcodeOf i = none := hi.imp_right .inr
    simp only [if_pos hi, if_pos hmap, if_pos hacc, ite_self]

/-! ### The configuration while CTRL.ENABLE is 1 -/

/-- The fields that R35 freezes while CTRL.ENABLE is 1. -/
def State.config (s : State) : BitVec 5 × Word × Word × Word × BitVec 16 × BitVec 8 × Memory :=
  (s.options, s.windowLo, s.windowHi, s.mapInitCap, s.mapLoadFactor, s.rxKeyLen, s.rxKey)

/-- No instruction changes the configuration (R35, R43). -/
theorem exec_config {i : Instr} {s t : State} (h : exec i s = .next t) : t.config = s.config := by
  cases exec_effect h <;> rfl

/-- No CTRL write changes the configuration (R230 to R233). -/
theorem writeCtrl_config (v : Word) (s : State) : (writeCtrl v s).config = s.config := by
  obtain ⟨_, h⟩ | h | ⟨-, -, -, h⟩ := writeCtrl_cases v s <;> rw [h] <;> rfl

/-- While CTRL.ENABLE is 1 no step changes the configuration: the one that could is a write to the frozen group, which
stores only while it is 0 (R234). -/
theorem step_config {s t : State} (h : step s = .next t) (he : s.enable = true) : t.config = s.config := by
  obtain rfl | ⟨rest, ⟨r, rfl⟩ | ⟨i, hexec⟩ | ⟨c, -, rfl⟩ | ⟨v, rfl⟩ | ⟨hoff, -⟩ | ⟨_, _, _, _, -, -, rfl⟩⟩ := step_inv h
  · rfl
  · rfl
  · exact (exec_config hexec :)
  · rfl
  · exact writeCtrl_config v _
  · exact absurd (he.symm.trans hoff) (by decide)
  · rfl

/-- Settles O57, by `step_config`. That CTRL.ENABLE is still 1 after the step is not needed: clearing it leaves the
configuration as well. -/
theorem configurationFrozen : Obligations.ConfigurationFrozen := by
  unfold Obligations.ConfigurationFrozen
  intro s t h he _
  simpa only [State.config, Prod.mk.injEq] using step_config h he

/-! ### FRAME_OUT -/

/-- An instruction appends to FRAME_OUT or leaves it (R41). -/
theorem exec_frameOut {i : Instr} {s t : State} (h : exec i s = .next t) : s.frameOut <+: t.frameOut := by
  cases exec_effect h with
  | push hi res err m acc cap records => exact List.prefix_append _ _
  | _ => exact List.prefix_rfl

/-- A CTRL write leaves FRAME_OUT: neither a soft reset nor a disable takes a record back (R232, R233). -/
theorem writeCtrl_frameOut (v : Word) (s : State) : (writeCtrl v s).frameOut = s.frameOut := by
  obtain ⟨_, h⟩ | h | ⟨-, -, -, h⟩ := writeCtrl_cases v s <;> rw [h] <;> rfl

/-- Settles O58: of a step's outcomes only an instruction touches FRAME_OUT, and it appends. -/
theorem frameOutAppendOnly : Obligations.FrameOutAppendOnly := by
  unfold Obligations.FrameOutAppendOnly
  intro s t h
  obtain rfl | ⟨rest, ⟨r, rfl⟩ | ⟨i, hexec⟩ | ⟨c, -, rfl⟩ | ⟨v, rfl⟩ | ⟨-, _, _, _, _, _, _, _, -, rfl⟩ |
    ⟨_, _, _, _, -, -, rfl⟩⟩ := step_inv h
  · exact List.prefix_rfl
  · exact List.prefix_rfl
  · exact (exec_frameOut hexec :)
  · exact List.prefix_rfl
  · rw [writeCtrl_frameOut]
    exact List.prefix_rfl
  · exact List.prefix_rfl
  · exact List.prefix_rfl

end Sys2Proof.Machine

/-! Writes of COMMAND: the command that a write's bytes start, and the table row that a placed word is (R63, R95, R215,
R235; log 9). -/

namespace Sys2Proof.Machine

/-! ### A step that writes COMMAND -/

/-- A write of four bytes to COMMAND issues the word they are, once the access is taken (R61, R62, R235). -/
theorem step_commandWrite {s : State} {data : List Byte} {rest : List HostAccess}
    (hp : s.pending = .write commandOffset data :: rest) (hl : data.length = 4) :
    step s = issue (BitVec.ofNat 32 (fromLE data)) ((s.setPending rest).respond .done) := by
  have hlegal : legalAccess (s.setPending rest).params.memSize commandOffset.toNat data.length = true := by
    rw [hl]
    rfl
  rw [step_write hp, hostWrite_memory hlegal]
  rfl

/-- A legal word issues its command (R63, R235). -/
theorem issue_of_decodeCommand {w : Word} {i : Instr} (h : decodeCommand w = .ok i) (s : State) :
    issue w s = exec i s := by
  simp only [issue, h]

/-- The word of a command's opcode is legal and stands for that command (R95 to R97). -/
theorem decodeCommand_commandWord {i : Instr} {op : Byte} (h : opcodeOf i = some op) :
    decodeCommand (commandWord op) = .ok i := by
  cases i <;> cases h <;> decide

/-- A command's bytes are its word, least significant first (R62, R95). -/
theorem encode_of_opcodeOf {i : Instr} {op : Byte} (h : opcodeOf i = some op) :
    encode i = leBytes 4 (commandWord op).toNat := by
  simp only [encode, h]

/-- A step that writes an opcode's word to COMMAND runs the opcode's command (R63, R101, R235). -/
theorem step_commandWrite_opcode {s : State} {i : Instr} {op : Byte} {rest : List HostAccess}
    (hop : opcodeOf i = some op) (hp : s.pending = commandWrite op :: rest) :
    step s = exec i ((s.setPending rest).respond .done) := by
  rw [step_commandWrite hp (leBytes_length 4 _), ofNat32_leBytes,
    issue_of_decodeCommand (decodeCommand_commandWord hop)]

/-- Settles O5: the bytes of a command are the word of its opcode, which a COMMAND write of them issues. -/
theorem stepRunsCommand : Obligations.StepRunsCommand := by
  unfold Obligations.StepRunsCommand
  intro s i rest hi hp
  obtain ⟨op, hop⟩ := Option.ne_none_iff_exists'.mp hi
  rw [encode_of_opcodeOf hop] at hp
  exact step_commandWrite_opcode hop hp

/-! ### What the decoder reads: a frame or a command word -/

/-- What follows a version 1 magic decodes to a well-formed frame (R81). -/
theorem decodeV1_frame {bs rest : List Byte} {i : Instr} (h : decodeV1 bs = .ok (i, rest)) :
    i.wf = true ∧ opcodeOf i = none := by
  unfold decodeV1 at h
  split at h
  next n _ _ _ _ body =>
    split at h
    · cases h
    · cases h
      have hpay : (body.take n.toNat).length ≤ 255 := (List.length_take_le _ _).trans (by omega)
      exact ⟨decide_eq_true hpay, rfl⟩
  next => cases h

/-- The hash of a whole trailer is 6 bytes (R84). -/
theorem decodeTrailer_wf {bs : List Byte} (h : 13 ≤ bs.length) : (decodeTrailer bs).wf = true := by
  simp only [Trailer.wf, decodeTrailer, List.length_take, List.length_drop, decide_eq_true_eq]
  omega

/-- What follows a version 2 magic decodes to a well-formed frame, whose signed bit says which (R80, R82, R84). -/
theorem decodeV2_frame {bs rest : List Byte} {i : Instr} (h : decodeV2 bs = .ok (i, rest)) :
    i.wf = true ∧ opcodeOf i = none := by
  unfold decodeV2 at h
  split at h
  next n inc _ _ _ _ _ _ _ body =>
    have hpay : (body.take n.toNat).length ≤ 255 := (List.length_take_le _ _).trans (by omega)
    split at h
    next hsigned =>
      split at h
      · cases h
      · cases h
        have htrailer : (decodeTrailer (body.drop (n.toNat + 2))).wf = true :=
          decodeTrailer_wf (by rw [List.length_drop]; omega)
        refine ⟨?_, rfl⟩
        simp only [Instr.wf, FrameV2.wf, FrameV2.signedBit, decide_eq_true hpay, hsigned, htrailer, Bool.and_self]
    next hunsigned =>
      split at h
      · cases h
      · cases h
        refine ⟨?_, rfl⟩
        simp only [Instr.wf, FrameV2.wf, FrameV2.signedBit, decide_eq_true hpay, hunsigned, Bool.not_false,
          Bool.and_self]
  next => cases h

/-- A frame at the front of some bytes is well-formed (R80, R94). -/
theorem decodeFrame_frame {bs rest : List Byte} {i : Instr} (h : decodeFrame bs = .ok (i, rest)) :
    i.wf = true ∧ opcodeOf i = none := by
  unfold decodeFrame at h
  split at h
  · cases h
  · split at h
    · exact decodeV1_frame h
    · exact decodeV2_frame h
    · cases h

/-- Bytes that decode begin with a frame, or else with a legal command word (R80, R95 to R97). -/
theorem decode_cases {bs rest : List Byte} {i : Instr} (h : decode bs = .ok (i, rest)) :
    decodeFrame bs = .ok (i, rest) ∨
      decodeFrame bs = .error .notAMagic ∧ 4 ≤ bs.length ∧
        decodeCommand (BitVec.ofNat 32 (fromLE (bs.take 4))) = .ok i := by
  unfold decode at h
  split at h
  · cases h
  next b tail =>
    split at h
    · exact .inl h
    next hmagic =>
      have hversion : versionOf b = none := by simpa [isMagic] using hmagic
      split at h
      · cases h
      · split at h
        next j hj =>
          cases h
          exact .inr ⟨by simp only [decodeFrame, hversion], by omega, hj⟩
        next => cases h

/-- A frame is no longer than MAX_FRAME (R93). -/
theorem encode_length_le {i : Instr} (hw : i.wf = true) (ho : opcodeOf i = none) :
    (encode i).length ≤ Config.maxFrame := by
  obtain ⟨h, -, -, -, hlen, -⟩ := encode_view hw ho
  rw [← hlen]
  exact h.totalLen_bounds.2

/-! ### RA_PUSH and the frame that it brings -/

/-- RA_PUSH of a range of FRAME_RAM that holds a chunk is the chunk's arrival (R215; log 8). -/
theorem execRaPush_eq_receive {s : State} {chunk : List Byte} (hl : s.argNat 1 = chunk.length)
    (hfit : s.argNat 0 + chunk.length ≤ s.params.memSize) (hh : s.holds (s.argNat 0) chunk) :
    exec .raPush s = receive chunk s := by
  have hmem : s.inMem (s.argNat 0) chunk.length := hfit
  simp only [exec, execRaPush, receive, hl, require_pos hmem, State.readBytes_ram hh, run_ok_bind]

/-- A chunk just placed in FRAME_RAM is held there (R10). -/
theorem State.holds_writeBytes (s : State) (a : Nat) (L : List Byte) :
    (s.setFrameRam (s.frameRam.writeBytes a L)).holds a L :=
  fun _ hi => Memory.read_writeBytes_inside s.frameRam a L hi

/-! ### A placed word -/

/-- A staged frame's RA_PUSH operands: the index of its bytes (log 9). -/
theorem State.stageFrame_argNat_zero (s : State) (bytes : List Byte) : (s.stageFrame bytes).argNat 0 = 0 := by
  have h : (s.stageFrame bytes).arg 0 = 0#32 :=
    (State.arg_setArg_other _ (by decide) _).trans (State.arg_setArg_same _ 0 0#32)
  rw [State.argNat, h]
  rfl

/-- A staged frame's RA_PUSH operands: the number of its bytes (log 9). -/
theorem State.stageFrame_argNat_one (s : State) {bytes : List Byte} (h : bytes.length < 2 ^ 32) :
    (s.stageFrame bytes).argNat 1 = bytes.length := by
  have harg : (s.stageFrame bytes).arg 1 = natWord bytes.length := State.arg_setArg_same _ 1 _
  rw [State.argNat, harg, natWord_toNat h]

/-- A staged frame is what the next step takes in, FRAME_RAM having room for it (R211, R215; log 9). -/
theorem step_stageFrame {s : State} {i : Instr} (ho : opcodeOf i = none)
    (hfit : (encode i).length ≤ s.params.memSize) (hlt : (encode i).length < 2 ^ 32) :
    step (s.stageFrame (encode i)) = exec i (((s.stageFrame (encode i)).setPending s.pending).respond .done) := by
  have h0 := s.stageFrame_argNat_zero (encode i)
  have h1 := s.stageFrame_argNat_one hlt
  rw [step_commandWrite_opcode (i := .raPush) rfl rfl, exec_frame ho]
  refine execRaPush_eq_receive h1 ?_ ?_
  · rw [State.respond_argNat, State.setPending_argNat, h0, Nat.zero_add]
    exact hfit
  · rw [State.respond_argNat, State.setPending_argNat, h0]
    exact s.holds_writeBytes 0 (encode i)

/-- Settles O7: the placed bytes begin with a frame, which is staged and taken in by RA_PUSH, or with a command word,
which is written to COMMAND. That the longest frame fits the smallest FRAME_RAM is where the sizes come in. -/
theorem placedWordRuns : Obligations.PlacedWordRuns := by
  unfold Obligations.PlacedWordRuns
  intro s nbits w i hlegal hdecode
  obtain ⟨rest, hbytes⟩ : ∃ rest, decode (tableBytes nbits w) = .ok (i, rest) := by
    unfold decodeTableWord at hdecode
    split at hdecode
    next rest h =>
      cases hdecode
      exact ⟨rest, h⟩
    next => cases hdecode
  obtain hframe | ⟨hnone, hfour, hcommand⟩ := decode_cases hbytes
  · obtain ⟨hw, ho⟩ := decodeFrame_frame hframe
    have hlen : (encode i).length ≤ 280 := encode_length_le hw ho
    obtain ⟨⟨hroom, -⟩, -⟩ := hlegal
    have hplaced : s.withFetchWord nbits w = s.stageFrame (encode i) := by
      simp only [State.withFetchWord, State.placeBytes, hframe]
    rw [hplaced]
    exact step_stageFrame ho (by omega) (by omega)
  · have hplaced : s.withFetchWord nbits w =
        s.setPending (.write commandOffset ((tableBytes nbits w).take 4) :: s.pending) := by
      simp only [State.withFetchWord, State.placeBytes, hnone]
    rw [hplaced, step_commandWrite rfl (List.length_take_of_le hfour), issue_of_decodeCommand hcommand]

end Sys2Proof.Machine

/-! The codec: decoding an encoded instruction gives it back, and bytes that decode are an encoding (R80 to R84, R94 to
R97). -/

namespace Sys2Proof

/-! ### Payload, checksum and trailer -/

/-- Four bytes given back by their 32-bit value (R62). -/
theorem leBytes_ofNat32 {bs : List Byte} (h : bs.length = 4) : leBytes 4 (BitVec.ofNat 32 (fromLE bs)).toNat = bs := by
  have hlt := fromLE_lt bs
  rw [h] at hlt
  have hval : (BitVec.ofNat 32 (fromLE bs)).toNat = fromLE bs := by
    rw [BitVec.toNat_ofNat]
    omega
  rw [hval, ← h, leBytes_fromLE]

/-- The two bytes after the payload are the checksum (R83). -/
theorem checksum_after_payload (payload : List Byte) (crc : BitVec 16) (tail : List Byte) :
    BitVec.ofNat 16 (fromLE (((payload ++ (leBytes 2 crc.toNat ++ tail)).drop payload.length).take 2)) = crc := by
  rw [List.drop_left, List.take_left' (leBytes_length 2 _), ofNat16_leBytes]

/-- What follows the checksum (R81, R82). -/
theorem drop_checksum (payload : List Byte) (crc : BitVec 16) (tail : List Byte) :
    (payload ++ (leBytes 2 crc.toNat ++ tail)).drop (payload.length + 2) = tail := by
  rw [← List.drop_drop, List.drop_left, List.drop_left' (leBytes_length 2 _)]

/-- Payload, checksum and what follows are the bytes they were read from (R81 to R83). -/
theorem payload_checksum_rest {n : Nat} {body : List Byte} (h : n + 2 ≤ body.length) :
    body.take n ++ (leBytes 2 (BitVec.ofNat 16 (fromLE ((body.drop n).take 2))).toNat ++ body.drop (n + 2)) = body := by
  have hcrc : ((body.drop n).take 2).length = 2 := by
    rw [List.length_take, List.length_drop]
    omega
  rw [leBytes_ofNat16 hcrc, ← List.drop_drop, List.take_append_drop, List.take_append_drop]

/-- The payload-length byte is the length of the payload that it cuts off (R81, R82). -/
theorem payloadLen_take {n : Byte} {body : List Byte} (h : n.toNat ≤ body.length) :
    BitVec.ofNat 8 (body.take n.toNat).length = n := by
  rw [List.length_take_of_le h, BitVec.ofNat_toNat, BitVec.setWidth_eq]

/-- A well-formed trailer is read back from its bytes (R84). -/
theorem decodeTrailer_bytes {t : Trailer} (h : t.wf = true) (rest : List Byte) :
    decodeTrailer (t.bytes ++ rest) = t := by
  have hhash : t.hash.length = 6 := of_decide_eq_true h
  have hbytes : t.bytes ++ rest = t.linkId :: (leBytes 6 t.timestamp.toNat ++ (t.hash ++ rest)) := by
    simp only [Trailer.bytes, Trailer.covered, List.cons_append, List.append_assoc]
  rw [hbytes]
  simp only [decodeTrailer, List.headD_cons, List.drop_succ_cons, List.drop_zero,
    List.take_left' (leBytes_length 6 _), List.drop_left' (leBytes_length 6 _), List.take_left' hhash, ofNat48_leBytes]

/-- A trailer's bytes and what follows are the bytes that it was read from (R84). -/
theorem decodeTrailer_bytes_append {bs : List Byte} (h : 13 ≤ bs.length) :
    (decodeTrailer bs).bytes ++ bs.drop 13 = bs := by
  obtain _ | ⟨link, bs⟩ := bs
  · cases h
  have hts : (bs.take 6).length = 6 := List.length_take_of_le (by rw [List.length_cons] at h; omega)
  have hrest : (bs.drop 6).take 6 ++ bs.drop 12 = bs.drop 6 := by
    rw [← List.drop_drop (i := 6) (j := 6), List.take_append_drop]
  simp only [Trailer.bytes, Trailer.covered, decodeTrailer, List.headD_cons, List.drop_succ_cons, List.drop_zero,
    leBytes_ofNat48 hts, List.cons_append, List.append_assoc, hrest, List.take_append_drop]

/-- The bytes of a version 1 frame and what follows, one header field after the other (R81). -/
theorem FrameV1.bytes_append (f : FrameV1) (tail : List Byte) :
    f.bytes ++ tail = magicV1 :: BitVec.ofNat 8 f.payload.length :: f.sequence :: f.systemId :: f.componentId ::
      f.messageId :: (f.payload ++ (leBytes 2 f.checksum.toNat ++ tail)) := by
  simp only [FrameV1.bytes, FrameV1.header, List.cons_append, List.nil_append, List.append_assoc]

/-- The bytes of a version 2 frame and what follows, one header field after the other (R82). -/
theorem FrameV2.bytes_append (f : FrameV2) (tail : List Byte) :
    f.bytes ++ tail = magicV2 :: BitVec.ofNat 8 f.payload.length :: f.incompat :: f.compat :: f.sequence ::
      f.systemId :: f.componentId ::
      (leBytes 3 f.messageId.toNat ++ (f.payload ++ (leBytes 2 f.checksum.toNat ++ tail))) := by
  simp only [FrameV2.bytes, FrameV2.header, List.cons_append, List.nil_append, List.append_assoc]

end Sys2Proof

namespace Sys2Proof.Machine

/-! ### The opcode map -/

/-- Every row of the opcode map is its command under its opcode (R97). -/
theorem opcodeOf_of_mem_commandRows : ∀ r ∈ commandRows, opcodeOf r.instr = some r.opcode := by decide

/-- A word with bits 31:8 zero is the word of its bits 7:0 (R95). -/
theorem commandWord_of_reserved_zero {w : Word} (h : w.extractLsb' 8 24 = 0#24) :
    commandWord (w.extractLsb' 0 8) = w := by
  apply BitVec.eq_of_toNat_eq
  have hhigh := congrArg BitVec.toNat h
  have hlt := w.isLt
  simp only [BitVec.extractLsb'_toNat, BitVec.toNat_ofNat, Nat.shiftRight_eq_div_pow] at hhigh
  simp only [commandWord, BitVec.toNat_setWidth, BitVec.extractLsb'_toNat, Nat.shiftRight_zero]
  omega

/-- The words that decode are those with bits 31:8 zero and bits 7:0 an opcode of the map (R96, R97). -/
theorem decodeCommand_ok_iff {w : Word} {i : Instr} :
    decodeCommand w = .ok i ↔ w.extractLsb' 8 24 = 0#24 ∧ ⟨w.extractLsb' 0 8, i⟩ ∈ commandRows := by
  constructor
  · intro h
    unfold decodeCommand at h
    split at h
    · cases h
    next hzero =>
      split at h
      next r hr =>
        cases h
        have hop : r.opcode = w.extractLsb' 0 8 := by simpa using List.find?_some hr
        exact ⟨not_not.mp hzero, hop ▸ List.mem_of_find?_eq_some hr⟩
      next => cases h
  · rintro ⟨hzero, hrow⟩
    rw [← commandWord_of_reserved_zero hzero]
    exact decodeCommand_commandWord (opcodeOf_of_mem_commandRows _ hrow)

/-- A word that decodes is the word of the command's opcode (R95, R96). -/
theorem eq_commandWord_of_decodeCommand {w : Word} {i : Instr} (h : decodeCommand w = .ok i) :
    ∃ op, opcodeOf i = some op ∧ commandWord op = w := by
  obtain ⟨hzero, hrow⟩ := decodeCommand_ok_iff.mp h
  exact ⟨_, opcodeOf_of_mem_commandRows _ hrow, commandWord_of_reserved_zero hzero⟩

/-- A command word's first byte is its opcode (R62, R95). -/
theorem leBytes_commandWord (op : Byte) : ∃ b1 b2 b3, leBytes 4 (commandWord op).toNat = [op, b1, b2, b3] := by
  have hlow : BitVec.ofNat 8 (commandWord op).toNat = op := by
    rw [commandWord, BitVec.toNat_setWidth_of_le (by decide), BitVec.ofNat_toNat, BitVec.setWidth_eq]
  exact ⟨_, _, _, congrArg (· :: _) hlow⟩

/-- A command is well-formed: its operands are in no field of its own (R95). -/
theorem wf_of_opcodeOf {i : Instr} {op : Byte} (h : opcodeOf i = some op) : i.wf = true := by
  cases i <;> cases h <;> rfl

/-- No opcode is a magic (R80, R97). -/
theorem not_isMagic_of_opcodeOf {i : Instr} {op : Byte} (h : opcodeOf i = some op) : isMagic op = false := by
  cases i <;> cases h <;> decide

/-! ### The two kinds of first byte -/

/-- A magic begins a frame (R80). -/
theorem decode_of_isMagic {b : Byte} (hb : isMagic b = true) (bs : List Byte) :
    decode (b :: bs) = decodeFrame (b :: bs) :=
  if_pos hb

/-- Four bytes that begin with no magic are a command word (R80, R95). -/
theorem decode_of_decodeCommand {b : Byte} {bs : List Byte} {i : Instr} (hb : isMagic b = false)
    (hlen : 4 ≤ (b :: bs).length) (h : decodeCommand (BitVec.ofNat 32 (fromLE ((b :: bs).take 4))) = .ok i) :
    decode (b :: bs) = .ok (i, (b :: bs).drop 4) := by
  have hnot : ¬ (b :: bs).length < 4 := by omega
  simp only [decode, hb, Bool.false_eq_true, if_false, if_neg hnot, h]

/-! ### Decoding a frame's bytes -/

/-- A well-formed version 1 frame is read back from its bytes (R81, R83). -/
theorem decodeFrame_v1_bytes {f : FrameV1} (h : f.wf = true) (tail : List Byte) :
    decodeFrame (f.bytes ++ tail) = .ok (.frameV1 f, tail) := by
  have hn : (BitVec.ofNat 8 f.payload.length).toNat = f.payload.length := ofNat8_toNat (of_decide_eq_true h)
  have hwhole : ¬ (f.payload ++ (leBytes 2 f.checksum.toNat ++ tail)).length < f.payload.length + 2 := by
    simp only [List.length_append, leBytes_length]
    omega
  have hversion : versionOf magicV1 = some .v1 := rfl
  simp only [FrameV1.bytes_append, decodeFrame, hversion, decodeV1, hn, if_neg hwhole, List.take_left,
    checksum_after_payload, drop_checksum]

/-- A well-formed version 2 frame is read back from its bytes, and where its signed bit is set the trailer after it
(R80, R82 to R84, R94). -/
theorem decodeFrame_v2_bytes {f : FrameV2} (h : f.wf = true) (tail : List Byte) :
    decodeFrame (f.bytes ++ tail) =
      if f.signedBit then
        if tail.length < 13 then .error .truncatedFrame else .ok (.frameV2Signed f (decodeTrailer tail), tail.drop 13)
      else .ok (.frameV2 f, tail) := by
  have hn : (BitVec.ofNat 8 f.payload.length).toNat = f.payload.length := ofNat8_toNat (of_decide_eq_true h)
  have hlen : (f.payload ++ (leBytes 2 f.checksum.toNat ++ tail)).length = f.payload.length + (2 + tail.length) := by
    simp only [List.length_append, leBytes_length]
  have hwhole : ¬ f.payload.length + (2 + tail.length) < f.payload.length + 2 := by omega
  have hsigned : (f.payload.length + (2 + tail.length) < f.payload.length + 15) = (tail.length < 13) := by
    simp only [eq_iff_iff]
    omega
  have hafter : (f.payload ++ (leBytes 2 f.checksum.toNat ++ tail)).drop (f.payload.length + 15) = tail.drop 13 := by
    rw [← List.drop_drop (i := 13) (j := f.payload.length + 2), drop_checksum]
  have hversion : versionOf magicV2 = some .v2 := rfl
  obtain ⟨m0, m1, m2, hid⟩ : ∃ m0 m1 m2, leBytes 3 f.messageId.toNat = [m0, m1, m2] := ⟨_, _, _, rfl⟩
  have hmsg : BitVec.ofNat 24 (fromLE [m0, m1, m2]) = f.messageId := by rw [← hid, ofNat24_leBytes]
  simp only [FrameV2.bytes_append, decodeFrame, hversion, hid, List.cons_append, List.nil_append, decodeV2, hn, hmsg,
    hlen, hsigned, hafter, if_neg hwhole, List.take_left, checksum_after_payload, drop_checksum]
  rfl

/-- A well-formed frame is read back from its bytes (R80 to R84). -/
theorem decodeFrame_encode {i : Instr} (hw : i.wf = true) (ho : opcodeOf i = none) (rest : List Byte) :
    decodeFrame (encode i ++ rest) = .ok (i, rest) := by
  cases i with
  | frameV1 f => exact decodeFrame_v1_bytes hw rest
  | frameV2 f =>
    obtain ⟨hf, hs⟩ : f.wf = true ∧ f.signedBit = false := by
      simpa only [Instr.wf, Bool.and_eq_true, Bool.not_eq_true'] using hw
    exact (decodeFrame_v2_bytes hf rest).trans (by rw [hs]; rfl)
  | frameV2Signed f t =>
    obtain ⟨⟨hf, hs⟩, ht⟩ : (f.wf = true ∧ f.signedBit = true) ∧ t.wf = true := by
      simpa only [Instr.wf, Bool.and_eq_true] using hw
    have hlen : t.bytes.length = 13 := by
      rw [Trailer.bytes_length, of_decide_eq_true ht]
    have hwhole : ¬ (t.bytes ++ rest).length < 13 := by
      rw [List.length_append]
      omega
    change decodeFrame ((f.bytes ++ t.bytes) ++ rest) = _
    rw [List.append_assoc, decodeFrame_v2_bytes hf, if_pos hs, if_neg hwhole, decodeTrailer_bytes ht,
      List.drop_left' hlen]
  | _ => cases ho

/-- Bytes that decode as a frame decode as an instruction (R80). -/
theorem decode_of_decodeFrame {bs : List Byte} {r : Instr × List Byte} (h : decodeFrame bs = .ok r) :
    decode bs = .ok r := by
  cases bs with
  | nil => cases h
  | cons b bs =>
    have hb : isMagic b = true := by
      cases hv : versionOf b with
      | none => simp only [decodeFrame, hv, reduceCtorEq] at h
      | some v => rw [isMagic, hv, Option.isSome_some]
    exact (decode_of_isMagic hb bs).trans h

/-- A command is read back from its word (R95 to R97). -/
theorem decode_commandWord {i : Instr} {op : Byte} (h : opcodeOf i = some op) (rest : List Byte) :
    decode (leBytes 4 (commandWord op).toNat ++ rest) = .ok (i, rest) := by
  obtain ⟨b1, b2, b3, hbytes⟩ := leBytes_commandWord op
  have hdecode : decodeCommand (BitVec.ofNat 32 (fromLE [op, b1, b2, b3])) = .ok i := by
    rw [← hbytes, ofNat32_leBytes, decodeCommand_commandWord h]
  rw [hbytes]
  exact decode_of_decodeCommand (not_isMagic_of_opcodeOf h) (Nat.le_add_left 4 rest.length) hdecode

/-- Settles O2: a frame and a command word, each with what follows. -/
theorem decodeEncodeRoundTrip : Obligations.DecodeEncodeRoundTrip := by
  unfold Obligations.DecodeEncodeRoundTrip
  intro i rest hw
  cases ho : opcodeOf i with
  | none => exact decode_of_decodeFrame (decodeFrame_encode hw ho rest)
  | some op => rw [encode_of_opcodeOf ho, decode_commandWord ho]

/-! ### The bytes that decode -/

/-- What follows a version 1 magic is the rest of the frame that it decodes to (R81, R83). -/
theorem decodeV1_bytes {bs rest : List Byte} {i : Instr} (h : decodeV1 bs = .ok (i, rest)) :
    encode i ++ rest = magicV1 :: bs := by
  unfold decodeV1 at h
  split at h
  next n _ _ _ _ body =>
    split at h
    · cases h
    next hlen =>
      cases h
      have hwhole : n.toNat + 2 ≤ body.length := not_lt.mp hlen
      have hpay : n.toNat ≤ body.length := by omega
      refine (FrameV1.bytes_append _ _).trans ?_
      simp only [payloadLen_take hpay, payload_checksum_rest hwhole]
  next => cases h

/-- What follows a version 2 magic is the rest of the frame that it decodes to, its trailer included (R80,
R82 to R84). -/
theorem decodeV2_bytes {bs rest : List Byte} {i : Instr} (h : decodeV2 bs = .ok (i, rest)) :
    encode i ++ rest = magicV2 :: bs := by
  unfold decodeV2 at h
  split at h
  next n _ _ _ _ _ m0 m1 m2 body =>
    have hid : leBytes 3 (BitVec.ofNat 24 (fromLE [m0, m1, m2])).toNat = [m0, m1, m2] := leBytes_ofNat24 rfl
    split at h
    · split at h
      · cases h
      next hlen =>
        cases h
        have htotal : n.toNat + 15 ≤ body.length := not_lt.mp hlen
        have hwhole : n.toNat + 2 ≤ body.length := by omega
        have hpay : n.toNat ≤ body.length := by omega
        have htrailer : (decodeTrailer (body.drop (n.toNat + 2))).bytes ++ body.drop (n.toNat + 15) =
            body.drop (n.toNat + 2) := by
          rw [← List.drop_drop (i := 13) (j := n.toNat + 2)]
          exact decodeTrailer_bytes_append (by rw [List.length_drop]; omega)
        refine (List.append_assoc _ _ _).trans ((FrameV2.bytes_append _ _).trans ?_)
        simp only [payloadLen_take hpay, hid, htrailer, payload_checksum_rest hwhole, List.cons_append,
          List.nil_append]
    · split at h
      · cases h
      next hlen =>
        cases h
        have hwhole : n.toNat + 2 ≤ body.length := not_lt.mp hlen
        have hpay : n.toNat ≤ body.length := by omega
        refine (FrameV2.bytes_append _ _).trans ?_
        simp only [payloadLen_take hpay, hid, payload_checksum_rest hwhole, List.cons_append, List.nil_append]
  next => cases h

/-- The bytes that decode as a frame are the frame's and those that follow (R80, R94). -/
theorem decodeFrame_bytes {bs rest : List Byte} {i : Instr} (h : decodeFrame bs = .ok (i, rest)) :
    encode i ++ rest = bs := by
  unfold decodeFrame at h
  split at h
  · cases h
  · split at h
    next hv =>
      obtain ⟨rfl, -⟩ | ⟨-, hne⟩ := versionOf_eq_some.mp hv
      · exact decodeV1_bytes h
      · cases hne
    next hv =>
      obtain ⟨-, hne⟩ | ⟨rfl, -⟩ := versionOf_eq_some.mp hv
      · cases hne
      · exact decodeV2_bytes h
    · cases h

/-- A word that decodes, in its four bytes, is the command's encoding (R62, R95, R96). -/
theorem encode_of_decodeCommand {bs : List Byte} {i : Instr} (hlen : bs.length = 4)
    (h : decodeCommand (BitVec.ofNat 32 (fromLE bs)) = .ok i) : encode i = bs := by
  obtain ⟨op, hop, hword⟩ := eq_commandWord_of_decodeCommand h
  rw [encode_of_opcodeOf hop, hword, leBytes_ofNat32 hlen]

/-- What follows bytes that decode and begin no frame: everything past their command word (R80, R95). -/
theorem decode_rest_of_notAMagic {bs rest : List Byte} {i j : Instr} (h : decode bs = .ok (i, rest))
    (hn : decodeFrame bs = .error .notAMagic) (hlen : 4 ≤ bs.length)
    (hc : decodeCommand (BitVec.ofNat 32 (fromLE (bs.take 4))) = .ok j) : rest = bs.drop 4 := by
  obtain _ | ⟨b, bs⟩ := bs
  · cases hlen
  cases hb : isMagic b with
  | true =>
    rw [decode_of_isMagic hb, hn] at h
    cases h
  | false =>
    rw [decode_of_decodeCommand hb hlen hc] at h
    cases h
    rfl

/-- Settles O3: the decoder read either a frame or a command word, and each is the encoding of what it decodes to. -/
theorem decodedBytesAreTheEncoding : Obligations.DecodedBytesAreTheEncoding := by
  unfold Obligations.DecodedBytesAreTheEncoding
  intro bs rest i h
  obtain hframe | ⟨hn, hlen, hcommand⟩ := decode_cases h
  · exact ⟨(decodeFrame_frame hframe).1, decodeFrame_bytes hframe⟩
  · obtain ⟨op, hop, -⟩ := eq_commandWord_of_decodeCommand hcommand
    have hencode : encode i = bs.take 4 := encode_of_decodeCommand (List.length_take_of_le hlen) hcommand
    refine ⟨wf_of_opcodeOf hop, ?_⟩
    rw [hencode, decode_rest_of_notAMagic h hn hlen hcommand, List.take_append_drop]

/-- Settles O1: each of the four is computed. -/
theorem specWordsDecode : Obligations.SpecWordsDecode := by
  unfold Obligations.SpecWordsDecode
  exact ⟨rfl, rfl, rfl, rfl⟩

/-! ### A word written to COMMAND -/

/-- A word that does not decode raises ILLEGAL_CMD (R235). -/
theorem issue_of_illegal {w : Word} (h : ∀ i, decodeCommand w ≠ .ok i) (s : State) :
    issue w s = .next (s.setErr .illegalCmd) := by
  unfold issue
  split
  next i hi => exact absurd hi (h i)
  next => rfl

/-- Settles O4: the statement's table is the opcode map, whose rows are the words that decode. -/
theorem commandWordLegality : Obligations.CommandWordLegality := by
  unfold Obligations.CommandWordLegality
  intro s w rest hp
  have hstep : step s = issue w ((s.setPending rest).respond .done) := by
    rw [step_commandWrite hp (leBytes_length 4 _), ofNat32_leBytes]
  rw [hstep]
  refine ⟨fun i hzero hmem => ?_, fun hillegal => issue_of_illegal (fun i hi => ?_) _⟩
  · change (w.extractLsb' 0 8, i) ∈ commandRows.map (fun r => (r.opcode, r.instr)) at hmem
    obtain ⟨r, hr, heq⟩ := List.mem_map.mp hmem
    obtain ⟨hopcode, rfl⟩ := Prod.mk.inj heq
    exact issue_of_decodeCommand (decodeCommand_ok_iff.mpr ⟨hzero, hopcode ▸ hr⟩) _
  · obtain ⟨hzero, hrow⟩ := decodeCommand_ok_iff.mp hi
    have hop : w.extractLsb' 0 8 ∈ commandRows.map CommandRow.opcode := List.mem_map_of_mem hrow
    exact hillegal.elim (fun hne => hne hzero) (fun hnot => hnot hop)

end Sys2Proof.Machine

/-! The commands that only report: the results of FV_DECODE, and what CKSUM, the FV_ commands and RPL_GET leave
unchanged (R100, R122, R135, R142 to R151). -/

namespace Sys2Proof.Machine

/-! ### FV_DECODE -/

/-- FV_DECODE of a header that FRAME_RAM holds (R140, R142). -/
theorem fvDecode_holds {s : State} {v : Version} {m : Byte} {hs : List Byte} (hv : versionOf m = some v)
    (hlen : (m :: hs).length = v.headerLen) (hfit : s.argNat 0 + v.headerLen ≤ s.params.memSize)
    (hh : s.holds (s.argNat 0) (m :: hs)) :
    exec .fvDecode s = .next ((s.setHeader (s.argNat 0) (headerFields v (m :: hs))).setErr .ok) :=
  fvDecode_eq (decodeHeader_holds hv hlen hfit hh)

/-- RES2 of an unsigned frame whose message id is one byte: the id alone (R100). -/
theorem unsigned_shortId_word (msg : Byte) : 0#7 ++ BitVec.ofBool false ++ msg.setWidth 24 = 0#24 ++ msg := by
  have hid : msg.setWidth 24 = 0#16 ++ msg := BitVec.setWidth_eq_append (by decide)
  calc 0#7 ++ BitVec.ofBool false ++ msg.setWidth 24
      = 0#7 ++ BitVec.ofBool false ++ 0#16 ++ msg := by simp only [hid, BitVec.append_assoc, BitVec.cast_eq]
    _ = 0#24 ++ msg := rfl

/-- RES2 of a version 2 frame, byte by byte below the signed flag (R100). -/
theorem flag_messageId_word (signed : Bool) (m0 m1 m2 : Byte) :
    0#7 ++ BitVec.ofBool signed ++ (m2 ++ m1 ++ m0) = 0#7 ++ BitVec.ofBool signed ++ m2 ++ m1 ++ m0 := by
  simp only [BitVec.append_assoc, BitVec.cast_eq]

/-- The total length of a version 1 header (R87). -/
theorem headerV1_totalLen (m n seq sys comp msg : Byte) :
    (headerV1 [m, n, seq, sys, comp, msg]).totalLen = 8 + n.toNat := by
  change 6 + n.toNat + 2 + 0 = 8 + n.toNat
  omega

/-- The total length of a version 2 header, its signed bit adding the trailer (R86, R87). -/
theorem headerV2_totalLen (m n inc cmp seq sys comp m0 m1 m2 : Byte) :
    (headerV2 [m, n, inc, cmp, seq, sys, comp, m0, m1, m2]).totalLen =
      12 + n.toNat + (if inc.getLsbD 0 then 13 else 0) := by
  change 10 + n.toNat + 2 + (if inc.getLsbD 0 then 13 else 0) = _
  omega

/-- Settles O19: the held header is decoded, and its fields are laid out as the statement writes them. -/
theorem fvDecodeResult : Obligations.FvDecodeResult := by
  unfold Obligations.FvDecodeResult
  refine ⟨fun s n seq sys comp msg hfit hh => ?_, fun s n inc cmp seq sys comp m0 m1 m2 hfit hh => ?_⟩
  · rw [fvDecode_holds (v := .v1) rfl rfl hfit hh, State.setHeader, headerFields, headerV1_totalLen,
      ← unsigned_shortId_word]
    rfl
  · rw [fvDecode_holds (v := .v2) rfl rfl hfit hh, State.setHeader, headerFields, headerV2_totalLen,
      ← flag_messageId_word]
    rfl

/-! ### The frame of the reporting commands -/

/-- The second state differs from the first in STATUS.ERR and in the listed result registers at most (R100). -/
def State.ReportsIn (s : State) (results : List (Fin 4)) (t : State) : Prop :=
  t = { s with err := t.err, res := t.res } ∧ ∀ k : Fin 4, k ∉ results → t.res[k] = s.res[k]

/-- A state reports nothing of its own. -/
theorem State.reportsIn_refl (s : State) (results : List (Fin 4)) : s.ReportsIn results s := ⟨rfl, fun _ _ => rfl⟩

/-- An error code is no result register (R253, R256). -/
theorem State.ReportsIn.setErr {s t : State} {results : List (Fin 4)} (h : s.ReportsIn results t) (code : ErrCode) :
    s.ReportsIn results (t.setErr code) := by
  obtain ⟨hrest, hres⟩ := h
  exact ⟨congrArg (State.setErr · code) hrest, hres⟩

/-- A listed result register may be written (R100). -/
theorem State.ReportsIn.setRes {s t : State} {results : List (Fin 4)} (h : s.ReportsIn results t) {i : Fin 4}
    (hi : i ∈ results) (v : Word) : s.ReportsIn results (t.setRes i v) := by
  obtain ⟨hrest, hres⟩ := h
  refine ⟨congrArg (State.setRes · i v) hrest, fun k hk => ?_⟩
  have hik : i ≠ k := fun heq => hk (heq ▸ hi)
  rw [State.res_setRes_other t hik, hres k hk]

/-- FV_DECODE's results are all four registers (R100, R142). -/
theorem State.setHeader_reportsIn (s : State) (start : Nat) (h : Header) :
    s.ReportsIn [0, 1, 2, 3] (s.setHeader start h) := by
  have hall : ∀ k : Fin 4, k ∈ [0, 1, 2, 3] := by decide
  exact ⟨rfl, fun k hk => absurd (hall k) hk⟩

/-- A command that ends with one result in RES0, or with an error (R100). -/
theorem State.reportsIn_zero {s t : State}
    (h : (∃ v, t = (s.setRes 0 v).setErr .ok) ∨ ∃ code, t = s.setErr code) : s.ReportsIn [0] t := by
  have hs := s.reportsIn_refl [0]
  obtain ⟨v, rfl⟩ | ⟨code, rfl⟩ := h
  · exact (hs.setRes (by decide) v).setErr .ok
  · exact hs.setErr code

/-- A command that ends with results in RES0 to RES2, or with an error (R100). -/
theorem State.reportsIn_zero_one_two {s t : State}
    (h : (∃ v w x, t = (((s.setRes 0 v).setRes 1 w).setRes 2 x).setErr .ok) ∨ ∃ code, t = s.setErr code) :
    s.ReportsIn [0, 1, 2] t := by
  have hs := s.reportsIn_refl [0, 1, 2]
  obtain ⟨v, w, x, rfl⟩ | ⟨code, rfl⟩ := h
  · exact (((hs.setRes (by decide) v).setRes (by decide) w).setRes (by decide) x).setErr .ok
  · exact hs.setErr code

/-- Settles O24: each command either leaves an error code, or writes its own result registers. -/
theorem reportingCommandsFrame : Obligations.ReportingCommandsFrame := by
  unfold Obligations.ReportingCommandsFrame
  intro s t i results hmem h
  change s.ReportsIn results t
  simp only [List.mem_cons, Prod.mk.injEq, List.not_mem_nil, or_false] at hmem
  obtain ⟨rfl, rfl⟩ | ⟨rfl, rfl⟩ | ⟨rfl, rfl⟩ | ⟨rfl, rfl⟩ | ⟨rfl, rfl⟩ | ⟨rfl, rfl⟩ | ⟨rfl, rfl⟩ | ⟨rfl, rfl⟩ := hmem
  · exact State.reportsIn_zero (execCksum_next h)
  · obtain ⟨start, header, rfl⟩ | ⟨_, rfl⟩ := execFvDecode_next h
    · exact (s.setHeader_reportsIn start header).setErr .ok
    · exact (s.reportsIn_refl _).setErr _
  · exact State.reportsIn_zero_one_two (execFvValidateCrc_next h)
  · exact State.reportsIn_zero (execFvHasSig_next h)
  · exact State.reportsIn_zero (execFvValidateSig_next h)
  · obtain ⟨v, w, rfl⟩ | ⟨_, rfl⟩ := execFvSigTimestamp_next h
    · exact (((s.reportsIn_refl _).setRes (by decide) v).setRes (by decide) w).setErr .ok
    · exact (s.reportsIn_refl _).setErr _
  · exact State.reportsIn_zero (execFvSigLinkId_next h)
  · exact State.reportsIn_zero_one_two (execRplGet_next h)

end Sys2Proof.Machine

/-! The Checksum Engine: the update of R120 as eight steps of a reflected shift register, the fold of R121, what CKSUM
answers (R122), and that no covered byte can change unnoticed (R124). -/

namespace Sys2Proof.Machine

/-! ### The shift register -/

/-- One step of the reflected shift register of polynomial 0x8408 (R120): the bit shifted out selects the polynomial. -/
def lfsrStep (c : BitVec 16) : BitVec 16 := (c >>> 1) ^^^ (if c.getLsbD 0 then 0x8408#16 else 0#16)

/-- A step that shifts a 0 out only shifts. -/
theorem lfsrStep_of_even {c : BitVec 16} (h : c.getLsbD 0 = false) : lfsrStep c = c >>> 1 := by
  simp only [lfsrStep, h, Bool.false_eq_true, if_false, BitVec.xor_zero]

/-- The polynomial's top bit is 1, so a step keeps in the top bit the bit that it shifts out. -/
theorem lfsrStep_msb (c : BitVec 16) : (lfsrStep c).getLsbD 15 = c.getLsbD 0 := by
  cases h : c.getLsbD 0 <;> simp only [lfsrStep, h] <;> simp

/-- A step is linear over xor. -/
theorem lfsrStep_xor (c d : BitVec 16) : lfsrStep (c ^^^ d) = lfsrStep c ^^^ lfsrStep d := by
  have hselect : ∀ x y : Bool, (if x ^^ y then 0x8408#16 else 0#16) =
      (if x then 0x8408#16 else 0#16) ^^^ (if y then 0x8408#16 else 0#16) := by decide
  simp only [lfsrStep, BitVec.getLsbD_xor, BitVec.ushiftRight_xor_distrib, hselect]
  ac_rfl

/-- No two registers step to the same one: the top bit tells whether the polynomial was added. -/
theorem lfsrStep_injective : Function.Injective lfsrStep := fun c d h => by
  have hlow : c.getLsbD 0 = d.getLsbD 0 := by rw [← lfsrStep_msb, h, lfsrStep_msb]
  have hshift : c >>> 1 = d >>> 1 := by
    simpa only [lfsrStep, hlow, BitVec.xor_left_inj] using h
  refine BitVec.eq_of_getLsbD_eq fun i _ => ?_
  cases i with
  | zero => exact hlow
  | succ i => simpa [Nat.add_comm] using congrArg (·.getLsbD i) hshift

/-- Steps are linear over xor. -/
theorem lfsrStep_iterate_xor (n : Nat) (c d : BitVec 16) :
    lfsrStep^[n] (c ^^^ d) = lfsrStep^[n] c ^^^ lfsrStep^[n] d := by
  induction n generalizing c d with
  | zero => rfl
  | succ n ih => simp only [Function.iterate_succ_apply, lfsrStep_xor, ih]

/-- As many steps as a register has low zeros only shift. -/
theorem lfsrStep_iterate_of_low_zeros {n : Nat} {c : BitVec 16} (h : ∀ i < n, c.getLsbD i = false) :
    lfsrStep^[n] c = c >>> n := by
  induction n generalizing c with
  | zero => simp
  | succ n ih =>
    rw [Function.iterate_succ_apply, lfsrStep_of_even (h 0 n.succ_pos), ih, ← BitVec.shiftRight_add, Nat.add_comm]
    intro i hi
    simpa using h (1 + i) (by omega)

/-! ### The byte update -/

/-- The update shifts the accumulator by a byte and adds what only the byte mixed with its low byte decides (R120). -/
theorem crcAccumulate_eq_xor (b : Byte) (crc : BitVec 16) :
    crcAccumulate b crc = (crc >>> 8) ^^^ crcAccumulate (b ^^^ crc.setWidth 8) 0#16 := by
  simp [crcAccumulate, BitVec.xor_assoc]

/-- The update from accumulator 0, an entry of a table-driven checksum (R123), is eight steps on the byte. -/
theorem crcAccumulate_zero (b : Byte) : crcAccumulate b 0#16 = lfsrStep^[8] (b.setWidth 16) := by
  revert b; decide

/-- A byte added to an accumulator meets its low byte only. -/
theorem xor_byte_eq (b : Byte) (crc : BitVec 16) :
    crc ^^^ b.setWidth 16 = (crc >>> 8) <<< 8 ^^^ (b ^^^ crc.setWidth 8).setWidth 16 := by
  refine BitVec.eq_of_getLsbD_eq fun i hi => ?_
  by_cases hlow : i < 8
  · simp [hlow, hi, Bool.xor_comm]
  · simp [hlow, hi, BitVec.getLsbD_of_ge b i (by omega), Nat.add_sub_of_le (Nat.not_lt.mp hlow)]

/-- R120: the update is eight steps of the shift register on the accumulator xor the byte. -/
theorem crcAccumulate_eq_lfsr (b : Byte) (crc : BitVec 16) :
    crcAccumulate b crc = lfsrStep^[8] (crc ^^^ b.setWidth 16) := by
  have hhigh : lfsrStep^[8] ((crc >>> 8) <<< 8) = crc >>> 8 := by
    rw [lfsrStep_iterate_of_low_zeros fun i hi => by simp [hi]]
    refine BitVec.eq_of_getLsbD_eq fun i _ => ?_
    simpa using BitVec.lt_of_getLsbD
  rw [crcAccumulate_eq_xor, crcAccumulate_zero, xor_byte_eq, lfsrStep_iterate_xor, hhigh]

/-- R120's second line on integers: the byte's low half added to its high half, truncated to a byte. -/
theorem toNat_xor_shiftLeft_four (m : Byte) : (m ^^^ (m <<< 4)).toNat = (m.toNat ^^^ m.toNat * 16) % 2 ^ 8 := by
  rw [BitVec.toNat_xor, BitVec.toNat_shiftLeft, Nat.shiftLeft_eq, Nat.xor_mod_two_pow, Nat.mod_eq_of_lt m.isLt]

/-- R120's last line on integers, truncated to the accumulator's 16 bits. -/
theorem toNat_xor_shifts (crc tmp : BitVec 16) :
    ((crc >>> 8) ^^^ (tmp <<< 8) ^^^ (tmp <<< 3) ^^^ (tmp >>> 4)).toNat =
      (crc.toNat / 256 ^^^ tmp.toNat * 256 ^^^ tmp.toNat * 8 ^^^ tmp.toNat / 16) % 2 ^ 16 := by
  have hcrc : crc.toNat / 256 < 2 ^ 16 := by omega
  have htmp : tmp.toNat / 16 < 2 ^ 16 := by omega
  rw [Nat.xor_mod_two_pow, Nat.xor_mod_two_pow, Nat.xor_mod_two_pow, Nat.mod_eq_of_lt hcrc, Nat.mod_eq_of_lt htmp]
  simp only [BitVec.toNat_xor, BitVec.toNat_shiftLeft, BitVec.toNat_ushiftRight, Nat.shiftLeft_eq,
    Nat.shiftRight_eq_div_pow, Nat.reducePow]

/-- R120: the update on unbounded integers, with its truncations. -/
theorem crcAccumulate_toNat (b : Byte) (crc : BitVec 16) :
    let tmp := b.toNat ^^^ crc.toNat % 256
    let tmp' := (tmp ^^^ tmp * 16) % 256
    (crcAccumulate b crc).toNat = (crc.toNat / 256 ^^^ tmp' * 256 ^^^ tmp' * 8 ^^^ tmp' / 16) % 65536 := by
  have hmixed : (b ^^^ crc.setWidth 8).toNat = b.toNat ^^^ crc.toNat % 256 := by
    rw [BitVec.toNat_xor, BitVec.toNat_setWidth]
  intro tmp tmp'
  have htmp : (((b ^^^ crc.setWidth 8) ^^^ (b ^^^ crc.setWidth 8) <<< 4).setWidth 16).toNat = tmp' := by
    rw [BitVec.toNat_setWidth_of_le (by decide), toNat_xor_shiftLeft_four, hmixed]
    rfl
  rw [crcAccumulate, toNat_xor_shifts, htmp]
  rfl

/-- Settles O15: the integer form and the bit-serial form. -/
theorem crcUpdate : Obligations.CrcUpdate := by
  unfold Obligations.CrcUpdate
  exact fun b crc => ⟨crcAccumulate_toNat b crc, crcAccumulate_eq_lfsr b crc⟩

/-! ### The fold -/

/-- R121's fold is the list's fold from the left. -/
theorem crcFold_eq_foldl (crc : BitVec 16) (bytes : List Byte) :
    crcFold crc bytes = bytes.foldl (fun c b => crcAccumulate b c) crc := by
  induction bytes generalizing crc with
  | nil => rfl
  | cons b bs ih => exact ih _

/-- Bytes are folded one list after the other. -/
theorem crcFold_append (crc : BitVec 16) (before after : List Byte) :
    crcFold crc (before ++ after) = crcFold (crcFold crc before) after := by
  simp only [crcFold_eq_foldl, List.foldl_append]

/-- With one byte, different accumulators stay different. -/
theorem crcAccumulate_injective_crc (b : Byte) : Function.Injective (crcAccumulate b) := fun c d h => by
  rw [crcAccumulate_eq_lfsr, crcAccumulate_eq_lfsr] at h
  exact (BitVec.xor_left_inj _).mp (lfsrStep_injective.iterate 8 h)

/-- On one accumulator, different bytes give different accumulators. -/
theorem crcAccumulate_injective_byte (crc : BitVec 16) : Function.Injective (crcAccumulate · crc) := fun x y h => by
  simp only [crcAccumulate_eq_lfsr] at h
  have hwide : x.setWidth 16 = y.setWidth 16 := (BitVec.xor_right_inj _).mp (lfsrStep_injective.iterate 8 h)
  simpa using congrArg (BitVec.setWidth 8) hwide

/-- A difference of two folds is never cancelled by the same bytes (R124). -/
theorem crcFold_injective (bytes : List Byte) : Function.Injective (crcFold · bytes) := by
  induction bytes with
  | nil => exact Function.injective_id
  | cons b bs ih => exact ih.comp (crcAccumulate_injective_crc b)

/-- Settles O17: the two bytes part the accumulators, and the bytes after them and the extra byte keep them apart. -/
theorem checksumDetectsByteChange : Obligations.ChecksumDetectsByteChange := by
  unfold Obligations.ChecksumDetectsByteChange
  intro before after x y extra hne heq
  simp only [checksum, crcFold_append] at heq
  have hfold := crcAccumulate_injective_crc extra heq
  have hbyte := crcFold_injective after hfold
  exact hne (crcAccumulate_injective_byte _ hbyte)

/-! ### CKSUM -/

/-- CKSUM of a range that FRAME_RAM holds (R122). -/
theorem cksum_holds {s : State} {L : List Byte} (hfit : s.inMem (s.argNat 0) (s.argNat 1))
    (hlen : L.length = s.argNat 1) (hh : s.holds (s.argNat 0) L) :
    exec .cksum s = .next ((s.setRes 0 (halfWord (checksum L (s.argByte 2)))).setErr .ok) := by
  have hread := State.readBytes_ram hh
  rw [hlen] at hread
  simp [exec, execCksum, require_pos hfit, hread]

/-- CKSUM of a range past MEM_SIZE (R122). -/
theorem cksum_outOfRange {s : State} (h : ¬ s.inMem (s.argNat 0) (s.argNat 1)) :
    exec .cksum s = .next (s.setErr .outOfRange) := by
  simp only [exec, execCksum, require_neg h, run_error_bind, finish_raise]

/-- Settles O16: the held range is read and folded, or the range check raises OUT_OF_RANGE before anything is read. -/
theorem cksumResult : Obligations.CksumResult := by
  unfold Obligations.CksumResult
  refine fun s L => ⟨fun hfit hlen hh => ?_, fun hpast => cksum_outOfRange (Nat.not_le.mpr hpast)⟩
  rw [cksum_holds hfit hlen hh, checksum, crcFold_eq_foldl]
  rfl

end Sys2Proof.Machine

/-! The anti-replay map: what RPL_GET reports (R131, R135), and that no record is lost or lowered while one instance
lives (R132, R136). -/

namespace Sys2Proof.Machine

/-! ### RPL_GET -/

/-- ARGi names the sentinel exactly as the word that R130 reserves. -/
theorem State.argNat_eq_mapSentinel_iff (s : State) (i : Fin 9) : s.argNat i = mapSentinel ↔ s.arg i = 0xFFFFFFFF#32 := by
  rw [← BitVec.toNat_inj]
  rfl

/-- A key other than the sentinel is looked up in the map (R130, R131). -/
theorem ReplayMap.lookup_of_ne {key : Nat} (h : key ≠ mapSentinel) (m : ReplayMap) : m.lookup key = Sparse.get m key :=
  if_neg h

/-- The sentinel and every key outside the map are in no map's domain (R130). -/
theorem ReplayMap.lookup_eq_none {m : ReplayMap} {key : Nat} (h : key = mapSentinel ∨ Sparse.get m key = none) :
    m.lookup key = none := by
  unfold ReplayMap.lookup
  split
  · rfl
  next hne => exact h.resolve_left hne

/-- RES2 of a key that is present (R100). -/
theorem boolWord_true : boolWord true = 1#32 := rfl

/-- RES2 of a key that is absent (R100). -/
theorem boolWord_false : boolWord false = 0#32 := rfl

/-- RPL_GET without an instance (R236). -/
theorem rplGet_disabled {s : State} (h : s.enable = false) : exec .rplGet s = .next (s.setErr .notEnabled) := by
  have hoff : ¬ s.enable = true := by simp [h]
  simp only [exec, execRplGet, require_neg hoff, run_error_bind, finish_raise]

/-- RPL_GET of a key in the map's domain (R131, R135). -/
theorem rplGet_present {s : State} {v : BitVec 64} (he : s.enable = true)
    (h : s.replayMap.lookup (s.argNat 0) = some v) :
    exec .rplGet s = .next (((s.setResWide 0 1 v).setRes 2 1#32).setErr .ok) := by
  simp only [exec, execRplGet, require_pos he, run_ok_bind, finish_ok, ReplayMap.getOrDefault, h, Option.getD_some,
    Option.isSome_some, boolWord_true]

/-- RPL_GET of a key outside the map's domain (R131, R135). -/
theorem rplGet_absent {s : State} (he : s.enable = true) (h : s.replayMap.lookup (s.argNat 0) = none) :
    exec .rplGet s = .next (((s.setResWide 0 1 (s.argWide 1 2)).setRes 2 0#32).setErr .ok) := by
  simp only [exec, execRplGet, require_pos he, run_ok_bind, finish_ok, ReplayMap.getOrDefault, h, Option.getD_none,
    Option.isSome_none, boolWord_false]

/-- Settles O43: the key is in the map's domain or not, and the default's two words are ARG1 and ARG2. -/
theorem rplGetResult : Obligations.RplGetResult := by
  unfold Obligations.RplGetResult
  refine fun s => ⟨rplGet_disabled, fun he => ⟨fun v hkey hv => ?_, fun habsent => ?_⟩⟩
  · have hne : s.argNat 0 ≠ mapSentinel := mt (s.argNat_eq_mapSentinel_iff 0).mp hkey
    exact rplGet_present he ((ReplayMap.lookup_of_ne hne _).trans hv)
  · have hnone := ReplayMap.lookup_eq_none (habsent.imp_left (s.argNat_eq_mapSentinel_iff 0).mpr)
    rw [rplGet_absent he hnone, State.setResWide, State.argWide, BitVec.extractLsb'_append_eq_right,
      BitVec.extractLsb'_append_eq_left]

/-! ### Records across a step -/

/-- SCAN keeps every record, or renews it (R132, R192). -/
theorem execScan_grows {s t : State} (h : exec .scan s = .next t) : s.replayMap.grows t.replayMap := by
  obtain ⟨r, -, -, hle, hr, rfl⟩ | ⟨_, -, rfl, -⟩ := execScan_next h
  · obtain ⟨res, hres⟩ := State.setScan_eq s r
    rw [hres]
    exact scanFrom_grows (Nat.add_sub_cancel' hle) hr
  · exact s.replayMap.grows_refl

/-- The scan loop of a push keeps every record, or renews it (R132, R212). -/
theorem drain_grows {s : State} {acc : List Byte} {d : Drain} (h : s.drain acc = .ok d) : s.replayMap.grows d.map := by
  obtain ⟨_, hspans, -⟩ := State.drain_spans h
  obtain ⟨-, -, hgrows⟩ := hspans.pairwise
  exact hgrows

/-- RA_PUSH keeps every record, or renews it (R132, R215). -/
theorem execRaPush_grows {s t : State} (h : exec .raPush s = .next t) : s.replayMap.grows t.replayMap := by
  obtain ⟨_, d, -, -, -, -, -, hd, rfl⟩ | ⟨_, -, rfl, -⟩ := execRaPush_next h
  · exact drain_grows hd
  · exact s.replayMap.grows_refl

/-- A frame that arrives keeps every record, or renews it (R132, R211; log 8). -/
theorem receive_grows {s t : State} {bytes : List Byte} (h : receive bytes s = .next t) :
    s.replayMap.grows t.replayMap := by
  obtain ⟨d, -, -, hd, rfl⟩ | ⟨_, -, rfl, -⟩ := receive_next h
  · exact drain_grows hd
  · exact s.replayMap.grows_refl

/-- No instruction removes a record or lowers it: only those whose effect names the map can touch it, and they scan. -/
theorem exec_grows {i : Instr} {s t : State} (h : exec i s = .next t) : s.replayMap.grows t.replayMap := by
  cases exec_effect h with
  | report | pack | drop => exact s.replayMap.grows_refl
  | scan => exact execScan_grows h
  | push hi =>
    obtain rfl | ho := hi
    · exact execRaPush_grows h
    · rw [exec_frame ho] at h
      exact receive_grows h

/-- A CTRL write that leaves CTRL.ENABLE at 1 changes no record: one that clears or sets it empties the map, but the
first leaves ENABLE at 0 and the second finds it there (R230 to R233). -/
theorem writeCtrl_grows {s : State} {v : Word} (he : s.enable = true) (ht : (writeCtrl v s).enable = true) :
    s.replayMap.grows (writeCtrl v s).replayMap := by
  obtain ⟨_, h⟩ | h | ⟨hoff, -⟩ := writeCtrl_cases v s
  · rw [h]
    exact s.replayMap.grows_refl
  · rw [h] at ht
    cases ht
  · exact absurd (he.symm.trans hoff) (by decide)

/-- A step from an enabled to an enabled state makes the map grow: of its outcomes only an instruction and a CTRL write
can touch the map (R132, R136). -/
theorem step_grows {s t : State} (h : step s = .next t) (he : s.enable = true) (ht : t.enable = true) :
    s.replayMap.grows t.replayMap := by
  obtain rfl | ⟨rest, ⟨r, rfl⟩ | ⟨i, hexec⟩ | ⟨c, -, rfl⟩ | ⟨v, rfl⟩ | ⟨hoff, -⟩ | ⟨_, _, _, _, -, -, rfl⟩⟩ := step_inv h
  · exact ReplayMap.grows_refl _
  · exact ReplayMap.grows_refl _
  · exact (exec_grows hexec :)
  · exact ReplayMap.grows_refl _
  · exact (writeCtrl_grows (s := (s.setPending rest).respond .done) he ht :)
  · exact absurd (he.symm.trans hoff) (by decide)
  · exact ReplayMap.grows_refl _

/-- Settles O44, by `step_grows`, record by record. -/
theorem recordsNeverDecrease : Obligations.RecordsNeverDecrease := by
  unfold Obligations.RecordsNeverDecrease
  exact fun _ _ key v h he ht hv => step_grows h he ht key v hv

end Sys2Proof.Machine

/-! The Frame View: what the FV_ commands answer to a header they cannot decode, and the results of FV_HAS_SIG,
FV_VALIDATE_CRC, FV_VALIDATE_SIG, FV_SIG_TIMESTAMP and FV_SIG_LINK_ID (R140, R143 to R151). -/

namespace Sys2Proof.Machine

/-! ### The header at ARG0 -/

/-- Every FV_ command decodes the header at ARG0 first (R140). -/
theorem exec_eq_viewHeader_bind {i : Instr}
    (hi : i ∈ [Instr.fvDecode, .fvValidateCrc, .fvHasSig, .fvValidateSig, .fvSigTimestamp, .fvSigLinkId])
    (s : State) :
    ∃ rest : Header → Run State, exec i s = finish s (s.viewHeader >>= rest) := by
  simp only [List.mem_cons, List.not_mem_nil, or_false] at hi
  obtain rfl | rfl | rfl | rfl | rfl | rfl := hi <;> exact ⟨_, rfl⟩

/-- An FV_ command whose header cannot be decoded changes STATUS.ERR alone (R140, R253). -/
theorem exec_of_viewHeader_raise {i : Instr} {s : State} {code : ErrCode}
    (hi : i ∈ [Instr.fvDecode, .fvValidateCrc, .fvHasSig, .fvValidateSig, .fvSigTimestamp, .fvSigLinkId])
    (hv : s.viewHeader = .error (.raise code)) : exec i s = .next (s.setErr code) := by
  obtain ⟨rest, he⟩ := exec_eq_viewHeader_bind hi s
  rw [he, hv, run_error_bind, finish_raise]

/-- Settles O18: each failure of R140 is a failure of the header's decoding, which every FV_ command passes on. -/
theorem fvHeaderErrors : Obligations.FvHeaderErrors := by
  unfold Obligations.FvHeaderErrors
  refine fun s i hi => ⟨fun hpast => ?_,
    fun m hin hm => ⟨fun hne1 hne2 => ?_, fun hm1 hcut => ?_, fun hm2 hcut => ?_⟩⟩
  · exact exec_of_viewHeader_raise hi (decodeHeader_outOfRange hpast)
  · exact exec_of_viewHeader_raise hi (decodeHeader_notAFrame hin hm (versionOf_none hne1 hne2))
  · exact exec_of_viewHeader_raise hi
      (decodeHeader_cut hin hm (versionOf_eq_some.2 (.inl ⟨hm1, rfl⟩)) hcut)
  · exact exec_of_viewHeader_raise hi
      (decodeHeader_cut hin hm (versionOf_eq_some.2 (.inr ⟨hm2, rfl⟩)) hcut)

/-- The view of a version 1 frame whose header FRAME_RAM holds (R140). -/
theorem State.viewHeader_frameV1 {s : State} {f : FrameV1} (hfit : s.argNat 0 + 6 ≤ s.params.memSize)
    (hh : s.holds (s.argNat 0) f.header) : s.viewHeader = .ok (FrameV1.view f) := decodeHeader_frameV1 hfit hh

/-- The view of a version 2 frame whose header FRAME_RAM holds (R140). -/
theorem State.viewHeader_frameV2 {s : State} {f : FrameV2} (hfit : s.argNat 0 + 10 ≤ s.params.memSize)
    (hh : s.holds (s.argNat 0) f.header) : s.viewHeader = .ok (FrameV2.view f) := decodeHeader_frameV2 hfit hh

/-- A frame that FRAME_RAM holds has its header there. -/
theorem State.holds_header_of_bytes_append {s : State} {a : Nat} {f : FrameV2} {tail : List Byte}
    (hh : s.holds a (f.bytes ++ tail)) : s.holds a f.header :=
  (State.holds_append.1 (State.holds_append.1 (State.holds_append.1 hh).1).1).1

/-- What the well-formedness of a signed frame says (R80, R82, R84). -/
theorem frameV2Signed_wf_iff {f : FrameV2} {t : Trailer} :
    (Instr.frameV2Signed f t).wf = true ↔ f.wf = true ∧ f.signedBit = true ∧ t.hash.length = 6 := by
  simp only [Instr.wf, Trailer.wf, Bool.and_eq_true, decide_eq_true_eq, and_assoc]

/-- The total length of a signed frame: 25 bytes beside the payload (R87). -/
theorem FrameV2.view_totalLen_signed {f : FrameV2} (hw : f.wf = true) (hs : f.signedBit = true) :
    (FrameV2.view f).totalLen = 25 + f.payload.length := by
  rw [FrameV2.view_totalLen hw, if_pos hs]
  omega

/-- A signed frame that FRAME_RAM holds: its view, and that all of it ends inside FRAME_RAM (R87, R140). -/
theorem State.viewHeader_signed {s : State} {f : FrameV2} {t : Trailer} (hw : (Instr.frameV2Signed f t).wf = true)
    (hfit : s.argNat 0 + (25 + f.payload.length) ≤ s.params.memSize)
    (hh : s.holds (s.argNat 0) (f.bytes ++ t.bytes)) :
    s.viewHeader = .ok (FrameV2.view f) ∧ (FrameV2.view f).signed = true ∧
      s.argNat 0 + (FrameV2.view f).totalLen ≤ s.params.memSize := by
  obtain ⟨hf, hs, -⟩ := frameV2Signed_wf_iff.1 hw
  refine ⟨State.viewHeader_frameV2 (by omega) (State.holds_header_of_bytes_append hh), hs, ?_⟩
  rw [FrameV2.view_totalLen_signed hf hs]
  exact hfit

/-- What the signature functions read of a signed frame that FRAME_RAM holds (R147, R149). -/
theorem State.signature_holds {s : State} {f : FrameV2} {t : Trailer} (hw : (Instr.frameV2Signed f t).wf = true)
    (hh : s.holds (s.argNat 0) (f.bytes ++ t.bytes)) (key : List Byte) :
    sigLinkId s.ram (s.argNat 0) (FrameV2.view f) = .ok t.linkId ∧
      sigTimestamp s.ram (s.argNat 0) (FrameV2.view f) = .ok t.timestamp ∧
      validateSignature s s.ram (s.argNat 0) (FrameV2.view f) key =
        .ok (s.mac key (f.bytes ++ t.covered) == t.hash) := by
  obtain ⟨hf, -, ht⟩ := frameV2Signed_wf_iff.1 hw
  have hlen : f.bytes.length = (FrameV2.view f).throughChecksum := by
    rw [FrameV2.view_throughChecksum hf, FrameV2.bytes_length]
    omega
  exact signature_of_bytes s key hlen ht hh

/-- A boolean result as a register word (R42). -/
theorem boolWord_eq_ite (b : Bool) : boolWord b = if b then 1#32 else 0#32 := by
  cases b <;> rfl

/-! ### The commands on a decoded header -/

section Decoded

variable {s : State} {h : Header} (hv : s.viewHeader = .ok h)

include hv

/-- FV_HAS_SIG of a decoded header (R146). -/
theorem fvHasSig_eq : exec .fvHasSig s = .next ((s.setRes 0 (boolWord h.signed)).setErr .ok) := by
  simp only [exec, execFvHasSig, hv, run_ok_bind, finish_ok]

/-- FV_VALIDATE_CRC of a whole frame (R144). -/
theorem fvValidateCrc_eq {computed stored : BitVec 16} (hfit : s.argNat 0 + h.totalLen ≤ s.params.memSize)
    (hc : computedChecksum s.ram (s.argNat 0) h (s.argByte 1) = .ok computed)
    (hs : storedChecksum s.ram (s.argNat 0) h = .ok stored) :
    exec .fvValidateCrc s = .next ((((s.setRes 0 (boolWord (computed == stored))).setRes 1
      (halfWord computed)).setRes 2 (halfWord stored)).setErr .ok) := by
  simp only [exec, execFvValidateCrc, hv, wholeFrame, require_pos hfit, hc, hs, run_ok_bind, finish_ok]

/-- FV_VALIDATE_CRC of a frame past the end of FRAME_RAM (R144). -/
theorem fvValidateCrc_outOfRange (hpast : s.params.memSize < s.argNat 0 + h.totalLen) :
    exec .fvValidateCrc s = .next (s.setErr .outOfRange) := by
  simp only [exec, execFvValidateCrc, hv, wholeFrame, require_neg (Nat.not_le.2 hpast), run_ok_bind, run_error_bind,
    finish_raise]

/-- FV_VALIDATE_SIG with a key longer than KEY_MAX (R148). -/
theorem fvValidateSig_badKeyLen (hk : s.params.keyMax < s.opKeyLen.toNat) :
    exec .fvValidateSig s = .next (s.setErr .badKeyLen) := by
  simp only [exec, execFvValidateSig, hv, require_neg (Nat.not_le.2 hk), run_ok_bind, run_error_bind, finish_raise]

/-- FV_VALIDATE_SIG of an unsigned frame, or without a key (R147). -/
theorem fvValidateSig_failFast (hk : s.opKeyLen.toNat ≤ s.params.keyMax)
    (hfast : h.signed = false ∨ s.opKeyLen = 0#8) :
    exec .fvValidateSig s = .next ((s.setRes 0 0#32).setErr .ok) := by
  simp only [exec, execFvValidateSig, hv, require_pos hk, if_pos hfast, boolWord_false, run_ok_bind, finish_ok]

/-- FV_VALIDATE_SIG of a signed frame past the end of FRAME_RAM (R148). -/
theorem fvValidateSig_outOfRange (hk : s.opKeyLen.toNat ≤ s.params.keyMax) (hs : h.signed = true)
    (hne : s.opKeyLen ≠ 0#8) (hpast : s.params.memSize < s.argNat 0 + h.totalLen) :
    exec .fvValidateSig s = .next (s.setErr .outOfRange) := by
  have hslow : ¬ (h.signed = false ∨ s.opKeyLen = 0#8) := by simp [hs, hne]
  simp only [exec, execFvValidateSig, hv, require_pos hk, if_neg hslow, wholeFrame, require_neg (Nat.not_le.2 hpast),
    run_ok_bind, run_error_bind, finish_raise]

/-- FV_VALIDATE_SIG of a whole signed frame under a key (R147, R148). -/
theorem fvValidateSig_eq {key : List Byte} {valid : Bool} (hs : h.signed = true)
    (hfit : s.argNat 0 + h.totalLen ≤ s.params.memSize) (hne : key ≠ []) (hkey : s.opKeyIs key)
    (hvalid : validateSignature s s.ram (s.argNat 0) h key = .ok valid) :
    exec .fvValidateSig s = .next ((s.setRes 0 (boolWord valid)).setErr .ok) := by
  have hread := State.readOpKey_is hkey
  obtain ⟨hlen, hmax, -⟩ := hkey
  have hk : s.opKeyLen.toNat ≤ s.params.keyMax := hlen.trans_le hmax
  have hslow : ¬ (h.signed = false ∨ s.opKeyLen = 0#8) := by
    rintro (hu | h0)
    · exact absurd (hs.symm.trans hu) (by decide)
    · rw [h0] at hlen
      exact hne (List.length_eq_zero_iff.1 hlen.symm)
  simp only [exec, execFvValidateSig, hv, require_pos hk, if_neg hslow, wholeFrame, require_pos hfit, hread, hvalid,
    run_ok_bind, finish_ok]

/-- FV_SIG_TIMESTAMP of an unsigned frame: -1 in 64 bits (R150). -/
theorem fvSigTimestamp_unsigned (hs : h.signed = false) :
    exec .fvSigTimestamp s = .next (((s.setRes 0 0xFFFFFFFF#32).setRes 1 0xFFFFFFFF#32).setErr .ok) := by
  simp only [exec, execFvSigTimestamp, hv, hs, Bool.false_eq_true, if_false, run_ok_bind, finish_ok]
  rfl

/-- FV_SIG_TIMESTAMP of a whole signed frame (R149, R150). -/
theorem fvSigTimestamp_eq {ts : BitVec 48} (hs : h.signed = true)
    (hfit : s.argNat 0 + h.totalLen ≤ s.params.memSize) (hts : sigTimestamp s.ram (s.argNat 0) h = .ok ts) :
    exec .fvSigTimestamp s = .next ((s.setResWide 0 1 (ts.setWidth 64)).setErr .ok) := by
  simp only [exec, execFvSigTimestamp, hv, hs, if_true, wholeFrame, require_pos hfit, hts, run_ok_bind, finish_ok]

/-- FV_SIG_LINK_ID of an unsigned frame: -1 in 32 bits (R151). -/
theorem fvSigLinkId_unsigned (hs : h.signed = false) :
    exec .fvSigLinkId s = .next ((s.setRes 0 0xFFFFFFFF#32).setErr .ok) := by
  simp only [exec, execFvSigLinkId, hv, hs, Bool.false_eq_true, if_false, run_ok_bind, finish_ok]
  rfl

/-- FV_SIG_LINK_ID of a whole signed frame (R149, R151). -/
theorem fvSigLinkId_eq {link : Byte} (hs : h.signed = true)
    (hfit : s.argNat 0 + h.totalLen ≤ s.params.memSize) (hlink : sigLinkId s.ram (s.argNat 0) h = .ok link) :
    exec .fvSigLinkId s = .next ((s.setRes 0 (link.setWidth 32)).setErr .ok) := by
  simp only [exec, execFvSigLinkId, hv, hs, if_true, wholeFrame, require_pos hfit, hlink, run_ok_bind, finish_ok]

/-- Both getters, of a signed frame past the end of FRAME_RAM (R150, R151). -/
theorem signatureFields_outOfRange (hs : h.signed = true) (hpast : s.params.memSize < s.argNat 0 + h.totalLen) :
    exec .fvSigTimestamp s = .next (s.setErr .outOfRange) ∧ exec .fvSigLinkId s = .next (s.setErr .outOfRange) := by
  simp only [exec, execFvSigTimestamp, execFvSigLinkId, hv, hs, if_true, wholeFrame, require_neg (Nat.not_le.2 hpast),
    run_ok_bind, run_error_bind, finish_raise, and_self]

end Decoded

/-! ### FV_HAS_SIG -/

/-- Settles O20: the held header is decoded, and its signed field is bit 0 of the flags in version 2 only. -/
theorem fvHasSigResult : Obligations.FvHasSigResult := by
  unfold Obligations.FvHasSigResult
  refine ⟨fun s n seq sys comp msg hfit hh => ?_, fun s n inc cmp seq sys comp m0 m1 m2 hfit hh => ?_⟩
  · rw [fvHasSig_eq (decodeHeader_holds (v := .v1) rfl rfl hfit hh), boolWord_eq_ite]
    rfl
  · rw [fvHasSig_eq (decodeHeader_holds (v := .v2) rfl rfl hfit hh), boolWord_eq_ite]
    rfl

/-! ### FV_VALIDATE_CRC -/

/-- FV_VALIDATE_CRC of a frame whose header, payload and checksum FRAME_RAM holds (R143, R144). -/
theorem fvValidateCrc_holds {s : State} {h : Header} {header payload : List Byte} {stored : BitVec 16}
    (hv : s.viewHeader = .ok h) (hheader : header.length = h.headerLen) (hpayload : payload.length = h.n)
    (hfit : s.argNat 0 + h.totalLen ≤ s.params.memSize)
    (hh : s.holds (s.argNat 0) (header ++ payload ++ leBytes 2 stored.toNat)) :
    let crc := checksum (header.drop 1 ++ payload) (s.argByte 1)
    exec .fvValidateCrc s = .next ((((s.setRes 0 (if crc = stored then 1#32 else 0#32)).setRes 1
      (0#16 ++ crc)).setRes 2 (0#16 ++ stored)).setErr .ok) := by
  have hpos : 1 ≤ header.length := by
    have := headerLen_bounds h.version
    rw [hheader, Header.headerLen]
    omega
  obtain ⟨hc, hs⟩ := checksums_of_bytes (s.argByte 1) hheader hpayload hpos (leBytes_length 2 _) hh
  rw [ofNat16_leBytes] at hs
  rw [fvValidateCrc_eq hv hfit hc hs]
  simp only [beq_eq_decide, boolWord_decide, halfWord]

/-- Settles O21: both frame layouts are a header, a payload and a checksum to the one lemma on held frames. -/
theorem fvValidateCrcResult : Obligations.FvValidateCrcResult := by
  unfold Obligations.FvValidateCrcResult
  refine ⟨fun s f hw hfit hh => ?_, fun s f hw hfit hh => ?_⟩
  · have hv := State.viewHeader_frameV1 hfit hh
    intro crc total
    have htotal : (FrameV1.view f).totalLen = total := FrameV1.view_totalLen hw
    refine ⟨fun hin hbytes => ?_, fun hpast => fvValidateCrc_outOfRange hv (htotal ▸ hpast)⟩
    exact fvValidateCrc_holds hv (FrameV1.header_length f) (FrameV1.view_n hw).symm (htotal ▸ hin) hbytes
  · have hv := State.viewHeader_frameV2 hfit hh
    intro crc total
    have htotal : (FrameV2.view f).totalLen = total := FrameV2.view_totalLen hw
    refine ⟨fun hin hbytes => ?_, fun hpast => fvValidateCrc_outOfRange hv (htotal ▸ hpast)⟩
    exact fvValidateCrc_holds hv (FrameV2.header_length f) (FrameV2.view_n hw).symm (htotal ▸ hin) hbytes

/-! ### FV_VALIDATE_SIG -/

/-- Settles O22: the checks in the rule's order on the decoded header, then the comparison over the held frame. -/
theorem fvValidateSigResult : Obligations.FvValidateSigResult := by
  unfold Obligations.FvValidateSigResult
  refine ⟨fun s f hw hfit hh => ?_, fun s f hw hfit hh => ?_, fun s f t key hw hfit hh hne hkey => ?_⟩
  · have hv := State.viewHeader_frameV2 hfit hh
    refine ⟨fvValidateSig_badKeyLen hv, fvValidateSig_failFast hv, fun hk hs hlen hpast => ?_⟩
    exact fvValidateSig_outOfRange hv hk hs hlen (FrameV2.view_totalLen_signed hw hs ▸ hpast)
  · have hv := State.viewHeader_frameV1 hfit hh
    exact ⟨fvValidateSig_badKeyLen hv, fun hk => fvValidateSig_failFast hv hk (.inl (FrameV1.view_signed f))⟩
  · obtain ⟨hv, hs, hin⟩ := State.viewHeader_signed hw hfit hh
    obtain ⟨-, -, hvalid⟩ := State.signature_holds hw hh key
    rw [fvValidateSig_eq hv hs hin hne hkey hvalid, list_beq_eq_decide, boolWord_decide, State.mac]

/-! ### FV_SIG_TIMESTAMP and FV_SIG_LINK_ID -/

/-- A 48-bit timestamp in two result registers (R100). -/
theorem State.setResWide_timestamp (s : State) (ts : BitVec 48) :
    s.setResWide 0 1 (ts.setWidth 64) =
      (s.setRes 0 (ts.extractLsb' 0 32)).setRes 1 (0#16 ++ ts.extractLsb' 32 16) := by
  have hzext : ts.extractLsb' 32 32 = (ts.extractLsb' 32 16).setWidth 32 := by
    apply BitVec.eq_of_toNat_eq
    simp only [BitVec.extractLsb'_toNat, BitVec.toNat_setWidth]
    omega
  have hhi : (ts.extractLsb' 32 16).setWidth 32 = 0#16 ++ ts.extractLsb' 32 16 :=
    BitVec.setWidth_eq_append (by decide)
  rw [State.setResWide, BitVec.extractLsb'_setWidth_of_le (by decide), BitVec.extractLsb'_setWidth_of_le (by decide),
    hzext, hhi]

/-- Settles O23: the held trailer's fields, and on a header alone the sentinels and the range error. -/
theorem signatureFieldResults : Obligations.SignatureFieldResults := by
  unfold Obligations.SignatureFieldResults
  refine ⟨fun s f t hw hfit hh => ?_, fun s f hw hfit hh => ?_, fun s f _ hfit hh => ?_⟩
  · obtain ⟨hv, hs, hin⟩ := State.viewHeader_signed hw hfit hh
    obtain ⟨hlink, hts, -⟩ := State.signature_holds hw hh []
    have hword : t.linkId.setWidth 32 = 0#24 ++ t.linkId := BitVec.setWidth_eq_append (by decide)
    rw [fvSigTimestamp_eq hv hs hin hts, fvSigLinkId_eq hv hs hin hlink, State.setResWide_timestamp, hword]
    exact ⟨rfl, rfl⟩
  · have hv := State.viewHeader_frameV2 hfit hh
    refine ⟨fun hs hpast => ?_, fun hs => ⟨fvSigTimestamp_unsigned hv hs, fvSigLinkId_unsigned hv hs⟩⟩
    exact signatureFields_outOfRange hv hs (FrameV2.view_totalLen_signed hw hs ▸ hpast)
  · have hv := State.viewHeader_frameV1 hfit hh
    exact ⟨fvSigTimestamp_unsigned hv (FrameV1.view_signed f), fvSigLinkId_unsigned hv (FrameV1.view_signed f)⟩

end Sys2Proof.Machine

/-! The Frame Writer: what trimming keeps (R161), the errors of PACK_V1 and PACK_V2 in their order and the frames they
write (R163, R164), and what they leave unchanged (R254). -/

namespace Sys2Proof.Machine

/-! ### Trimming -/

/-- Settles O25: each clause is one of the bounds of `trimLen_spec` for the whole payload. -/
theorem trimmingRule : Obligations.TrimmingRule := by
  unfold Obligations.TrimmingRule
  intro payload v1Len n
  obtain ⟨hle, hmin, hzero, hend⟩ := trimLen_spec payload v1Len payload.length
  change n ≤ payload.length at hle
  change min payload.length v1Len ≤ n at hmin
  refine ⟨hle, hmin, fun b hb => ?_, fun hlong => ?_, fun hshort => ?_⟩
  · obtain ⟨i, hi⟩ := List.mem_iff_getElem?.1 hb
    rw [List.getElem?_drop] at hi
    have hin : n + i < payload.length := (List.getElem?_eq_some_iff.1 hi).1
    exact Option.some.inj (hi.symm.trans (hzero (n + i) (Nat.le_add_right n i) hin))
  · have hin : n - 1 < payload.length := by omega
    have hlast : payload[n - 1]? ≠ some 0#8 := hend.resolve_left (Nat.not_le.2 hlong)
    rw [List.getElem?_eq_getElem hin] at hlast
    exact ⟨payload[n - 1], List.getElem?_eq_getElem hin, fun h0 => hlast (congrArg some h0)⟩
  · omega

/-! ### PACK_V1 -/

section PackV1

variable {s : State}

/-- PACK_V1 of a payload longer than 255 bytes (R163). -/
theorem packV1_payloadTooLarge (hlen : 255 < s.packPayloadLen) :
    exec .packV1 s = .next (s.setErr .payloadTooLarge) := by
  simp only [exec, execPackV1, require_neg (Nat.not_le.2 hlen), run_error_bind, finish_raise]

variable (hlen : s.packPayloadLen ≤ 255)
include hlen

/-- PACK_V1 of a message id of more than one byte (R163). -/
theorem packV1_msgidRange (hid : 255 < s.packMessageId.toNat) :
    exec .packV1 s = .next (s.setErr .msgidRange) := by
  simp only [exec, execPackV1, require_pos hlen, require_neg (Nat.not_le.2 hid), run_ok_bind, run_error_bind,
    finish_raise]

variable (hid : s.packMessageId.toNat ≤ 255)
include hid

/-- PACK_V1 of a payload past the end of FRAME_RAM (R163). -/
theorem packV1_srcOutOfRange (hsrc : ¬ s.inMem s.packSrc s.packPayloadLen) :
    exec .packV1 s = .next (s.setErr .outOfRange) := by
  simp only [exec, execPackV1, require_pos hlen, require_pos hid, require_neg hsrc, run_ok_bind, run_error_bind,
    finish_raise]

variable (hsrc : s.inMem s.packSrc s.packPayloadLen)
include hsrc

/-- PACK_V1 into too few bytes (R163). -/
theorem packV1_dstTooSmall (hroom : ¬ 6 + s.packPayloadLen + 2 ≤ s.packDstLen) :
    exec .packV1 s = .next (s.setErr .dstTooSmall) := by
  simp only [exec, execPackV1, require_pos hlen, require_pos hid, require_pos hsrc, require_neg hroom, run_ok_bind,
    run_error_bind, finish_raise]

variable (hroom : 6 + s.packPayloadLen + 2 ≤ s.packDstLen)
include hroom

/-- PACK_V1 to a destination past the end of FRAME_RAM (R163). -/
theorem packV1_dstOutOfRange (hdst : ¬ s.inMem s.packDst (6 + s.packPayloadLen + 2)) :
    exec .packV1 s = .next (s.setErr .outOfRange) := by
  simp only [exec, execPackV1, require_pos hlen, require_pos hid, require_pos hsrc, require_pos hroom,
    require_neg hdst, run_ok_bind, run_error_bind, finish_raise]

/-- PACK_V1 past its checks (R163). -/
theorem packV1_eq (hdst : s.inMem s.packDst (6 + s.packPayloadLen + 2)) {payload : List Byte}
    (hpay : payload.length = s.packPayloadLen) (hh : s.holds s.packSrc payload) :
    exec .packV1 s = .next (((s.setFrameRam (s.frameRam.writeBytes s.packDst (s.packedV1 payload).bytes)).setRes 0
      (natWord (6 + s.packPayloadLen + 2))).setErr .ok) := by
  have hread := readBytes_at (b := s.ram) hpay hh
  simp only [exec, execPackV1, require_pos hlen, require_pos hid, require_pos hsrc, require_pos hroom,
    require_pos hdst, hread, run_ok_bind, finish_ok, State.packedV1]

end PackV1

/-- The low byte of PACK_V1's message id (R163). -/
theorem State.packMessageId_setWidth (s : State) : s.packMessageId.setWidth 8 = (s.arg 5).extractLsb' 0 8 := by
  apply BitVec.eq_of_toNat_eq
  simp only [State.packMessageId, BitVec.toNat_setWidth, BitVec.extractLsb'_toNat]
  omega

/-- The bytes of the frame that PACK_V1 writes, field by field (R81, R160). -/
theorem State.packedV1_bytes (s : State) (payload : List Byte) :
    let body := [BitVec.ofNat 8 payload.length, (s.arg 4).extractLsb' 0 8, (s.arg 4).extractLsb' 8 8,
      (s.arg 4).extractLsb' 16 8, (s.arg 5).extractLsb' 0 8] ++ payload
    (s.packedV1 payload).bytes =
      0xFE#8 :: body ++ leBytes 2 (checksum body ((s.arg 4).extractLsb' 24 8)).toNat := by
  rw [← s.packMessageId_setWidth]
  rfl

/-- Settles O26: each clause is one way through the checks. -/
theorem packV1Effect : Obligations.PackV1Effect := by
  unfold Obligations.PackV1Effect
  refine fun s => ⟨packV1_payloadTooLarge, packV1_msgidRange, fun hlen hid =>
    ⟨fun hpast => packV1_srcOutOfRange hlen hid (Nat.not_le.2 hpast), fun hsrc =>
      ⟨fun hsmall => packV1_dstTooSmall hlen hid hsrc (by omega), fun hroom => ?_⟩⟩⟩
  have htotal : 6 + s.packPayloadLen + 2 = 8 + s.packPayloadLen := by omega
  have hroom' := htotal.trans_le hroom
  refine ⟨fun hpast => packV1_dstOutOfRange hlen hid hsrc hroom' (by omega), fun hdst payload hpay hh => ?_⟩
  rw [packV1_eq hlen hid hsrc hroom' (by omega) hpay hh, s.packedV1_bytes, htotal, hpay]
  rfl

/-! ### PACK_V2 -/

/-- The payload length of the frame that PACK_V2 writes: trimmed under TRIM (R161, R164). -/
def State.keptLen (s : State) (payload : List Byte) : Nat :=
  if s.packTrim then trimLen payload s.packV1Len payload.length else payload.length

/-- PACK_V2 never lengthens a payload (R161). -/
theorem State.keptLen_le (s : State) (payload : List Byte) : s.keptLen payload ≤ payload.length := by
  unfold State.keptLen
  split
  · exact (trimLen_spec payload s.packV1Len payload.length).1
  · exact Nat.le_refl _

section PackV2

variable {s : State}

/-- PACK_V2 of a payload longer than 255 bytes (R164). -/
theorem packV2_payloadTooLarge (hlen : 255 < s.packPayloadLen) :
    exec .packV2 s = .next (s.setErr .payloadTooLarge) := by
  simp only [exec, execPackV2, require_neg (Nat.not_le.2 hlen), run_error_bind, finish_raise]

variable (hlen : s.packPayloadLen ≤ 255)
include hlen

/-- PACK_V2 with a key longer than KEY_MAX (R164). -/
theorem packV2_badKeyLen (hk : s.params.keyMax < s.opKeyLen.toNat) :
    exec .packV2 s = .next (s.setErr .badKeyLen) := by
  simp only [exec, execPackV2, require_pos hlen, require_neg (Nat.not_le.2 hk), run_ok_bind, run_error_bind,
    finish_raise]

variable (hk : s.opKeyLen.toNat ≤ s.params.keyMax)
include hk

/-- PACK_V2 with the signed flag and no key (R164). -/
theorem packV2_signedFlagWithoutKey (hflag : s.packIncompat.getLsbD 0 = true ∧ s.opKeyLen = 0#8) :
    exec .packV2 s = .next (s.setErr .signedFlagWithoutKey) := by
  simp only [exec, execPackV2, require_pos hlen, require_pos hk, require_neg (not_not_intro hflag), run_ok_bind,
    run_error_bind, finish_raise]

variable (hflag : ¬ (s.packIncompat.getLsbD 0 = true ∧ s.opKeyLen = 0#8))
include hflag

/-- PACK_V2 of a payload past the end of FRAME_RAM (R164). -/
theorem packV2_srcOutOfRange (hsrc : ¬ s.inMem s.packSrc s.packPayloadLen) :
    exec .packV2 s = .next (s.setErr .outOfRange) := by
  simp only [exec, execPackV2, require_pos hlen, require_pos hk, require_pos hflag, require_neg hsrc, run_ok_bind,
    run_error_bind, finish_raise]

variable (hsrc : s.inMem s.packSrc s.packPayloadLen) {payload : List Byte} (hpay : payload.length = s.packPayloadLen)
  (hh : s.holds s.packSrc payload)
include hsrc hpay hh

/-- PACK_V2 past the checks that come before the payload is read (R164; log 13). -/
theorem packV2_read :
    exec .packV2 s = finish s (do
      require (s.packTotal (s.keptLen payload) ≤ s.packDstLen) .dstTooSmall
      require (s.inMem s.packDst (s.packTotal (s.keptLen payload))) .outOfRange
      let bytes ← s.packBytes (payload.take (s.keptLen payload))
      .ok (((s.setFrameRam (s.frameRam.writeBytes s.packDst bytes)).setRes 0
        (natWord (s.packTotal (s.keptLen payload)))).setRes 1 (natWord (s.keptLen payload)))) := by
  have hread := readBytes_at (b := s.ram) hpay hh
  simp only [exec, execPackV2, require_pos hlen, require_pos hk, require_pos hflag, require_pos hsrc, hread,
    run_ok_bind, State.keptLen, hpay]

/-- PACK_V2 into too few bytes (R164). -/
theorem packV2_dstTooSmall (hroom : ¬ s.packTotal (s.keptLen payload) ≤ s.packDstLen) :
    exec .packV2 s = .next (s.setErr .dstTooSmall) := by
  simp only [packV2_read hlen hk hflag hsrc hpay hh, require_neg hroom, run_error_bind, finish_raise]

variable (hroom : s.packTotal (s.keptLen payload) ≤ s.packDstLen)
include hroom

/-- PACK_V2 to a destination past the end of FRAME_RAM (R164). -/
theorem packV2_dstOutOfRange (hdst : ¬ s.inMem s.packDst (s.packTotal (s.keptLen payload))) :
    exec .packV2 s = .next (s.setErr .outOfRange) := by
  simp only [packV2_read hlen hk hflag hsrc hpay hh, require_pos hroom, require_neg hdst, run_ok_bind,
    run_error_bind, finish_raise]

/-- PACK_V2 past its checks (R164). -/
theorem packV2_eq (hdst : s.inMem s.packDst (s.packTotal (s.keptLen payload))) {bytes : List Byte}
    (hb : s.packBytes (payload.take (s.keptLen payload)) = .ok bytes) :
    exec .packV2 s = .next ((((s.setFrameRam (s.frameRam.writeBytes s.packDst bytes)).setRes 0
      (natWord (s.packTotal (s.keptLen payload)))).setRes 1 (natWord (s.keptLen payload))).setErr .ok) := by
  simp only [packV2_read hlen hk hflag hsrc hpay hh, require_pos hroom, require_pos hdst, hb, run_ok_bind, finish_ok]

end PackV2

/-- An empty OP_KEY is one of length 0 (R30). -/
theorem State.opKeyLen_eq_zero_iff {s : State} {key : List Byte} (h : s.opKeyIs key) : s.opKeyLen = 0#8 ↔ key = [] := by
  obtain ⟨hlen, -, -⟩ := h
  rw [← List.length_eq_zero_iff, ← hlen, ← BitVec.toNat_inj]
  rfl

/-- The 48-bit timestamp of ARG8 and ARG7 as a number (R99). -/
theorem State.packTimestamp_toNat (s : State) :
    s.packTimestamp.toNat = ((s.arg 8).toNat % 2 ^ 16) * 2 ^ 32 + (s.arg 7).toNat := by
  rw [State.packTimestamp, BitVec.toNat_append, ← Nat.shiftLeft_add_eq_or_of_lt (s.arg 7).isLt, Nat.shiftLeft_eq,
    BitVec.extractLsb'_toNat, Nat.shiftRight_zero]

/-- The bytes that PACK_V2 writes through the checksum, field by field (R82, R160). -/
theorem State.packedV2_bytes (s : State) (payload : List Byte) :
    let body := [BitVec.ofNat 8 payload.length, s.packFlags, (s.arg 6).extractLsb' 0 8, (s.arg 4).extractLsb' 0 8,
      (s.arg 4).extractLsb' 8 8, (s.arg 4).extractLsb' 16 8] ++ leBytes 3 ((s.arg 5).extractLsb' 0 24).toNat ++ payload
    (s.packedV2 payload).bytes =
      0xFD#8 :: body ++ leBytes 2 (checksum body ((s.arg 4).extractLsb' 24 8)).toNat := rfl

/-- The bytes that PACK_V2 writes: without a key the unsigned frame, with a key the trailer behind it (R162, R164). -/
theorem State.packBytes_eq {s : State} {key : List Byte} (hkey : s.opKeyIs key) (payload : List Byte) :
    let bytes := (s.packedV2 payload).bytes
    s.packBytes payload = .ok (if key = [] then bytes
      else bytes ++ (s.signTrailer bytes key s.packLinkId s.packTimestamp).bytes) := by
  have hempty := State.opKeyLen_eq_zero_iff hkey
  by_cases hne : key = []
  · simp only [State.packBytes, if_pos (hempty.2 hne), if_pos hne, State.packedV2]
  · simp only [State.packBytes, if_neg (mt hempty.1 hne), if_neg hne, State.readOpKey_is hkey, run_ok_bind,
      State.packedV2]

/-- A signed frame's bytes are those that the signature covers and the truncated digest of these (R91, R162). -/
theorem State.append_signTrailer_bytes (s : State) (bytes key : List Byte) (link : Byte) (ts : BitVec 48) :
    let signed := bytes ++ link :: leBytes 6 ts.toNat
    bytes ++ (s.signTrailer bytes key link ts).bytes = signed ++ (s.keyedHash key signed).take 6 :=
  (List.append_assoc _ _ _).symm

/-- The two clauses of PACK_V2's checks on the signed flag (R164). -/
theorem State.not_signedFlagWithoutKey {s : State} (h : s.packIncompat.getLsbD 0 = false ∨ s.opKeyLen ≠ 0#8) :
    ¬ (s.packIncompat.getLsbD 0 = true ∧ s.opKeyLen = 0#8) := fun ⟨hbit, hzero⟩ =>
  h.elim (fun hclear => absurd (hclear.symm.trans hbit) (by decide)) (· hzero)

/-- Settles O27: each clause is one way through the checks. -/
theorem packV2Effect : Obligations.PackV2Effect := by
  unfold Obligations.PackV2Effect
  refine ⟨fun s => ⟨packV2_payloadTooLarge, packV2_badKeyLen, fun hlen hzero hbit => ?_, fun hlen hk hflag => ?_⟩,
    fun s payload key hpay hlen hkey hflag hsrc hh => ?_⟩
  · have hk : s.opKeyLen.toNat ≤ s.params.keyMax := hzero ▸ Nat.zero_le _
    exact packV2_signedFlagWithoutKey hlen hk ⟨hbit, hzero⟩
  · have hflag' := State.not_signedFlagWithoutKey hflag
    refine ⟨fun hpast => packV2_srcOutOfRange hlen hk hflag' (Nat.not_le.2 hpast), fun hsrc payload hpay hh => ?_⟩
    intro n total
    have htotal : s.packTotal (s.keptLen payload) = total := by
      change 10 + n + 2 + _ = 12 + n + _
      omega
    refine ⟨fun hsmall => packV2_dstTooSmall hlen hk hflag' hsrc hpay hh ?_,
      fun hroom hpast => packV2_dstOutOfRange hlen hk hflag' hsrc hpay hh ?_ ?_⟩
    · exact htotal ▸ Nat.not_le.2 hsmall
    · exact htotal ▸ hroom
    · exact htotal ▸ Nat.not_le.2 hpast
  · intro n flags body crc f1 ts f2 frame hroom hdst
    have hempty := State.opKeyLen_eq_zero_iff hkey
    have hflag' := State.not_signedFlagWithoutKey (hflag.imp_right (mt hempty.1))
    have hk : s.opKeyLen.toNat ≤ s.params.keyMax := hkey.1.trans_le hkey.2.1
    have hn : (payload.take n).length = n := List.length_take_of_le (s.keptLen_le payload)
    have hflags : s.packFlags = flags := by simp only [State.packFlags, hempty, flags]
    have hf1 : (s.packedV2 (payload.take n)).bytes = f1 := by
      rw [s.packedV2_bytes, hn, hflags]
    have hb : s.packBytes (payload.take n) = .ok frame := by
      rw [State.packBytes_eq hkey, State.append_signTrailer_bytes, hf1, s.packTimestamp_toNat]
      rfl
    have htotal : s.packTotal (s.keptLen payload) = frame.length :=
      (congrArg s.packTotal hn).symm.trans (State.packBytes_length hb).symm
    have heq := packV2_eq hlen hk hflag' (hpay ▸ hsrc) hpay hh (htotal.trans_le hroom) (htotal ▸ hdst) hb
    rw [heq, htotal]
    rfl

/-! ### The frame of the two packers -/

/-- What a packer that leaves its results in the listed registers may change: STATUS.ERR and these; after success the
FRAME_RAM bytes of the frame, as many from `dst` on as RES0 says; after an error neither (R163, R164, R254). -/
def State.PacksIn (s : State) (results : List (Fin 4)) (t : State) : Prop :=
  t = { s with err := t.err, res := t.res, frameRam := t.frameRam } ∧
  (∀ k : Fin 4, k ∉ results → t.res[k] = s.res[k]) ∧
  (t.err = .ok → ∀ a, a < s.packDst ∨ s.packDst + (t.res[(0 : Fin 4)]).toNat ≤ a →
    t.frameRam.read a = s.frameRam.read a) ∧
  (t.err ≠ .ok → t.frameRam = s.frameRam ∧ t.res = s.res)

/-- An error leaves FRAME_RAM and the results (R253). -/
theorem State.packsIn_error (s : State) (results : List (Fin 4)) {code : ErrCode} (hc : code ≠ .ok) :
    s.PacksIn results (s.setErr code) :=
  ⟨rfl, fun _ _ => rfl, fun hok => absurd hok hc, fun _ => ⟨rfl, rfl⟩⟩

/-- A frame written at `dst` with its length in RES0, and results beside it (R163, R164). -/
theorem State.packsIn_written {s t : State} {results : List (Fin 4)} {bytes : List Byte}
    (hrep : (s.setFrameRam (s.frameRam.writeBytes s.packDst bytes)).ReportsIn results t) (hok : t.err = .ok)
    (hlen : (t.res[(0 : Fin 4)]).toNat = bytes.length) : s.PacksIn results t := by
  obtain ⟨hrest, hres⟩ := hrep
  have hram : t.frameRam = s.frameRam.writeBytes s.packDst bytes := congrArg State.frameRam hrest
  refine ⟨?_, hres, fun _ a ha => ?_, fun herr => absurd hok herr⟩
  · rw [hram]
    exact hrest
  · rw [hlen] at ha
    rw [hram, Memory.read_writeBytes_outside _ _ _ ha]

/-- Settles O28: each packer ends with an error, or with a frame written and its own result registers. -/
theorem packFrame : Obligations.PackFrame := by
  unfold Obligations.PackFrame
  intro s t i results hmem h
  change s.PacksIn results t
  simp only [List.mem_cons, Prod.mk.injEq, List.not_mem_nil, or_false] at hmem
  obtain ⟨rfl, rfl⟩ | ⟨rfl, rfl⟩ := hmem
  · obtain ⟨bytes, hlen, hpay, -, -, rfl⟩ | ⟨code, hc, rfl⟩ := execPackV1_next h
    · refine State.packsIn_written (((State.reportsIn_refl _ _).setRes (by decide) _).setErr .ok) rfl ?_
      rw [State.setErr_res, State.res_setRes_same, natWord_toNat (by omega)]
    · exact s.packsIn_error _ hc
  · obtain ⟨payload, n, bytes, hpl, hpay, -, -, -, -, -, hn, hlen, -, rfl⟩ | ⟨code, hc, rfl⟩ := execPackV2_next h
    · have htotal : s.packTotal n ≤ 280 := State.packTotal_le (by omega)
      refine State.packsIn_written ((((State.reportsIn_refl _ _).setRes (by decide) _).setRes (by decide) _).setErr .ok)
        rfl ?_
      rw [State.setErr_res, State.res_setRes_other _ (by decide), State.res_setRes_same, natWord_toNat (by omega)]
    · exact s.packsIn_error _ (by rintro rfl; exact absurd hc (by decide))

end Sys2Proof.Machine

/-! What is read back of a packed frame: its checksum, a lenient scan, its fields and its signature (R166). -/

namespace Sys2Proof.Machine

/-! ### The frame that a successful packer leaves -/

/-- What a packer that succeeded in writing `bytes` leaves (R163, R164): the bytes at `dst`, inside FRAME_RAM, their
number in RES0, and nothing changed but FRAME_RAM, the results and STATUS.ERR. -/
structure State.Wrote (s t : State) (bytes : List Byte) : Prop where
  held : t.holds s.packDst bytes
  fits : s.packDst + bytes.length ≤ s.params.memSize
  length : t.res[(0 : Fin 4)] = natWord bytes.length
  rest : t = { s with err := t.err, res := t.res, frameRam := t.frameRam }

/-- A packer writes under the parameters it started with (R6). -/
theorem State.Wrote.params {s t : State} {bytes : List Byte} (hw : s.Wrote t bytes) : t.params = s.params :=
  (congrArg State.params hw.rest :)

/-- A packer leaves the key it signed with (R164). -/
theorem State.Wrote.opKeyIs {s t : State} {bytes key : List Byte} (hw : s.Wrote t bytes) (hkey : s.opKeyIs key) :
    t.opKeyIs key := by
  rw [hw.rest]
  exact hkey

/-- PACK_V1 that succeeded wrote a version 1 frame (R163). -/
theorem packV1_wrote {s t : State} (h : exec .packV1 s = .next t) (hok : t.err = .ok) :
    ∃ payload : List Byte, payload.length = s.packPayloadLen ∧ payload.length ≤ 255 ∧ s.packMessageId.toNat ≤ 255 ∧
      s.Wrote t (s.packedV1 payload).bytes := by
  obtain ⟨_, -, hmax, hfit, ⟨payload, hlen, -, hid, rfl⟩, rfl⟩ | ⟨code, hc, rfl⟩ := execPackV1_next h
  · refine ⟨payload, hlen, hlen.trans_le hmax, hid, ⟨s.holds_writeBytes _ _, hfit, ?_, rfl⟩⟩
    rw [State.setErr_res, State.res_setRes_same]
    rfl
  · exact absurd hok hc

/-- PACK_V2 that succeeded wrote the frame of a payload whose length it reports (R164). -/
theorem packV2_wrote {s t : State} (h : exec .packV2 s = .next t) (hok : t.err = .ok) :
    ∃ payload bytes : List Byte, payload.length ≤ 255 ∧ ¬ (s.packIncompat.getLsbD 0 = true ∧ s.opKeyLen = 0#8) ∧
      t.res[(1 : Fin 4)] = natWord payload.length ∧ s.packBytes payload = .ok bytes ∧ s.Wrote t bytes := by
  obtain ⟨payload, n, bytes, hlen, hmax, -, hflag, -, -, hb, hn, -, hfit, rfl⟩ | ⟨code, hc, rfl⟩ := execPackV2_next h
  · have htake : (payload.take n).length = n := List.length_take_of_le hn
    refine ⟨payload.take n, bytes, by omega, hflag, ?_, hb, ⟨s.holds_writeBytes _ _, hfit, ?_, rfl⟩⟩
    · rw [State.setErr_res, State.res_setRes_same, htake]
    · rw [State.setErr_res, State.res_setRes_other _ (by decide), State.res_setRes_same]
  · rw [State.setErr_err] at hok
    subst hok
    exact absurd hc (by decide)

/-! ### Packed bytes as a frame of either version -/

/-- Bytes that are a frame of the view `h`: a header that decodes to it, a payload, their checksum of R160 and, in a
signed frame, a trailer (R81, R82, R87, R140). -/
structure SealedFrame (bytes : List Byte) (h : Header) (header payload : List Byte) (extra : Byte) : Prop where
  isPrefix : header ++ payload ++ leBytes 2 (sealChecksum header payload extra).toNat <+: bytes
  length : bytes.length = h.totalLen
  headerLength : header.length = h.headerLen
  payloadLength : payload.length = h.n
  decodes : ∀ {b : Buffer} {start limit : Nat}, start + h.headerLen ≤ limit →
    (∀ i, i < header.length → b (start + i) = header[i]?) → decodeHeader b start limit = .ok h

/-- PACK_V1's frame, at the view of its fields (R81, R163). -/
theorem State.packedV1_sealed (s : State) {payload : List Byte} (hlen : payload.length ≤ 255) :
    SealedFrame (s.packedV1 payload).bytes (FrameV1.view (s.packedV1 payload)) (s.packedV1 payload).header payload
      s.packCrcExtra := by
  have hw : (s.packedV1 payload).wf = true := decide_eq_true hlen
  refine ⟨List.prefix_rfl, ?_, rfl, (FrameV1.view_n hw).symm, decodeHeader_frameV1⟩
  rw [FrameV1.view_totalLen hw, FrameV1.bytes_length]
  omega

/-- PACK_V2's frame, with or without a trailer, at the view of its fields (R82, R164). -/
theorem State.packBytes_sealed {s : State} {payload bytes : List Byte} (hlen : payload.length ≤ 255)
    (hflag : ¬ (s.packIncompat.getLsbD 0 = true ∧ s.opKeyLen = 0#8)) (hb : s.packBytes payload = .ok bytes) :
    SealedFrame bytes (FrameV2.view (s.packedV2 payload)) (s.packedV2 payload).header payload s.packCrcExtra := by
  have hw : (s.packedV2 payload).wf = true := decide_eq_true hlen
  refine ⟨?_, ?_, FrameV2.header_length _, (FrameV2.view_n hw).symm, decodeHeader_frameV2⟩
  · obtain ⟨-, rfl⟩ | ⟨-, key, -, rfl⟩ := State.packBytes_cases hb
    · exact List.prefix_rfl
    · exact List.prefix_append _ _
  · have hsigned : (s.packedV2 payload).signedBit = true ↔ s.opKeyLen ≠ 0#8 := State.packedV2_signed hflag
    rw [State.packBytes_length hb, FrameV2.view_totalLen hw, State.packTotal]
    change 10 + payload.length + 2 + _ = 12 + payload.length + _
    simp only [hsigned, ite_not]
    omega

/-- A packer that succeeded, of either version, wrote a frame with its checksum (R166). -/
theorem pack_wrote_sealed {s t : State} {i : Instr} (hi : i = .packV1 ∨ i = .packV2) (h : exec i s = .next t)
    (hok : t.err = .ok) :
    ∃ bytes view header payload, s.Wrote t bytes ∧ SealedFrame bytes view header payload s.packCrcExtra := by
  obtain rfl | rfl := hi
  · obtain ⟨payload, -, hlen, -, hw⟩ := packV1_wrote h hok
    exact ⟨_, _, _, payload, hw, s.packedV1_sealed hlen⟩
  · obtain ⟨payload, bytes, hlen, hflag, -, hb, hw⟩ := packV2_wrote h hok
    exact ⟨bytes, _, _, payload, hw, State.packBytes_sealed hlen hflag hb⟩

section Sealed

variable {s t : State} {bytes header payload : List Byte} {h : Header} {extra : Byte} (hw : s.Wrote t bytes)
  (hf : SealedFrame bytes h header payload extra)
include hw hf

/-- The header, payload and checksum of a written frame are held. -/
theorem State.Wrote.holds_sealed :
    t.holds s.packDst (header ++ payload ++ leBytes 2 (sealChecksum header payload extra).toNat) := by
  obtain ⟨tail, htail⟩ := hf.isPrefix
  exact (State.holds_append.1 (htail ▸ hw.held)).1

/-- A written frame ends inside FRAME_RAM. -/
theorem State.Wrote.totalLen_fits : s.packDst + h.totalLen ≤ s.params.memSize := hf.length ▸ hw.fits

/-- RES0 is a written frame's length (R87). -/
theorem State.Wrote.res_totalLen : t.res[(0 : Fin 4)] = natWord h.totalLen := hf.length ▸ hw.length

/-- The header of a written frame is decoded, whatever limit the frame fits in (R140). -/
theorem State.Wrote.decodeHeader {limit : Nat} (hl : s.packDst + h.totalLen ≤ limit) :
    Machine.decodeHeader t.ram s.packDst limit = .ok h := by
  have hle : h.headerLen ≤ h.totalLen := by
    simp only [Header.totalLen, Header.throughChecksum]
    omega
  obtain ⟨hheader, -⟩ := State.holds_append.1 (State.holds_append.1 (hw.holds_sealed hf)).1
  exact hf.decodes (by omega) hheader

/-- Any FV_ command at `dst` sees the written frame's header (R140). -/
theorem State.Wrote.viewHeader {u : State} (hram : u.frameRam = t.frameRam) (hparams : u.params = t.params)
    (h0 : u.argNat 0 = s.packDst) : u.viewHeader = .ok h := by
  rw [State.viewHeader, State.ram, hram, h0, hparams, hw.params]
  exact hw.decodeHeader hf (hw.totalLen_fits hf)

end Sealed

/-- ARG0 set to a packer's is its destination (R99). -/
theorem State.setArg_zero_packDst (s t : State) : (t.setArg 0 (s.arg 0)).argNat 0 = s.packDst := by
  rw [State.argNat, State.arg_setArg_same]
  rfl

/-- Writing another operand leaves ARG0. -/
theorem State.setArg_one_argNat_zero (t : State) (v : Word) : (t.setArg 1 v).argNat 0 = t.argNat 0 :=
  congrArg BitVec.toNat (State.arg_setArg_other t (by decide) v)

/-- The low byte of a word whose other bits are 0. -/
theorem byteField_zero_append (b : Byte) : byteField (0#24 ++ b) 0 = b := by
  have hzext : 0#24 ++ b = b.setWidth 32 := (BitVec.setWidth_eq_append (by decide)).symm
  rw [hzext, byteField, Nat.mul_zero, BitVec.extractLsb'_setWidth_of_le (by decide), BitVec.extractLsb'_eq_self]

/-! ### The checksum -/

/-- Settles O29: the written frame holds the checksum that the command computes. -/
theorem packThenValidateCrc : Obligations.PackThenValidateCrc := by
  unfold Obligations.PackThenValidateCrc
  intro s t i hi h hok u
  obtain ⟨bytes, view, header, payload, hw, hf⟩ := pack_wrote_sealed hi h hok
  have h0 : u.argNat 0 = s.packDst := by rw [State.setArg_one_argNat_zero, State.setArg_zero_packDst]
  have h1 : u.argByte 1 = s.packCrcExtra := by
    rw [State.argByte, State.arg_setArg_same, byteField_zero_append]
  have hv : u.viewHeader = .ok view := hw.viewHeader hf rfl rfl h0
  have hfit : u.argNat 0 + view.totalLen ≤ u.params.memSize := by
    rw [h0, show u.params = s.params from hw.params]
    exact hw.totalLen_fits hf
  have hheld : u.holds (u.argNat 0) (header ++ payload ++ leBytes 2 (sealChecksum header payload s.packCrcExtra).toNat) :=
    h0 ▸ hw.holds_sealed hf
  have hpos : 1 ≤ header.length := by
    have := headerLen_bounds view.version
    rw [hf.headerLength, Header.headerLen]
    omega
  refine ⟨sealChecksum header payload s.packCrcExtra, ?_⟩
  rw [fvValidateCrc_holds hv hf.headerLength hf.payloadLength hfit hheld, h1, ← sealChecksum_eq _ _ _ hpos, if_pos rfl]

/-! ### A lenient scan -/

/-- The end of a frame inside a legal FRAME_RAM is no wrapped sum (R6, R98). -/
theorem add_natWord_toNat {a : Word} {n : Nat} (h : a.toNat + n < 2 ^ 32) : (a + natWord n).toNat = a.toNat + n := by
  rw [BitVec.toNat_add, natWord_toNat (by omega), Nat.mod_eq_of_lt h]

/-- An operand is the word of its number (R98). -/
theorem natWord_argNat (s : State) (i : Fin 9) : natWord (s.argNat i) = s.arg i :=
  (BitVec.ofNat_toNat _ _).trans (BitVec.setWidth_eq _)

/-- Settles O30: the range is one whole candidate, which a lenient scan accepts. -/
theorem packThenScanLenient : Obligations.PackThenScanLenient := by
  unfold Obligations.PackThenScanLenient
  intro s t i hlegal hi h hok hen hst total u
  obtain ⟨bytes, view, header, payload, hw, hf⟩ := pack_wrote_sealed hi h hok
  have hfit := hw.totalLen_fits hf
  obtain ⟨⟨-, hmem⟩, -⟩ := hlegal
  have htotal : total = natWord view.totalLen := hw.res_totalLen hf
  have h0 : u.argNat 0 = s.packDst := by rw [State.setArg_one_argNat_zero, State.setArg_zero_packDst]
  have h1 : u.argNat 1 = s.packDst + view.totalLen := by
    rw [State.argNat, State.arg_setArg_same, htotal]
    exact add_natWord_toNat (by change s.packDst + _ < _; omega)
  have hparams : u.params = s.params := hw.params
  have hen' : u.enable = true := (congrArg State.enable hw.rest :).trans hen
  have hst' : u.strict = false := (congrArg State.strict hw.rest :).trans hst
  have hscan : u.scanBuffer u.ram (u.argNat 0) (u.argNat 1) u.replayMap =
      .ok ⟨some (s.packDst, view.totalLen), 0, u.replayMap⟩ := by
    rw [h0, h1]
    exact scanBuffer_lenient hst' (hw.decodeHeader hf (Nat.le_refl _)) (Nat.le_refl _)
  rw [execScan_ok hen' (by rw [h1, hparams]; exact hfit) (by rw [h0, h1]; omega) hscan, htotal,
    ← natWord_argNat s 0]
  rfl

/-! ### The fields -/

/-- A length in a result register, as FV_DECODE reports it (R100). -/
theorem natWord_setWidth {w n : Nat} (hw : w ≤ 32) : (natWord n).setWidth w = BitVec.ofNat w n :=
  BitVec.setWidth_ofNat_of_le hw n

/-- A message id of one byte, in RES2 of an unsigned frame (R100). -/
theorem shortId_word {id : BitVec 24} (h : id.toNat ≤ 255) :
    0#7 ++ BitVec.ofBool false ++ (id.setWidth 8).setWidth 24 = 0#8 ++ id := by
  have hid : (id.setWidth 8).setWidth 24 = id := by
    apply BitVec.eq_of_toNat_eq
    simp only [BitVec.toNat_setWidth]
    omega
  rw [hid]
  rfl

/-- Settles O31: the header of the written frame is the packed fields, and its total length is RES0. -/
theorem packThenDecode : Obligations.PackThenDecode := by
  unfold Obligations.PackThenDecode
  intro s t hok u total
  have h0 : u.argNat 0 = s.packDst := State.setArg_zero_packDst s t
  refine ⟨fun h => ?_, fun h => ?_⟩
  · obtain ⟨payload, hlen, hmax, hid, hw⟩ := packV1_wrote h hok
    have hf := s.packedV1_sealed hmax
    have htotal : total = BitVec.ofNat 16 (FrameV1.view (s.packedV1 payload)).totalLen := by
      rw [← natWord_setWidth (by decide), ← hw.res_totalLen hf]
    rw [fvDecode_eq (hw.viewHeader hf (u := u) rfl rfl h0), htotal, h0, State.setHeader, ← hlen, ← shortId_word hid]
    rfl
  · obtain ⟨payload, bytes, hmax, hflag, hn, hb, hw⟩ := packV2_wrote h hok
    have hf := State.packBytes_sealed hmax hflag hb
    have htotal : total = BitVec.ofNat 16 (FrameV2.view (s.packedV2 payload)).totalLen := by
      rw [← natWord_setWidth (by decide), ← hw.res_totalLen hf]
    rw [fvDecode_eq (hw.viewHeader hf (u := u) rfl rfl h0), htotal, h0, State.setHeader, hn, natWord_setWidth (by decide)]
    rfl

/-! ### The signature -/

/-- PACK_V2 with a key wrote a signed frame, whose hash is the truncated digest of the bytes before it (R162, R164). -/
theorem packV2_wrote_signed {s t : State} {key : List Byte} (hne : key ≠ []) (hkey : s.opKeyIs key)
    (h : exec .packV2 s = .next t) (hok : t.err = .ok) :
    ∃ (f : FrameV2) (tr : Trailer), (Instr.frameV2Signed f tr).wf = true ∧ s.Wrote t (f.bytes ++ tr.bytes) ∧
      tr.hash = (s.keyedHash key (f.bytes ++ tr.covered)).take 6 := by
  obtain ⟨payload, bytes, hlen, hflag, -, hb, hw⟩ := packV2_wrote h hok
  rw [State.packBytes_eq hkey, if_neg hne] at hb
  cases hb
  have hsigned := (State.packedV2_signed (p := payload) hflag).2 (mt (State.opKeyLen_eq_zero_iff hkey).1 hne)
  exact ⟨_, _, frameV2Signed_wf_iff.2 ⟨decide_eq_true hlen, hsigned, s.mac_length _ _⟩, hw, rfl⟩

/-- FRAME_RAM holds one list of a length at an index. -/
theorem State.holds_unique {s : State} {a : Nat} {L M : List Byte} (hL : s.holds a L) (hM : s.holds a M)
    (hlen : L.length = M.length) : L = M := by
  refine List.ext_getElem? fun i => ?_
  by_cases hi : i < L.length
  · rw [← hL i hi, hM i (hlen ▸ hi)]
  · rw [List.getElem?_eq_none (by omega), List.getElem?_eq_none (by omega)]

/-- The bytes that a written frame's signature covers are all but the last 6 (R91). -/
theorem State.Wrote.eq_signed {s t : State} {f : FrameV2} {tr : Trailer} {signed : List Byte}
    (hwf : (Instr.frameV2Signed f tr).wf = true) (hw : s.Wrote t (f.bytes ++ tr.bytes))
    (hlen : signed.length + 6 = (t.res[(0 : Fin 4)]).toNat) (hheld : t.holds s.packDst signed) :
    signed = f.bytes ++ tr.covered := by
  obtain ⟨hf, -, hhash⟩ := frameV2Signed_wf_iff.1 hwf
  have hmax : f.payload.length ≤ 255 := of_decide_eq_true hf
  have hall : f.bytes ++ tr.bytes = f.bytes ++ tr.covered ++ tr.hash := (List.append_assoc _ _ _).symm
  have hbytes : (f.bytes ++ tr.bytes).length = f.payload.length + 25 := by
    rw [List.length_append, FrameV2.bytes_length, Trailer.bytes_length, hhash]
    omega
  rw [hw.length, natWord_toNat (by omega), hall, List.length_append, hhash] at hlen
  exact State.holds_unique hheld (State.holds_append.1 (hall ▸ hw.held)).1 (Nat.add_right_cancel hlen)

/-- FV_VALIDATE_SIG of a written signed frame under any key (R147). -/
theorem State.Wrote.validateSig {s t u : State} {f : FrameV2} {tr : Trailer} {key : List Byte}
    (hwf : (Instr.frameV2Signed f tr).wf = true) (hw : s.Wrote t (f.bytes ++ tr.bytes))
    (hram : u.frameRam = t.frameRam) (hparams : u.params = t.params) (h0 : u.argNat 0 = s.packDst) (hne : key ≠ [])
    (hkey : u.opKeyIs key) :
    exec .fvValidateSig u = .next ((u.setRes 0
      (if (s.keyedHash key (f.bytes ++ tr.covered)).take 6 = tr.hash then 1#32 else 0#32)).setErr .ok) := by
  obtain ⟨-, -, hhash⟩ := frameV2Signed_wf_iff.1 hwf
  have hparams' : u.params = s.params := hparams.trans hw.params
  have hfit : u.argNat 0 + (25 + f.payload.length) ≤ u.params.memSize := by
    have := hw.fits
    rw [List.length_append, FrameV2.bytes_length, Trailer.bytes_length, hhash] at this
    rw [h0, hparams']
    omega
  have hheld : u.holds (u.argNat 0) (f.bytes ++ tr.bytes) := by
    rw [h0, State.holds, hram]
    exact hw.held
  have hmac : u.keyedHash key = s.keyedHash key := by
    unfold State.keyedHash
    rw [hparams']
  rw [fvValidateSigResult.2.2 u f tr key hwf hfit hheld hne hkey, hmac]

/-- Settles O32: the written hash is the digest under the packing key, and no other digest. -/
theorem packThenValidateSignature : Obligations.PackThenValidateSignature := by
  unfold Obligations.PackThenValidateSignature
  intro s t key hne hkey h hok u
  obtain ⟨f, tr, hwf, hw, hhash⟩ := packV2_wrote_signed hne hkey h hok
  have h0 : u.argNat 0 = s.packDst := State.setArg_zero_packDst s t
  constructor
  · have hukey : u.opKeyIs key := hw.opKeyIs hkey
    rw [hw.validateSig hwf (u := u) rfl rfl h0 hne hukey, if_pos hhash.symm]
  · intro other signed mem len hother hlen hheld v hvkey hdiff
    have hsigned : signed = f.bytes ++ tr.covered := hw.eq_signed hwf hlen hheld
    rw [hw.validateSig hwf (u := v) rfl rfl h0 hother hvkey, hhash, ← hsigned, if_neg hdiff]

end Sys2Proof.Machine

/-! The Frame Scanner: the anti-replay rule (R186, R197), the strict check of a candidate (R182 to R190), and what
SCAN reports (R181, R191 to R194). -/

namespace Sys2Proof.Machine

/-! ### The anti-replay rule -/

/-- A composite key is never the sentinel, so it is looked up in the map (R130, R134). -/
theorem ReplayMap.lookup_of_lt {key : Nat} (h : key < 2 ^ 24) (m : ReplayMap) : m.lookup key = Sparse.get m key :=
  ReplayMap.lookup_of_ne (by unfold mapSentinel; omega) m

section ReplayCheck

variable {m : ReplayMap} {window key : Nat} {ts : BitVec 48} {last : BitVec 64}

/-- A key without a record is accepted and recorded (R186). -/
theorem replayCheck_absent (h : m.lookup key = none) :
    replayCheck m window key ts = some (some (key, ts.setWidth 64)) := by
  simp only [replayCheck, h]

/-- The check of a key with a record (R186). -/
theorem replayCheck_present (h : m.lookup key = some last) :
    replayCheck m window key ts =
      if last.toNat ≤ ts.toNat + window then
        some (if last.toNat < ts.toNat then some (key, ts.setWidth 64) else none)
      else none := by
  simp only [replayCheck, h]

/-- A key with a record passes exactly when the timestamp plus the window reaches it (R186). -/
theorem replayCheck_isSome_iff (h : m.lookup key = some last) :
    (replayCheck m window key ts).isSome = true ↔ last.toNat ≤ ts.toNat + window := by
  rw [replayCheck_present h, Option.isSome_ite]

/-- What was put at a composite key is looked up there (R132). -/
theorem ReplayMap.lookup_put_same (hk : key < 2 ^ 24) (m : ReplayMap) (v : BitVec 64) :
    (m.put key v).lookup key = some v := by
  rw [ReplayMap.lookup_of_lt hk, ReplayMap.put, Sparse.get_put_same]

/-- A timestamp survives being held as a 64-bit record (R38). -/
theorem setWidth64_toNat (ts : BitVec 48) : (ts.setWidth 64).toNat = ts.toNat :=
  BitVec.toNat_setWidth_of_le (by decide)

/-- The record of a key behind a check that passed: no older than the timestamp, within the window of it, and either
the timestamp itself or the record of before (R186). -/
theorem lookup_apply_of_replayCheck {upd : Option Update} (hk : key < 2 ^ 24)
    (h : replayCheck m window key ts = some upd) :
    ∃ last, (m.apply upd).lookup key = some last ∧ ts.toNat ≤ last.toNat ∧ last.toNat ≤ ts.toNat + window ∧
      (last.toNat = ts.toNat ∨ m.lookup key = some last) := by
  have hput : ∃ last, (m.apply (some (key, ts.setWidth 64))).lookup key = some last ∧ ts.toNat ≤ last.toNat ∧
      last.toNat ≤ ts.toNat + window ∧ (last.toNat = ts.toNat ∨ m.lookup key = some last) := by
    have hts := setWidth64_toNat ts
    exact ⟨_, ReplayMap.lookup_put_same hk m _, hts.ge, by omega, .inl hts⟩
  cases hlast : m.lookup key with
  | none =>
    rw [replayCheck_absent hlast] at h
    cases h
    rwa [hlast] at hput
  | some last =>
    rw [replayCheck_present hlast] at h
    split at h
    next hwin =>
      cases h
      split
      next hnewer => rwa [hlast] at hput
      next hold => exact ⟨last, hlast, Nat.not_lt.1 hold, hwin, .inr rfl⟩
    next => cases h

end ReplayCheck

/-- Settles O39: each clause is one branch of the check on the record of the key. -/
theorem replayRule : Obligations.ReplayRule := by
  unfold Obligations.ReplayRule
  intro m window key ts hk
  rw [← ReplayMap.lookup_of_lt hk]
  refine ⟨replayCheck_absent, fun last hlast => ?_⟩
  rw [replayCheck_present hlast]
  refine ⟨fun hbelow => if_neg (Nat.not_le.2 hbelow), fun hwin hold => ?_, fun hnewer => ?_⟩
  · rw [if_pos hwin, if_neg (Nat.not_lt.2 hold)]
  · rw [if_pos (by omega), if_pos hnewer]

/-- Settles O40: the record that the older timestamp meets is the newer timestamp, or one that stood above it all the
time, and then both bounds hold. -/
theorem replayedTimestamp : Obligations.ReplayedTimestamp := by
  unfold Obligations.ReplayedTimestamp
  intro m window key t1 t2 u1 u2 hk _ h1 h2
  obtain ⟨last1, hlast1, -, hwin1, -⟩ := lookup_apply_of_replayCheck hk h1
  obtain ⟨last2, hlast2, hold2, -, hsame⟩ := lookup_apply_of_replayCheck hk h2
  rw [replayCheck_isSome_iff hlast2]
  obtain hnew | hstood := hsame
  · rw [hnew]
  · obtain rfl : last1 = last2 := Option.some.inj (hlast1.symm.trans hstood)
    exact ⟨fun _ => hold2.trans hwin1, fun _ => hwin1⟩

/-! ### The message conditions -/

/-- `length_ok` of either version (R189). -/
theorem lengthOk_iff {h : Header} {m : MsgMeta} :
    lengthOk h m = true ↔
      (h.version = .v1 ∧ h.payloadLen = m.lengthV1) ∨
        (h.version = .v2 ∧ m.lengthV1.toNat ≤ h.payloadLen.toNat ∧ h.payloadLen.toNat ≤ m.lengthV2.toNat) := by
  cases hv : h.version with
  | v1 => simp [lengthOk, hv]
  | v2 =>
    simp only [lengthOk, hv, Bool.and_eq_true, decide_eq_true_eq, reduceCtorEq, false_and, false_or, true_and]
    rfl

/-- The checksum comparison over the held covered bytes and the two bytes after them (R90, R143). -/
theorem validateCrc_of_bytes {b : Buffer} {c : Nat} {h : Header} {covered stored : List Byte} (extra : Byte)
    (hc : covered.length = h.headerLen - 1 + h.n) (hs : stored.length = 2)
    (hb : ∀ i, i < covered.length + stored.length → b (c + 1 + i) = (covered ++ stored)[i]?) :
    validateCrc b c h extra = .ok (decide ((checksum covered extra).toNat = fromLE stored)) := by
  have hcovered : readBytes b (c + 1) (h.headerLen - 1 + h.n) = .ok covered := readBytes_at hc fun i hi => by
    rw [hb i (Nat.lt_add_right _ hi), List.getElem?_append_left hi]
  have hstored : readBytes b (c + h.headerLen + h.n) 2 = .ok stored := readBytes_at hs fun i hi => by
    have hpos : 6 ≤ h.headerLen := (headerLen_bounds h.version).1
    rw [show c + h.headerLen + h.n + i = c + 1 + (covered.length + i) by omega, hb _ (Nat.add_lt_add_left hi _),
      List.getElem?_append_right (Nat.le_add_right _ _), Nat.add_sub_cancel_left]
  have hfield : (BitVec.ofNat 16 (fromLE stored)).toNat = fromLE stored :=
    Nat.mod_eq_of_lt ((fromLE_lt stored).trans_eq (congrArg (256 ^ ·) hs))
  simp only [validateCrc, computedChecksum, storedChecksum, hcovered, hstored, run_ok_bind, beq_eq_decide,
    ← BitVec.toNat_inj, hfield]

/-- Settles O42: the resolver answers none, or a length that it forbids, or one that it allows. -/
theorem messageConditions : Obligations.MessageConditions := by
  unfold Obligations.MessageConditions
  refine fun s b c h => ⟨fun hnone => ?_, fun m hm => ⟨fun hbad => ?_, fun hgood covered stored hc hs hb => ?_⟩⟩
  · simp only [State.messagePasses, hnone, State.allowUnknown, beq_eq_decide]
  · have hlen : ¬ lengthOk h m = true := by
      rw [lengthOk_iff]
      rintro (⟨hv, heq⟩ | ⟨hv, hlo, hhi⟩)
      · exact hbad.elim (fun ⟨_, hne⟩ => hne heq) (fun ⟨hv2, _⟩ => nomatch hv.symm.trans hv2)
      · exact hbad.elim (fun ⟨hv1, _⟩ => nomatch hv.symm.trans hv1) (fun ⟨_, hout⟩ => by omega)
    simp only [State.messagePasses, hm, if_neg hlen]
  · simp only [State.messagePasses, hm, if_pos (lengthOk_iff.2 hgood)]
    exact validateCrc_of_bytes m.crcExtra hc hs hb

/-! ### The strict check -/

/-- The signed bit counts in version 2 only (R86). -/
theorem Header.signed_iff {h : Header} : h.signed = true ↔ h.version = .v2 ∧ h.incompat.getLsbD 0 = true := by
  simp only [Header.signed, Bool.and_eq_true, beq_iff_eq]

/-- No flag but the signed bit is known (R183). -/
theorem Header.unknownFlags_eq_false_iff {h : Header} : h.unknownFlags = false ↔ h.incompat &&& 0xFE#8 = 0#8 := by
  simp only [Header.unknownFlags, bne_eq_false_iff_eq]

/-- An unsigned candidate is refused exactly under REQUIRE_SIGNED_V2 and in version 2 (R184). -/
theorem State.refusesUnsigned_eq_false_iff {s : State} {h : Header} :
    s.refusesUnsigned h = false ↔ h.signed = true ∨ s.requireSignedV2 = false ∨ h.version = .v1 := by
  cases hv : h.version <;> cases hs : h.signed <;> simp [State.refusesUnsigned, hv, hs]

/-- A signature that nobody asks for passes (R185). -/
theorem State.signaturePasses_unasked {s : State} {h : Header} (b : Buffer) (c : Nat)
    (hq : h.signed = false ∨ s.requireSignature = false) : s.signaturePasses b c h = .ok true := by
  have hoff : ¬ (h.signed && s.requireSignature) = true := by
    obtain hq | hq := hq <;> simp [hq]
  exact if_neg hoff

/-- A signature that is asked for without a receive key fails (R185). -/
theorem State.signaturePasses_noKey {s : State} {h : Header} (b : Buffer) (c : Nat) (hs : h.signed = true)
    (hq : s.requireSignature = true) (hk : s.rxKeyLen = 0#8) : s.signaturePasses b c h = .ok false := by
  have hon : (h.signed && s.requireSignature) = true := by simp [hs, hq]
  rw [State.signaturePasses, if_pos hon, if_pos hk]

/-- The anti-replay condition of a candidate that it does not concern (R186). -/
theorem State.replayStage_off {s : State} {h : Header} (b : Buffer) (c : Nat) (m : ReplayMap)
    (hq : h.signed = false ∨ s.replayEnable = false) : s.replayStage b c h m = .ok (some none) := by
  have hoff : ¬ (h.signed && s.replayEnable) = true := by
    obtain hq | hq := hq <;> simp [hq]
  exact if_neg hoff

/-- The anti-replay condition of a signed candidate under REPLAY_ENABLE (R186). -/
theorem State.replayStage_on {s : State} {b : Buffer} {c : Nat} {h : Header} {link : Byte} {ts : BitVec 48}
    (m : ReplayMap) (hs : h.signed = true) (hq : s.replayEnable = true) (hlink : sigLinkId b c h = .ok link)
    (hts : sigTimestamp b c h = .ok ts) :
    s.replayStage b c h m = .ok (replayCheck m s.window (compositeKey h.systemId h.componentId link) ts) := by
  have hon : (h.signed && s.replayEnable) = true := by simp [hs, hq]
  rw [State.replayStage, if_pos hon, hlink, run_ok_bind, hts, run_ok_bind]

/-- The map behind a candidate that passed the anti-replay condition (R187). -/
theorem State.commit_eq (s : State) (m : ReplayMap) (upd : Option Update) (msg : Bool) :
    s.commit m upd msg = if s.params.replayCommit = .atCheck ∨ msg = true then m.apply upd else m := by
  cases hc : s.params.replayCommit <;> simp [State.commit, hc]

/-- Without an update the map stands (R187). -/
theorem State.commit_none (s : State) (m : ReplayMap) (msg : Bool) : s.commit m none msg = m := by
  rw [State.commit_eq]
  exact ite_self m

section StrictOk

variable {s : State} {b : Buffer} {c : Nat} {h : Header} {m : ReplayMap}

/-- A candidate with an unknown flag is rejected (R183). -/
theorem strictOk_unknownFlags (hu : h.unknownFlags = true) : s.strictOk b c h m = .ok (.reject, m) := if_pos hu

variable (hu : h.unknownFlags = false)
include hu

/-- An unsigned candidate that REQUIRE_SIGNED_V2 refuses is rejected (R184). -/
theorem strictOk_refusesUnsigned (hr : s.refusesUnsigned h = true) : s.strictOk b c h m = .ok (.reject, m) := by
  simp only [State.strictOk, hu, hr, Bool.false_eq_true, if_false, if_true]

variable (hr : s.refusesUnsigned h = false)
include hr

/-- A candidate whose signature condition fails is rejected (R185). -/
theorem strictOk_signatureFails (hsig : s.signaturePasses b c h = .ok false) :
    s.strictOk b c h m = .ok (.reject, m) := by
  simp only [State.strictOk, hu, hr, hsig, Bool.false_eq_true, if_false, if_true, run_ok_bind]

variable (hsig : s.signaturePasses b c h = .ok true)
include hsig

/-- A candidate that the anti-replay condition refuses is rejected (R186). -/
theorem strictOk_replayRefused (hrep : s.replayStage b c h m = .ok none) :
    s.strictOk b c h m = .ok (.reject, m) := by
  simp only [State.strictOk, hu, hr, hsig, hrep, Bool.false_eq_true, Bool.true_eq_false, if_false, run_ok_bind]

/-- Past the anti-replay condition the message conditions give the verdict, and the map is committed (R182, R187). -/
theorem strictOk_replayPassed {upd : Option Update} {msg : Bool} (hrep : s.replayStage b c h m = .ok (some upd))
    (hmsg : s.messagePasses b c h = .ok msg) :
    s.strictOk b c h m = .ok (if msg then .accept else .reject, s.commit m upd msg) := by
  simp only [State.strictOk, hu, hr, hsig, hrep, hmsg, Bool.false_eq_true, Bool.true_eq_false, if_false, run_ok_bind]

end StrictOk

/-- Settles O38: an unknown flag, an unsigned frame refused, or a signature condition that fails. -/
theorem strictRejectsBeforeReplay : Obligations.StrictRejectsBeforeReplay := by
  unfold Obligations.StrictRejectsBeforeReplay
  refine fun s b c h m => ⟨fun hflag => ?_, fun hflag hreq hv hbit => ?_, fun hflag hv hbit hreq => ?_⟩
  · exact strictOk_unknownFlags (bne_iff_ne.2 hflag)
  · have hunsigned : h.signed = false := by simp only [Header.signed, hbit, Bool.and_false]
    refine strictOk_refusesUnsigned (Header.unknownFlags_eq_false_iff.2 hflag) ?_
    simp only [State.refusesUnsigned, State.requireSignedV2, hreq, hv, hunsigned, beq_self_eq_true, Bool.not_false,
      Bool.and_self]
  · have hsigned : h.signed = true := Header.signed_iff.2 ⟨hv, hbit⟩
    have hu := Header.unknownFlags_eq_false_iff.2 hflag
    have hr : s.refusesUnsigned h = false := State.refusesUnsigned_eq_false_iff.2 (.inl hsigned)
    refine ⟨fun hk => strictOk_signatureFails hu hr (State.signaturePasses_noKey b c hsigned hreq hk),
      fun key frame hash hne hkey hframe hhash hb hdiff => strictOk_signatureFails hu hr ?_⟩
    rw [signaturePasses_of_bytes hsigned hkey hne hframe hhash hb hreq, decide_eq_false hdiff]

/-- Settles O41: the signature condition passes, and the anti-replay condition is off, refuses, or passes. -/
theorem strictVerdict : Obligations.StrictVerdict := by
  unfold Obligations.StrictVerdict
  intro s b c h m msg hflag hmsg signed checked
  have hu := Header.unknownFlags_eq_false_iff.2 hflag
  refine ⟨fun hnot hallowed => ?_, fun hsg hchecked => ?_⟩
  · have hunsigned : h.signed = false := Bool.eq_false_iff.2 (mt Header.signed_iff.1 hnot)
    rw [strictOk_replayPassed hu (State.refusesUnsigned_eq_false_iff.2 (.inr hallowed))
      (State.signaturePasses_unasked b c (.inl hunsigned)) (State.replayStage_off b c m (.inl hunsigned)) hmsg,
      State.commit_none]
  · have hsigned : h.signed = true := Header.signed_iff.2 hsg
    have hr : s.refusesUnsigned h = false := State.refusesUnsigned_eq_false_iff.2 (.inl hsigned)
    have hsig : s.signaturePasses b c h = .ok true := by
      cases hreq : s.requireSignature with
      | false => exact State.signaturePasses_unasked b c (.inr hreq)
      | true =>
        obtain ⟨key, frame, hash, hne, hkey, hframe, hhash, hb, heq⟩ := hchecked hreq
        rw [signaturePasses_of_bytes hsigned hkey hne hframe hhash hb hreq, decide_eq_true heq]
    refine ⟨fun hoff => ?_, fun hon link ts hlink hts => ?_⟩
    · rw [strictOk_replayPassed hu hr hsig (State.replayStage_off b c m (.inr hoff)) hmsg, State.commit_none]
    · have hrep := State.replayStage_on m hsigned hon hlink hts
      refine ⟨fun hrefused => strictOk_replayRefused hu hr hsig (hrep.trans (congrArg _ hrefused)), fun upd hupd => ?_⟩
      rw [strictOk_replayPassed hu hr hsig (hrep.trans (congrArg _ hupd)) hmsg, State.commit_eq]

/-! ### SCAN's results -/

/-- SCAN's results when a candidate was accepted (R100, R192). -/
theorem State.setScan_some {r : Scan} {start total : Nat} (h : r.accepted = some (start, total)) (s : State) :
    s.setScan r =
      (s.setReplayMap r.map).setResults 1#32 (natWord start) (natWord total) (natWord r.rejects) := by
  simp only [State.setScan, h]

/-- SCAN's results when nothing was found (R100, R192). -/
theorem State.setScan_none {r : Scan} (h : r.accepted = none) (s : State) :
    s.setScan r = (s.setReplayMap r.map).setResults 0#32 0#32 0#32 (natWord r.rejects) := by
  simp only [State.setScan, h]

/-- SCAN without an enabled scanner (R236). -/
theorem scan_disabled {s : State} (h : s.enable = false) : exec .scan s = .next (s.setErr .notEnabled) := by
  have hoff : ¬ s.enable = true := by simp [h]
  simp only [exec, execScan, require_neg hoff, run_error_bind, finish_raise]

/-- SCAN of a range outside FRAME_RAM, or with its end below its start (R192). -/
theorem scan_outOfRange {s : State} (he : s.enable = true)
    (h : ¬ (s.argNat 1 ≤ s.params.memSize ∧ s.argNat 0 ≤ s.argNat 1)) :
    exec .scan s = .next (s.setErr .outOfRange) := by
  simp only [exec, execScan, require_pos he, require_neg h, run_ok_bind, run_error_bind, finish_raise]

/-- SCAN of a range whose scan reads an unwritten byte (R192, R272). -/
theorem scan_fault {s : State} {f : Fault} (he : s.enable = true) (h1 : s.argNat 1 ≤ s.params.memSize)
    (h2 : s.argNat 0 ≤ s.argNat 1)
    (hf : s.scanBuffer s.ram (s.argNat 0) (s.argNat 1) s.replayMap = .error (.fault f)) :
    exec .scan s = .fault f := by
  simp only [exec, execScan, require_pos he, require_pos (And.intro h1 h2), hf, run_ok_bind, run_error_bind,
    finish_fault]

/-- SCAN whose scan accepts a candidate on an untouched map (R192). -/
theorem scan_accepted {s : State} {start total rejects : Nat} (he : s.enable = true)
    (h1 : s.argNat 1 ≤ s.params.memSize) (h2 : s.argNat 0 ≤ s.argNat 1)
    (hr : s.scanBuffer s.ram (s.argNat 0) (s.argNat 1) s.replayMap =
      .ok ⟨some (start, total), rejects, s.replayMap⟩) :
    exec .scan s =
      .next ((s.setResults 1#32 (natWord start) (natWord total) (natWord rejects)).setErr .ok) := by
  rw [execScan_ok he h1 h2 hr, State.setScan_some rfl]
  rfl

/-- SCAN whose scan finds nothing and leaves the map (R192). -/
theorem scan_incomplete {s : State} {rejects : Nat} (he : s.enable = true) (h1 : s.argNat 1 ≤ s.params.memSize)
    (h2 : s.argNat 0 ≤ s.argNat 1)
    (hr : s.scanBuffer s.ram (s.argNat 0) (s.argNat 1) s.replayMap = .ok ⟨none, rejects, s.replayMap⟩) :
    exec .scan s = .next ((s.setResults 0#32 0#32 0#32 (natWord rejects)).setErr .ok) := by
  rw [execScan_ok he h1 h2 hr, State.setScan_none rfl]
  rfl

/-! ### What a scan of a range finds -/

/-- Everything a scan of a range says of its result (R181, R187, R193, R194). -/
theorem scanBuffer_result {s : State} {b : Buffer} {start stop : Nat} {m : ReplayMap} {r : Scan}
    (hle : start ≤ stop) (hr : s.scanBuffer b start stop m = .ok r) :
    (s.strict = false → r.map = m) ∧ r.rejects ≤ stop - start ∧
      ∀ c total, r.accepted = some (c, total) → ∃ before, m.grows before ∧
        (r.rejects = 0 ∨ s.params.replayCommit = .onAccept → before = m) ∧
        AcceptedSpan s b start stop ⟨c, total, before, r.map⟩ := by
  obtain ⟨-, hlenient, -, hmost, hspan⟩ :=
    scanFrom_ok (fun _ => True) (fun _ _ _ _ _ _ => trivial) (Nat.add_sub_cancel' hle) trivial hr
  exact ⟨fun hst => (hlenient hst).1, hmost.trans_eq (Nat.zero_add _), hspan⟩

/-- A scan from past the end of its range finds nothing (R181). -/
theorem scanBuffer_past {stop start : Nat} (h : stop ≤ start) (s : State) (b : Buffer) (m : ReplayMap) :
    s.scanBuffer b start stop m = .ok ⟨none, 0, m⟩ := by
  rw [State.scanBuffer, Nat.sub_eq_zero_of_le h, State.scanFrom]

/-- A byte that is no magic is passed over (R181 step 1). -/
theorem scanBuffer_pass {s : State} {b : Buffer} {start stop : Nat} {m : ReplayMap} {x : Byte} (hx : b start = some x)
    (hm : x ≠ 0xFE#8 ∧ x ≠ 0xFD#8) (h : start < stop) :
    s.scanBuffer b start stop m = s.scanBuffer b (start + 1) stop m := by
  have hfuel : stop - start = [x].length + (stop - (start + 1)) := by
    rw [List.length_singleton]
    omega
  have hheld : ∀ i, i < [x].length → b (start + i) = [x][i]? := fun i hi => by
    obtain rfl := Nat.lt_one_iff.1 hi
    exact hx
  rw [State.scanBuffer, hfuel, scanFrom_noise [x] _ _ _ _ hheld (by simpa using hm)]
  rfl

/-- Settles O37: SCAN's completion and fault, then the loop's steps. -/
theorem scanSteps : Obligations.ScanSteps := by
  unfold Obligations.ScanSteps
  refine ⟨fun s he h1 h2 => ⟨fun r hr => ?_, fun f => scan_fault he h1 h2⟩, fun s b start stop m =>
    ⟨fun hpast => scanBuffer_past hpast s b m, fun hin => ⟨fun x hx => ⟨fun hne1 hne2 => ?_, fun hm hcut => ?_,
      fun hm hcut => ?_⟩, fun h hd => ⟨fun hcut => ?_, fun hfit => ⟨fun hst => ?_, fun v m' hst hso => ?_⟩⟩⟩⟩⟩
  · rw [execScan_ok he h1 h2 hr]
    cases ha : r.accepted with
    | none => rw [State.setScan_none ha]; rfl
    | some span => rw [State.setScan_some ha]; rfl
  · exact scanBuffer_pass hx ⟨hne1, hne2⟩ hin
  · exact scanBuffer_cutHeader hx (versionOf_eq_some.2 (.inl ⟨hm, rfl⟩)) hin hcut
  · exact scanBuffer_cutHeader hx (versionOf_eq_some.2 (.inr ⟨hm, rfl⟩)) hin hcut
  · exact scanBuffer_cutFrame hd (decodeHeader_ok hd).1 hcut
  · exact scanBuffer_lenient hst hd hfit
  · exact scanBuffer_strict hst hd hfit hso

/-- Settles O33: the scan passes over the noise, and its first candidate is whole, cut in its frame or cut in its
header, or the range ends there. -/
theorem scanLenient : Obligations.ScanLenient := by
  unfold Obligations.ScanLenient
  intro s noise he hst h1 hnoise hplain incomplete c
  have hfrom : c ≤ s.argNat 1 → ∀ r, s.scanBuffer s.ram c (s.argNat 1) s.replayMap = .ok r →
      s.scanBuffer s.ram (s.argNat 0) (s.argNat 1) s.replayMap = .ok r := fun hc _ =>
    scan_from_noise hnoise hplain hc
  have hnothing : c ≤ s.argNat 1 → s.scanBuffer s.ram c (s.argNat 1) s.replayMap = .ok ⟨none, 0, s.replayMap⟩ →
      exec .scan s = incomplete := fun hc hr =>
    scan_incomplete he h1 ((Nat.le_add_right _ _).trans hc) (hfrom hc _ hr)
  have hcandidate : ∀ {h : Header}, decodeHeader s.ram c (s.argNat 1) = .ok h →
      (c + h.totalLen ≤ s.argNat 1 →
        exec .scan s = .next ((s.setResults 1#32 (natWord c) (natWord h.totalLen) 0#32).setErr .ok)) ∧
      (s.argNat 1 < c + h.totalLen → exec .scan s = incomplete) := fun {h} hd => by
    have hhead := (decodeHeader_ok hd).1
    have hc : c ≤ s.argNat 1 := (Nat.le_add_right _ _).trans hhead
    exact ⟨fun hfit => scan_accepted he h1 ((Nat.le_add_right _ _).trans hc)
      (hfrom hc _ (scanBuffer_lenient hst hd hfit)), fun hcut => hnothing hc (scanBuffer_cutFrame hd hhead hcut)⟩
  refine ⟨fun hend => ?_, fun f hw hh hhead => ?_, fun f hw hh hhead => ?_, fun m hm =>
    ⟨fun hv hin hcut => ?_, fun hv hin hcut => ?_⟩⟩
  · exact hnothing hend.ge (scanBuffer_past hend.le s s.ram s.replayMap)
  · exact FrameV1.view_totalLen hw ▸ hcandidate (decodeHeader_frameV1 hhead hh)
  · exact FrameV2.view_totalLen hw ▸ hcandidate (decodeHeader_frameV2 hhead hh)
  · exact hnothing hin.le (scanBuffer_cutHeader hm (versionOf_eq_some.2 (.inl ⟨hv, rfl⟩)) hin hcut)
  · exact hnothing hin.le (scanBuffer_cutHeader hm (versionOf_eq_some.2 (.inr ⟨hv, rfl⟩)) hin hcut)

/-! ### What SCAN reports -/

/-- Settles O36: an error leaves everything but STATUS.ERR, and a scan changes the results and the map. -/
theorem scanFrame : Obligations.ScanFrame := by
  unfold Obligations.ScanFrame
  intro s t h
  obtain ⟨r, -, -, hle, hr, rfl⟩ | ⟨code, -, rfl, -⟩ := execScan_next h
  · obtain ⟨res, hres⟩ := State.setScan_eq s r
    obtain ⟨hlenient, -⟩ := scanBuffer_result hle hr
    rw [hres]
    exact ⟨rfl, fun hor => hor.elim hlenient fun hne => absurd rfl hne⟩
  · exact ⟨rfl, fun _ => rfl⟩

/-- A number no larger than an operand survives a result register (R98). -/
theorem natWord_toNat_of_le_argNat {s : State} {i : Fin 9} {n : Nat} (h : n ≤ s.argNat i) : (natWord n).toNat = n :=
  natWord_toNat (h.trans_lt (s.arg i).isLt)

/-- Settles O34: the two range errors; else the scan of written bytes ends, with a span inside the range if any. -/
theorem scanCompletes : Obligations.ScanCompletes := by
  unfold Obligations.ScanCompletes
  refine fun s => ⟨scan_disabled, fun he hbad => scan_outOfRange he (by omega), fun he h1 h2 hk hw => ?_⟩
  obtain ⟨r, hr⟩ := scanFrom_written hk (s.argNat 1 - s.argNat 0) (s.argNat 0) 0 s.replayMap
    (Nat.add_sub_cancel' h2) (b := s.ram) fun i hlo hhi => by
      have hbyte := hw (i - s.argNat 0) (by omega)
      rwa [Nat.add_sub_cancel' hlo] at hbyte
  obtain ⟨-, hmost, hspan⟩ := scanBuffer_result h2 hr
  have hrejects : (natWord r.rejects).toNat = r.rejects := natWord_toNat_of_le_argNat (by omega : _ ≤ s.argNat 1)
  refine ⟨_, execScan_ok he h1 h2 hr, rfl, ?_⟩
  cases ha : r.accepted with
  | none =>
    rw [State.setScan_none ha]
    exact ⟨hrejects.trans_le hmost, .inl ⟨rfl, rfl, rfl⟩⟩
  | some span =>
    obtain ⟨c, total⟩ := span
    obtain ⟨_, -, -, ⟨hlo, hhi⟩, -, -⟩ := hspan c total ha
    dsimp only at hlo hhi
    have hc : (natWord c).toNat = c := natWord_toNat_of_le_argNat (by omega : _ ≤ s.argNat 1)
    have htotal : (natWord total).toNat = total := natWord_toNat_of_le_argNat (by omega : _ ≤ s.argNat 1)
    rw [State.setScan_some ha]
    refine ⟨hrejects.trans_le hmost, .inr ⟨rfl, ?_, ?_⟩⟩
    · exact hlo.trans_eq hc.symm
    · exact (congrArg₂ (· + ·) hc htotal).trans_le hhi

/-- A SCAN that reports a frame: its scan accepted a span, which the results name, and left the map (R192). -/
theorem scan_reported {s t : State} (h : exec .scan s = .next t) (hok : t.err = .ok)
    (hfound : t.res[(0 : Fin 4)] = 1#32) :
    ∃ r c total, s.argNat 0 ≤ s.argNat 1 ∧
      s.scanBuffer s.ram (s.argNat 0) (s.argNat 1) s.replayMap = .ok r ∧ r.accepted = some (c, total) ∧
      t.res = #v[1#32, natWord c, natWord total, natWord r.rejects] ∧ t.replayMap = r.map := by
  obtain ⟨r, -, -, hle, hr, rfl⟩ | ⟨code, hcode, rfl, -⟩ := execScan_next h
  · cases ha : r.accepted with
    | none =>
      rw [State.setScan_none ha] at hfound
      exact absurd hfound (by simp)
    | some span =>
      rw [State.setScan_some ha]
      exact ⟨r, span.1, span.2, hle, hr, ha, rfl, rfl⟩
  · rw [State.setErr_err] at hok
    subst hok
    exact absurd hcode (by decide)

/-- Settles O35: the span that SCAN reports is the accepted span of its scan. -/
theorem scanAcceptsOnlyFrames : Obligations.ScanAcceptsOnlyFrames := by
  unfold Obligations.ScanAcceptsOnlyFrames
  intro s t h hok hfound start total
  obtain ⟨r, c, n, hle, hr, ha, hres, hmap⟩ := scan_reported h hok hfound
  obtain ⟨-, hmost, hspan⟩ := scanBuffer_result hle hr
  obtain ⟨before, hgrows, hbefore, ⟨hlo, hhi⟩, -, view, hd, htotal, hstrict⟩ := hspan c n ha
  dsimp only at hlo hhi hd htotal hstrict
  have hstart : start = c := by
    simp only [start, hres]
    exact natWord_toNat_of_le_argNat (by omega : _ ≤ s.argNat 1)
  have hn : total = n := by
    simp only [total, hres]
    exact natWord_toNat_of_le_argNat (by omega : _ ≤ s.argNat 1)
  have hrejects : t.res[(3 : Fin 4)] = 0#32 → r.rejects = 0 := fun hzero => by
    rw [← natWord_toNat_of_le_argNat (by omega : r.rejects ≤ s.argNat 1)]
    simp only [hres] at hzero
    exact congrArg BitVec.toNat hzero
  obtain ⟨-, ⟨x, hx, hv⟩, -⟩ := decodeHeader_ok hd
  rw [hstart, hn, hmap]
  refine ⟨hlo, hhi, ?_, view, hd, htotal, fun hst => ⟨before, hstrict hst, hgrows, fun hor => ?_⟩⟩
  · obtain ⟨rfl, -⟩ | ⟨rfl, -⟩ := versionOf_eq_some.1 hv
    · exact .inl hx
    · exact .inr hx
  · exact hbefore (hor.imp_left hrejects)

end Sys2Proof.Machine

/-! The frames that the Stream Reassembler dispatches: those of a push (R195, R212, R215), and a wire frame that arrives
whole (R211; log 8). -/

namespace Sys2Proof.Machine

/-! ### RA_PUSH -/

/-- A push that succeeded appended its chunk to ACC within RA_CAP_MAX, and its scan loop ended (R211, R215). -/
theorem raPush_succeeded {s t : State} (h : exec .raPush s = .next t) (hok : t.err = .ok) :
    ∃ chunk d, chunk.length = s.argNat 1 ∧ s.holds (s.argNat 0) chunk ∧
      (s.acc ++ chunk).length ≤ s.params.raCapMax ∧ s.drain (s.acc ++ chunk) = .ok d ∧
      t = (s.setDrain (s.acc ++ chunk) d).setErr .ok := by
  obtain ⟨chunk, d, -, hlen, hheld, -, hcap, hd, rfl⟩ | ⟨code, hcode, rfl, -⟩ := execRaPush_next h
  · exact ⟨chunk, d, hlen, hheld, List.length_append ▸ hcap, hd, rfl⟩
  · rw [State.setErr_err] at hok
    subst hok
    exact absurd hcode (by decide)

/-- Settles O46: the frames are the accepted spans of the push's scan loop. -/
theorem raPushDispatchesFrames : Obligations.RaPushDispatchesFrames := by
  unfold Obligations.RaPushDispatchesFrames
  intro s t hlegal h hok
  obtain ⟨chunk, d, hlen, hheld, hcap, hd, rfl⟩ := raPush_succeeded h hok
  obtain ⟨frames, hspans, hrecords, hcursor, -⟩ := State.drain_spans hd
  obtain ⟨hdisjoint, hmaps, -⟩ := hspans.pairwise
  refine ⟨chunk, frames, hlen, hheld, congrArg (s.frameOut ++ ·) hrecords, hspans.scans, hdisjoint,
    fun e he => ?_, ?_⟩
  · obtain ⟨hinside, hframe⟩ := hspans.frames e he
    obtain ⟨-, hbefore, hafter⟩ := hmaps e he
    exact ⟨hinside, hbefore, hafter, hframe⟩
  · obtain ⟨-, -, ⟨-, hmax⟩, -⟩ := hlegal
    exact (natWord_toNat (by omega)).trans hspans.last

/-! ### Wire frames -/

section Receive

variable {s : State} {bytes : List Byte}

/-- A chunk that arrives without an enabled scanner (R236; log 8). -/
theorem receive_disabled (he : s.enable = false) : receive bytes s = .next (s.setErr .notEnabled) := by
  have hoff : ¬ s.enable = true := by simp [he]
  simp only [receive, require_neg hoff, run_error_bind, finish_raise]

/-- A chunk that arrives and is too long for the buffer (R211; log 8). -/
theorem receive_overflow (he : s.enable = true) (h : s.params.raCapMax < s.acc.length + bytes.length) :
    receive bytes s = .next (s.setErr .raOverflow) := by
  have hfull : ¬ s.raLen + bytes.length ≤ s.params.raCapMax := Nat.not_le.2 h
  simp only [receive, require_pos he, require_neg hfull, run_ok_bind, run_error_bind, finish_raise]

/-- The scan loop over a buffer that the scan accepts whole (R212). -/
theorem drain_whole {rejects : Nat} {m : ReplayMap}
    (hr : s.scanBuffer (accBuffer bytes) 0 bytes.length s.replayMap =
      .ok ⟨some (0, bytes.length), rejects, m⟩) (hne : bytes ≠ []) :
    s.drain bytes = .ok ⟨bytes.length, [bytes], m⟩ := by
  obtain ⟨rounds, hrounds⟩ : ∃ rounds, bytes.length + 1 = rounds + 1 + 1 :=
    ⟨bytes.length - 1, by have := List.length_pos_iff.2 hne; omega⟩
  have hslice : slice bytes 0 bytes.length = bytes := List.take_length
  have hend := scanBuffer_end s (accBuffer bytes) bytes.length m
  rw [State.drain, hrounds, drainFrom_some hr rfl, hslice, Nat.zero_add, drainFrom_none hend rfl, List.nil_append]

/-- What a push leaves when its buffer is dispatched whole: nothing is left over, and nothing was discarded (R213 to
R215). -/
theorem State.setDrain_whole (s : State) (m : ReplayMap) (hne : bytes ≠ []) :
    s.setDrain bytes ⟨bytes.length, [bytes], m⟩ = { s with
      acc := [], raCap := growCap s.params.raCapMax s.raCap bytes.length, replayMap := m
      frameOut := s.frameOut ++ [bytes]
      res := #v[1#32, 0#32, natWord bytes.length, 0#32] } := by
  have hmoved : ¬ (bytes.length = 0 ∧ s.params.resyncThreshold < bytes.length) := fun hz =>
    hne (List.length_eq_zero_iff.1 hz.1)
  have hdiscarded : s.discarded bytes bytes.length = 0 := if_neg hmoved
  have hleft : bytes.drop (s.dropped bytes bytes.length) = [] := by
    rw [State.dropped, hdiscarded, Nat.add_zero, List.drop_length]
  simp only [State.setDrain_eq, hleft, hdiscarded]
  rfl

/-- A chunk that arrives at an empty ACC and is accepted whole (R211 to R215; log 8). -/
theorem receive_whole {rejects : Nat} {m : ReplayMap} (he : s.enable = true) (hacc : s.acc = [])
    (hcap : bytes.length ≤ s.params.raCapMax)
    (hr : s.scanBuffer (accBuffer bytes) 0 bytes.length s.replayMap =
      .ok ⟨some (0, bytes.length), rejects, m⟩) (hne : bytes ≠ []) :
    receive bytes s = .next { s with
      err := .ok, raCap := growCap s.params.raCapMax s.raCap bytes.length, replayMap := m
      frameOut := s.frameOut ++ [bytes]
      res := #v[1#32, 0#32, natWord bytes.length, 0#32] } := by
  have hfit : s.raLen + bytes.length ≤ s.params.raCapMax := by
    rw [State.raLen_eq, hacc]
    exact (Nat.zero_add _).trans_le hcap
  simp only [receive, require_pos he, require_pos hfit, run_ok_bind, State.pushChunk, hacc, List.nil_append,
    drain_whole hr hne, finish_ok, s.setDrain_whole m hne]
  rfl

end Receive

/-- The header view of a well-formed wire frame as a buffer of its own: whole, and not empty (R81, R82, R87). -/
theorem decodeHeader_encode {i : Instr} (hw : i.wf = true) (ho : opcodeOf i = none) :
    ∃ h, decodeHeader (accBuffer (encode i)) 0 (encode i).length = .ok h ∧ h.totalLen = (encode i).length ∧
      encode i ≠ [] := by
  obtain ⟨h, m, -, hm, htotal, hdecode⟩ := encode_view hw ho
  have hhead : h.headerLen ≤ (encode i).length := by
    rw [← htotal, Header.totalLen, Header.throughChecksum]
    omega
  refine ⟨h, hdecode _ _ _ ((Nat.zero_add _).trans_le hhead) (fun j _ => ?_), htotal, fun hnil => ?_⟩
  · rw [Nat.zero_add, accBuffer]
  · rw [hnil] at hm
    cases hm

/-- Settles O51: the frame that arrives is one whole candidate, which a lenient scan accepts. -/
theorem frameArrivalLenient : Obligations.FrameArrivalLenient := by
  unfold Obligations.FrameArrivalLenient
  intro s i hw ho
  rw [exec_frame ho]
  refine ⟨receive_disabled, receive_overflow, fun he hst hacc hcap => ?_⟩
  obtain ⟨h, hd, htotal, hne⟩ := decodeHeader_encode hw ho
  have hscan := scanBuffer_lenient (m := s.replayMap) hst hd (by omega)
  rw [htotal] at hscan
  exact receive_whole he hacc hcap hscan hne

/-- Settles O52: the frame that arrives is one whole candidate, which the strict check accepts. -/
theorem frameArrivalStrict : Obligations.FrameArrivalStrict := by
  unfold Obligations.FrameArrivalStrict
  intro s i h m hw ho he hst hacc hcap hd hso
  obtain ⟨h', hd', htotal, hne⟩ := decodeHeader_encode hw ho
  obtain rfl : h' = h := Except.ok.inj (hd'.symm.trans hd)
  have hscan := (scanBuffer_strict hst hd (by omega) hso).1 rfl
  rw [htotal] at hscan
  rw [exec_frame ho]
  exact receive_whole he hacc hcap hscan hne

end Sys2Proof.Machine

/-! The Stream Reassembler's commands: RA_DROP (R216), the push of exactly one frame (log 8), the errors and the effect of
RA_PUSH (R211, R213 to R215), and what it discards and leaves (R214, R218). -/

namespace Sys2Proof.Machine

/-! ### RA_DROP and a push of one frame -/

/-- Settles O50: RA_DROP's computation has no check and sets ACC only. -/
theorem raDropResult : Obligations.RaDropResult := by
  unfold Obligations.RaDropResult
  intro s
  rfl

/-- Settles O6: the COMMAND write issues RA_PUSH, which takes in the range's bytes as the frame's arrival does. -/
theorem stepRunsFrame : Obligations.StepRunsFrame := by
  unfold Obligations.StepRunsFrame
  intro s i rest _ ho hp hlen hfit hheld
  rw [step_commandWrite_opcode (i := .raPush) rfl hp, exec_frame ho]
  exact execRaPush_eq_receive hlen hfit hheld

/-! ### RA_PUSH's errors and completion -/

section Push

variable {s : State} {chunk : List Byte}

/-- RA_PUSH without an instance (R236). -/
theorem raPush_disabled (he : s.enable = false) : exec .raPush s = .next (s.setErr .notEnabled) := by
  have hoff : ¬ s.enable = true := by simp [he]
  simp only [exec, execRaPush, require_neg hoff, run_error_bind, finish_raise]

/-- RA_PUSH of a range that runs past FRAME_RAM (R215). -/
theorem raPush_outOfRange (he : s.enable = true) (h : s.params.memSize < s.argNat 0 + s.argNat 1) :
    exec .raPush s = .next (s.setErr .outOfRange) := by
  have hpast : ¬ s.inMem (s.argNat 0) (s.argNat 1) := Nat.not_le.2 h
  simp only [exec, execRaPush, require_pos he, require_neg hpast, run_ok_bind, run_error_bind, finish_raise]

/-- RA_PUSH of a chunk that is too long for the buffer (R211). -/
theorem raPush_overflow (he : s.enable = true) (hmem : s.argNat 0 + s.argNat 1 ≤ s.params.memSize)
    (h : s.params.raCapMax < s.acc.length + s.argNat 1) : exec .raPush s = .next (s.setErr .raOverflow) := by
  have hin : s.inMem (s.argNat 0) (s.argNat 1) := hmem
  have hfull : ¬ s.raLen + s.argNat 1 ≤ s.params.raCapMax := Nat.not_le.2 h
  simp only [exec, execRaPush, require_pos he, require_pos hin, require_neg hfull, run_ok_bind, run_error_bind,
    finish_raise]

/-- A push that passes its checks succeeds or faults: it raises no error (R215, R257). -/
theorem raPush_err_ok {t : State} (he : s.enable = true) (hmem : s.argNat 0 + s.argNat 1 ≤ s.params.memSize)
    (hlen : chunk.length = s.argNat 1) (hheld : s.holds (s.argNat 0) chunk)
    (hcap : s.acc.length + chunk.length ≤ s.params.raCapMax) (h : exec .raPush s = .next t) : t.err = .ok := by
  have hfit : s.raLen + chunk.length ≤ s.params.raCapMax := hcap
  rw [execRaPush_eq_receive hlen.symm (hlen ▸ hmem) hheld, receive, require_pos he, run_ok_bind, require_pos hfit,
    run_ok_bind, finish_next] at h
  obtain ⟨u, -, rfl⟩ | ⟨code, hraise, -⟩ := h
  · rfl
  · exact absurd hraise (State.pushChunk_ne_raise s chunk code)

end Push

/-- Nothing is discarded when a frame was dispatched (R213, R214). -/
theorem State.discarded_eq_zero (s : State) (acc : List Byte) {cur : Nat} (h : cur ≠ 0) : s.discarded acc cur = 0 :=
  if_neg fun hz => h hz.1

/-- Nothing is discarded from a buffer of at most RESYNC_THRESHOLD bytes (R214). -/
theorem State.discarded_short {s : State} {acc : List Byte} (cur : Nat)
    (h : acc.length ≤ s.params.resyncThreshold) : s.discarded acc cur = 0 :=
  if_neg fun hz => absurd hz.2 (Nat.not_lt.2 h)

/-- Past RESYNC_THRESHOLD with nothing dispatched, a forced resynchronisation discards (R214). -/
theorem State.discarded_long {s : State} {acc : List Byte} (h : s.params.resyncThreshold < acc.length) :
    s.discarded acc 0 = resyncDrop acc :=
  if_pos ⟨rfl, h⟩

/-- Settles O45: the three checks in their order; then the scan loop ends, since the receive key is written, and the
push leaves what it leaves. -/
theorem raPushEffect : Obligations.RaPushEffect := by
  unfold Obligations.RaPushEffect
  refine fun s => ⟨raPush_disabled, fun he => ⟨raPush_outOfRange he, fun hmem => ⟨raPush_overflow he hmem,
    fun hcap hkey chunk hlen hheld => ?_⟩⟩⟩
  obtain ⟨d, hd⟩ : ∃ d, s.drain (s.acc ++ chunk) = .ok d := drainFrom_written hkey _ _ _ _ (Nat.zero_le _)
  obtain ⟨-, -, -, hcursor, hdispatched⟩ := State.drain_spans hd
  refine ⟨d.records, d.cursor, s.discarded (s.acc ++ chunk) d.cursor, d.map, ?_, ?_, hdispatched, ?_⟩
  · exact (dropped_le hcursor).trans_eq List.length_append
  · exact (Nat.eq_zero_or_pos d.cursor).imp_right fun hpos => s.discarded_eq_zero _ hpos.ne'
  · intro left cap
    have hgrown : growCap s.params.raCapMax s.raCap (s.acc ++ chunk).length = cap := by
      rw [List.length_append]
      rfl
    rw [execRaPush_ok he hlen hheld hmem (hlen ▸ hcap) hd, State.setDrain_eq, hgrown]
    rfl

/-! ### What RA_PUSH leaves and discards -/

/-- A byte that is neither magic byte begins no frame (R80). -/
theorem isMagic_eq_false {b : Byte} (h : b ≠ 0xFE#8 ∧ b ≠ 0xFD#8) : isMagic b = false :=
  Bool.eq_false_iff.2 fun hm => ((isMagic_iff _).1 hm).elim h.1 h.2

/-- What a push with nothing dispatched leaves is short or starts with a magic byte (R214, R218). -/
theorem drop_discarded_bounded (s : State) (acc : List Byte) :
    (acc.drop (s.discarded acc 0)).length ≤ s.params.resyncThreshold ∨
      (acc.drop (s.discarded acc 0)).head? = some 0xFE#8 ∨ (acc.drop (s.discarded acc 0)).head? = some 0xFD#8 := by
  by_cases hlong : s.params.resyncThreshold < acc.length
  · rw [State.discarded_long hlong]
    obtain hnil | ⟨m, rest, hcons, hm⟩ := resyncDrop_magic acc
    · rw [hnil]
      exact .inl (Nat.zero_le _)
    · rw [hcons]
      exact .inr (((isMagic_iff _).1 hm).imp (congrArg some) (congrArg some))
  · rw [State.discarded_short 0 (Nat.not_lt.1 hlong)]
    exact .inl (Nat.not_lt.1 hlong)

/-- Settles O47: ACC is a tail of the appended buffer, which fits RA_CAP_MAX; that RES2 is 0 only when the cursor is,
is where the sizes come in. -/
theorem raPushLeavesBoundedTail : Obligations.RaPushLeavesBoundedTail := by
  unfold Obligations.RaPushLeavesBoundedTail
  intro s t hlegal h hok
  obtain ⟨chunk, d, -, -, hcap, hd, rfl⟩ := raPush_succeeded h hok
  obtain ⟨-, -, -, hcursor, -⟩ := State.drain_spans hd
  obtain ⟨-, -, ⟨-, hmax⟩, -⟩ := hlegal
  refine ⟨(List.drop_sublist _ _).length_le.trans hcap, fun hzero => ?_⟩
  have hcur : d.cursor = 0 := by
    rw [← natWord_toNat (by omega : d.cursor < 2 ^ 32)]
    exact congrArg BitVec.toNat hzero
  have hleft := drop_discarded_bounded s (s.acc ++ chunk)
  rw [State.setErr_acc, State.setDrain_eq, State.dropped, hcur, Nat.zero_add]
  exact hleft

/-- The scan loop of a buffer in which a scan finds nothing is that scan (R212). -/
theorem drain_none {s : State} {acc : List Byte} {found : Scan}
    (hr : s.scanBuffer (accBuffer acc) 0 acc.length s.replayMap = .ok found) (hn : found.accepted = none) :
    s.drain acc = .ok ⟨0, [], found.map⟩ := by
  rw [State.drain, drainFrom_none hr hn]

/-- The scan loop of a buffer in which a scan finds a frame moves the cursor (R212). -/
theorem drain_cursor_pos {s : State} {acc : List Byte} {found : Scan} {d : Drain}
    (hr : s.scanBuffer (accBuffer acc) 0 acc.length s.replayMap = .ok found) (hn : found.accepted ≠ none)
    (hd : s.drain acc = .ok d) : d.cursor ≠ 0 := by
  intro hzero
  obtain ⟨frames, hspans, -, -, -⟩ := State.drain_spans hd
  rw [hzero] at hspans
  obtain rfl := hspans.cursor_zero.1 rfl
  cases hspans with
  | done _ _ hscan =>
    obtain rfl := Except.ok.inj (hr.symm.trans hscan)
    exact hn rfl

/-- Settles O48: a scan that finds nothing is the whole loop, and leaves the cursor at 0, where a buffer past the
threshold is resynchronised; a scan that finds a frame moves the cursor. -/
theorem forcedResync : Obligations.ForcedResync := by
  unfold Obligations.ForcedResync
  intro s chunk found he hmem hlen hheld hcap acc hr
  refine ⟨fun hn => ⟨s.discarded acc 0, ?_, State.discarded_short 0, fun hlong => ?_⟩, fun hn t ht => ?_⟩
  · rw [execRaPush_ok he hlen hheld hmem hcap (drain_none hr hn), State.setDrain_eq]
    simp only [State.dropped, Nat.zero_add, List.length_drop, List.append_nil]
    rfl
  · rw [State.discarded_long hlong]
    refine ⟨fun p m hp hm hmagic hfirst => ?_, fun hnone => ?_⟩
    · exact resyncDrop_first hp hm ((isMagic_iff _).2 hmagic) fun i x h1 h2 hx =>
        isMagic_eq_false (hfirst i x h1 h2 hx)
    · exact resyncDrop_all fun i x h1 hx => isMagic_eq_false (hnone i x h1 hx)
  · obtain ⟨chunk', d, hlen', hheld', -, hd, rfl⟩ :=
      raPush_succeeded ht (raPush_err_ok he hmem hlen hheld hcap ht)
    obtain rfl := State.holds_unique hheld' hheld (hlen'.trans hlen.symm)
    have hnothing := s.discarded_eq_zero acc (drain_cursor_pos hr hn hd)
    rw [State.setErr_res, State.setDrain_eq]
    exact congrArg natWord hnothing

end Sys2Proof.Machine

/-! Chunk boundaries do not matter (R217): what the scan loop makes of frames of which the last is cut, and what holds
of the machine between two pushes of a stream of frames. -/

namespace Sys2Proof.Machine

/-! ### Frames in a buffer -/

/-- The bytes of frames one after the other. -/
def streamBytes (frames : List Instr) : List Byte := (frames.map encode).flatten

/-- Every one of the instructions is a well-formed wire frame. -/
def AllFrames (frames : List Instr) : Prop := ∀ i ∈ frames, i.wf = true ∧ opcodeOf i = none

/-- A buffer `tail` that waits for the bytes `more` of frames, the first of which it does not yet hold whole. -/
structure CutFrame (tail more : List Byte) (frames : List Instr) : Prop where
  bytes : tail ++ more = streamBytes frames
  cut : ∀ i ∈ frames.head?, tail.length < (encode i).length

/-- Two lists with a common extension agree where both have a byte. -/
theorem getElem?_eq_of_append_eq {L M more rest : List Byte} (h : L ++ more = M ++ rest) {j : Nat}
    (hL : j < L.length) (hM : j < M.length) : L[j]? = M[j]? := by
  rw [← List.getElem?_append_left hL, h, List.getElem?_append_left hM]

section Scan

variable {s : State} {acc more : List Byte}

/-- A lenient scan from a cursor behind which a frame begins finds that frame when the buffer holds it whole, and
nothing when the buffer ends in it (R181, R191). -/
theorem scanBuffer_frame {cur : Nat} {i : Instr} {rest : List Byte} (hst : s.strict = false) (hw : i.wf = true)
    (ho : opcodeOf i = none) (hin : cur ≤ acc.length) (hstream : acc.drop cur ++ more = encode i ++ rest)
    (m : ReplayMap) :
    (cur + (encode i).length ≤ acc.length →
      s.scanBuffer (accBuffer acc) cur acc.length m = .ok ⟨some (cur, (encode i).length), 0, m⟩) ∧
    (acc.length < cur + (encode i).length →
      s.scanBuffer (accBuffer acc) cur acc.length m = .ok ⟨none, 0, m⟩) := by
  obtain ⟨h, x, hversion, hmagic, htotal, hdecode⟩ := encode_view hw ho
  have htrailer : h.headerLen ≤ h.totalLen := by
    rw [Header.totalLen, Header.throughChecksum]
    omega
  have hbyte : ∀ j, cur + j < acc.length → j < h.totalLen → accBuffer acc (cur + j) = (encode i)[j]? :=
    fun j hj hlt => by
      rw [accBuffer, ← List.getElem?_drop]
      exact getElem?_eq_of_append_eq hstream (by rw [List.length_drop]; omega) (htotal ▸ hlt)
  have hheader : cur + h.headerLen ≤ acc.length → decodeHeader (accBuffer acc) cur acc.length = .ok h :=
    fun hhead => hdecode _ _ _ hhead fun j hj => hbyte j (by omega) (by omega)
  rw [← htotal]
  refine ⟨fun hwhole => scanBuffer_lenient hst (hheader (by omega)) hwhole, fun hcut => ?_⟩
  obtain hend | hbefore := hin.eq_or_lt
  · exact scanBuffer_past hend.ge s _ m
  · by_cases hhead : cur + h.headerLen ≤ acc.length
    · exact scanBuffer_cutFrame (hheader hhead) hhead hcut
    · have hfirst : accBuffer acc cur = some x :=
        (hbyte 0 hbefore (by have := h.totalLen_bounds; omega)).trans hmagic
      exact scanBuffer_cutHeader hfirst hversion hbefore (Nat.not_le.1 hhead)

/-- The scan loop over the bytes of frames dispatches those that the buffer holds whole, and stops at the first that it
does not (R212, R217). -/
theorem drainFrom_stream (hst : s.strict = false) (m : ReplayMap) :
    ∀ {frames : List Instr} {fuel cur : Nat} (out : List (List Byte)), AllFrames frames → cur ≤ acc.length →
      acc.length < cur + fuel → acc.drop cur ++ more = streamBytes frames →
      ∃ done todo stop, frames = done ++ todo ∧ CutFrame (acc.drop stop) more todo ∧
        s.drainFrom acc fuel cur out m = .ok ⟨stop, out ++ done.map encode, m⟩ := by
  intro frames
  induction frames with
  | nil =>
    intro fuel cur out _ hin hfuel hstream
    obtain ⟨k, rfl⟩ : ∃ k, fuel = k + 1 := ⟨fuel - 1, by omega⟩
    have hend : acc.length ≤ cur := List.drop_eq_nil_iff.1 (List.append_eq_nil_iff.1 hstream).1
    refine ⟨[], [], cur, rfl, ⟨hstream, nofun⟩, ?_⟩
    rw [drainFrom_none (scanBuffer_past hend s _ m) rfl, List.map_nil, List.append_nil]
  | cons i frames ih =>
    intro fuel cur out hall hin hfuel hstream
    obtain ⟨k, rfl⟩ : ∃ k, fuel = k + 1 := ⟨fuel - 1, by omega⟩
    obtain ⟨⟨hw, ho⟩, hrest⟩ := List.forall_mem_cons.1 hall
    have hfirst : acc.drop cur ++ more = encode i ++ streamBytes frames := hstream
    obtain ⟨hwhole, hcut⟩ := scanBuffer_frame hst hw ho hin hfirst m
    by_cases hfit : cur + (encode i).length ≤ acc.length
    · have hlen : (encode i).length ≤ (acc.drop cur).length := by
        rw [List.length_drop]
        omega
      have hpos : 0 < (encode i).length := by
        obtain ⟨_, -, -, hne⟩ := decodeHeader_encode hw ho
        exact List.length_pos_iff.2 hne
      have hslice : slice acc cur (encode i).length = encode i := by
        rw [slice, ← List.take_append_of_le_length hlen, hfirst, List.take_left]
      have hbehind : acc.drop (cur + (encode i).length) ++ more = streamBytes frames := by
        rw [← List.drop_drop, ← List.drop_append_of_le_length hlen, hfirst, List.drop_left]
      obtain ⟨done, todo, stop, rfl, hleft, hd⟩ :=
        ih (fuel := k) (out ++ [encode i]) hrest hfit (by omega) hbehind
      refine ⟨i :: done, todo, stop, rfl, hleft, ?_⟩
      rw [drainFrom_some (hwhole hfit) rfl, hslice, hd, List.append_assoc]
      rfl
    · have htail : (acc.drop cur).length < (encode i).length := by
        rw [List.length_drop]
        omega
      refine ⟨[], i :: frames, cur, rfl, ⟨hstream, fun j hj => ?_⟩, ?_⟩
      · obtain rfl := Option.some.inj hj
        exact htail
      · rw [drainFrom_none (hcut (Nat.not_le.1 hfit)) rfl, List.map_nil, List.append_nil]

/-- The scan loop from cursor 0 over the bytes of frames (R212, R217). -/
theorem drain_stream {frames : List Instr} (hst : s.strict = false) (hall : AllFrames frames)
    (hstream : acc ++ more = streamBytes frames) :
    ∃ done todo stop, frames = done ++ todo ∧ CutFrame (acc.drop stop) more todo ∧
      s.drain acc = .ok ⟨stop, done.map encode, s.replayMap⟩ :=
  drainFrom_stream hst s.replayMap [] hall (Nat.zero_le _) (by omega) hstream

end Scan

/-- A buffer that waits for a frame is shorter than the longest one (R93). -/
theorem CutFrame.length_lt {tail more : List Byte} {frames : List Instr} (h : CutFrame tail more frames)
    (hall : AllFrames frames) : tail.length < Config.maxFrame := by
  cases frames with
  | nil =>
    rw [(List.append_eq_nil_iff.1 h.bytes).1]
    decide
  | cons i frames =>
    obtain ⟨hw, ho⟩ := hall i List.mem_cons_self
    exact (h.cut i rfl).trans_le (encode_length_le hw ho)

/-- A buffer that waits for no more bytes is empty, and no frame is left. -/
theorem CutFrame.done {tail : List Byte} {frames : List Instr} (h : CutFrame tail [] frames) :
    tail = [] ∧ frames = [] := by
  have hbytes := h.bytes
  rw [List.append_nil] at hbytes
  cases frames with
  | nil => exact ⟨hbytes, rfl⟩
  | cons i frames =>
    have hlong : (encode i).length ≤ tail.length := by
      rw [hbytes, streamBytes, List.map_cons, List.flatten_cons, List.length_append]
      exact Nat.le_add_right _ _
    exact absurd (h.cut i rfl) (Nat.not_lt.2 hlong)

/-- The empty buffer waits for any frames. -/
theorem CutFrame.start {more : List Byte} {frames : List Instr} (hall : AllFrames frames)
    (h : more = streamBytes frames) : CutFrame [] more frames where
  bytes := h
  cut i hi := by
    obtain ⟨hw, ho⟩ := hall i (List.mem_of_mem_head? hi)
    obtain ⟨_, -, -, hne⟩ := decodeHeader_encode hw ho
    exact List.length_pos_iff.2 hne

/-! ### A chunk placed for RA_PUSH -/

section PlaceChunk

variable {s : State} {a : Nat} {chunk : List Byte}

/-- Placing a chunk leaves CTRL. -/
@[simp] theorem State.placeChunk_enable : (s.placeChunk a chunk).enable = s.enable := rfl

/-- Placing a chunk leaves the options. -/
@[simp] theorem State.placeChunk_options : (s.placeChunk a chunk).options = s.options := rfl

/-- Placing a chunk leaves ACC. -/
@[simp] theorem State.placeChunk_acc : (s.placeChunk a chunk).acc = s.acc := rfl

/-- Placing a chunk leaves FRAME_OUT. -/
@[simp] theorem State.placeChunk_frameOut : (s.placeChunk a chunk).frameOut = s.frameOut := rfl

/-- Placing a chunk leaves the parameters. -/
@[simp] theorem State.placeChunk_params : (s.placeChunk a chunk).params = s.params := rfl

/-- The operand that names a placed chunk's index (R215). -/
theorem State.placeChunk_argNat_zero (h : a < 2 ^ 32) : (s.placeChunk a chunk).argNat 0 = a := by
  have harg : (s.placeChunk a chunk).arg 0 = natWord a :=
    (State.arg_setArg_other _ (by decide) _).trans (State.arg_setArg_same _ 0 _)
  rw [State.argNat, harg, natWord_toNat h]

/-- The operand that names a placed chunk's length (R215). -/
theorem State.placeChunk_argNat_one (h : chunk.length < 2 ^ 32) :
    (s.placeChunk a chunk).argNat 1 = chunk.length := by
  have harg : (s.placeChunk a chunk).arg 1 = natWord chunk.length := State.arg_setArg_same _ 1 _
  rw [State.argNat, harg, natWord_toNat h]

/-- RA_PUSH of a placed chunk that fits FRAME_RAM and the buffer, whose scan loop ends (R213 to R215). -/
theorem raPush_placeChunk {d : Drain} (hlegal : s.params.Legal) (he : s.enable = true)
    (hmem : a + chunk.length ≤ s.params.memSize) (hcap : s.acc.length + chunk.length ≤ s.params.raCapMax)
    (hd : (s.placeChunk a chunk).drain (s.acc ++ chunk) = .ok d) :
    ∃ t, exec .raPush (s.placeChunk a chunk) = .next t ∧ t.err = .ok ∧ t.enable = s.enable ∧
      t.options = s.options ∧ t.params = s.params ∧ t.frameOut = s.frameOut ++ d.records ∧
      t.acc = (s.acc ++ chunk).drop (s.dropped (s.acc ++ chunk) d.cursor) := by
  obtain ⟨⟨-, hmax⟩, -⟩ := hlegal
  have h0 : (s.placeChunk a chunk).argNat 0 = a := State.placeChunk_argNat_zero (by omega)
  have h1 : (s.placeChunk a chunk).argNat 1 = chunk.length := State.placeChunk_argNat_one (by omega)
  have hheld : (s.placeChunk a chunk).holds ((s.placeChunk a chunk).argNat 0) chunk :=
    h0.symm ▸ s.holds_writeBytes a chunk
  have hinside : (s.placeChunk a chunk).argNat 0 + (s.placeChunk a chunk).argNat 1 ≤ s.params.memSize :=
    h0.symm ▸ h1.symm ▸ hmem
  refine ⟨_, execRaPush_ok (s := s.placeChunk a chunk) he h1.symm hheld hinside hcap hd, rfl, ?_⟩
  simp [State.setDrain_eq, State.dropped, State.discarded]

end PlaceChunk

/-! ### A stream of frames in any chunks -/

/-- What holds between two pushes of a stream of frames (R217): an enabled lenient instance, whose ACC waits for the
bytes `more` of the frames still to be dispatched. -/
structure Receiving (s : State) (more : List Byte) (frames : List Instr) : Prop where
  legal : s.params.Legal
  enabled : s.enable = true
  lenient : s.strict = false
  allFrames : AllFrames frames
  waiting : CutFrame s.acc more frames

/-- A push of the stream's next chunk succeeds, dispatches the frames that it completes, and keeps waiting for the rest:
what is left of a frame is too short for a forced resynchronisation (R214, R217). -/
theorem Receiving.push {s : State} {chunk more : List Byte} {frames : List Instr} {a : Nat}
    (h : Receiving s (chunk ++ more) frames) (hmem : a + chunk.length ≤ s.params.memSize)
    (hcap : Config.maxFrame + chunk.length ≤ s.params.raCapMax) :
    ∃ t done todo, exec .raPush (s.placeChunk a chunk) = .next t ∧ t.err = .ok ∧ t.params = s.params ∧
      frames = done ++ todo ∧ t.frameOut = s.frameOut ++ done.map encode ∧ Receiving t more todo := by
  obtain ⟨hlegal, he, hst, hall, hwaiting⟩ := h
  have hshort := hwaiting.length_lt hall
  have hstream : s.acc ++ chunk ++ more = streamBytes frames := (List.append_assoc ..).trans hwaiting.bytes
  obtain ⟨done, todo, stop, rfl, hleft, hd⟩ := drain_stream (s := s.placeChunk a chunk) hst hall hstream
  have htodo : AllFrames todo := fun i hi => hall i (List.mem_append_right _ hi)
  have hkept : s.discarded (s.acc ++ chunk) stop = 0 := by
    by_cases hstop : stop = 0
    · have hless := hleft.length_lt htodo
      obtain ⟨-, -, -, hthreshold⟩ := hlegal
      rw [hstop, List.drop_zero] at hless
      exact State.discarded_short stop (hless.le.trans hthreshold)
    · exact State.discarded_eq_zero _ _ hstop
  obtain ⟨t, hpush, hok, henable, hoptions, hparams, hout, hacc⟩ :=
    raPush_placeChunk hlegal he hmem (by omega) hd
  rw [State.dropped, hkept, Nat.add_zero] at hacc
  exact ⟨t, done, todo, hpush, hok, hparams, rfl, hout, hparams ▸ hlegal, henable.trans he,
    (congrArg (·.getLsbD 0) hoptions).trans hst, htodo, hacc ▸ hleft⟩

/-- Pushes of a stream's chunks in turn succeed, dispatch its frames in order and leave ACC empty (R217). -/
theorem Receiving.pushAll : ∀ {pushes : List (Nat × List Byte)} {s : State} {frames : List Instr},
    Receiving s (pushes.map Prod.snd).flatten frames →
    (∀ p ∈ pushes, p.1 + p.2.length ≤ s.params.memSize ∧ Config.maxFrame + p.2.length ≤ s.params.raCapMax) →
    ∃ t, s.pushAll pushes = .next t ∧ (pushes ≠ [] ∨ s.err = .ok → t.err = .ok) ∧
      t.frameOut = s.frameOut ++ frames.map encode ∧ t.acc = [] := by
  intro pushes
  induction pushes with
  | nil =>
    intro s frames h _
    obtain ⟨hacc, rfl⟩ := h.waiting.done
    exact ⟨s, rfl, fun hor => hor.resolve_left fun hne => hne rfl, (List.append_nil _).symm, hacc⟩
  | cons p pushes ih =>
    intro s frames h hfits
    obtain ⟨a, chunk⟩ := p
    obtain ⟨⟨hmem, hcap⟩, hrest⟩ := List.forall_mem_cons.1 hfits
    obtain ⟨t, done, todo, hpush, hok, hparams, rfl, hout, ht⟩ := Receiving.push h hmem hcap
    obtain ⟨u, hall, herr, hout', hacc⟩ := ih ht (hparams ▸ hrest)
    refine ⟨u, ?_, fun _ => herr (.inr hok), ?_, hacc⟩
    · simp only [State.pushAll, hpush, hall]
    · rw [hout', hout, List.map_append, List.append_assoc]

/-- Settles O49: the empty ACC waits for the whole stream. -/
theorem chunkingInvariance : Obligations.ChunkingInvariance := by
  unfold Obligations.ChunkingInvariance
  intro s frames pushes hlegal he hst hacc hall hfits hbytes
  have hwaiting : CutFrame s.acc (pushes.map Prod.snd).flatten frames := hacc ▸ CutFrame.start hall hbytes
  obtain ⟨t, hpushes, hok, hout, hempty⟩ := Receiving.pushAll ⟨hlegal, he, hst, hall, hwaiting⟩ hfits
  exact ⟨t, hpushes, fun hne => hok (.inl hne), hout, hempty⟩

end Sys2Proof.Machine

/-! Control, command issue and register access (46_control.md): which commands need the instance (R236), what a CTRL
write does (R230 to R233), and the host's other writes and reads (R234, R237, R238). -/

namespace Sys2Proof.Machine

/-! ### The error codes that a command can raise -/

/-- A computation raises no code outside the list (R252). -/
def ErrorsIn {α : Type} (codes : List ErrCode) (x : Run α) : Prop := ∀ c, x = .error (.raise c) → c ∈ codes

section ErrorsIn

variable {α β : Type} {codes : List ErrCode}

/-- A result raises nothing. -/
theorem errorsIn_ok (a : α) : ErrorsIn codes (.ok a : Run α) := nofun

/-- A code that the list holds. -/
theorem errorsIn_raise {c : ErrCode} (h : c ∈ codes) : ErrorsIn codes (.error (.raise c) : Run α) := by
  intro d hd
  cases hd
  exact h

/-- A check raises its own code only (R10). -/
theorem errorsIn_require (p : Prop) [Decidable p] {c : ErrCode} (h : c ∈ codes) : ErrorsIn codes (require p c) := by
  intro d hd
  obtain ⟨-, rfl⟩ := require_raise hd
  exact h

/-- What can only fault raises nothing (R272). -/
theorem errorsIn_of_ne_raise {x : Run α} (h : ∀ c, x ≠ .error (.raise c)) : ErrorsIn codes x := fun c hc =>
  absurd hc (h c)

/-- Two computations, one after the other, raise what either of them does. -/
theorem ErrorsIn.bind {x : Run α} {f : α → Run β} (hx : ErrorsIn codes x) (hf : ∀ a, ErrorsIn codes (f a)) :
    ErrorsIn codes (x >>= f) := by
  intro c hc
  obtain hc | ⟨a, -, hc⟩ := run_bind_error.mp hc
  · exact hx c hc
  · exact hf a c hc

/-- Reading bytes raises nothing (R272). -/
theorem errorsIn_readBytes (b : Buffer) (a n : Nat) : ErrorsIn codes (readBytes b a n) :=
  errorsIn_of_ne_raise (readBytes_ne_raise b a n)

/-- A choice raises what its branches do. -/
theorem errorsIn_ite {p : Prop} [Decidable p] {x y : Run α} (hx : ErrorsIn codes x) (hy : ErrorsIn codes y) :
    ErrorsIn codes (if p then x else y) := by
  split
  · exact hx
  · exact hy

/-- Computing a frame's checksum raises nothing (R143). -/
theorem errorsIn_computedChecksum (b : Buffer) (start : Nat) (h : Header) (extra : Byte) :
    ErrorsIn codes (computedChecksum b start h extra) := (errorsIn_readBytes b _ _).bind fun _ => errorsIn_ok _

/-- Reading a frame's checksum field raises nothing (R83). -/
theorem errorsIn_storedChecksum (b : Buffer) (start : Nat) (h : Header) :
    ErrorsIn codes (storedChecksum b start h) := (errorsIn_readBytes b _ _).bind fun _ => errorsIn_ok _

/-- A command leaves OK or a code that its computation can raise (R253, R256). -/
theorem ErrorsIn.err_of_finish {s t : State} {r : Run State} (hr : ErrorsIn codes r) (h : finish s r = .next t) :
    t.err = .ok ∨ t.err ∈ codes := by
  obtain ⟨u, -, rfl⟩ | ⟨c, hc, rfl⟩ := finish_next.mp h
  · exact .inl rfl
  · exact .inr (hr c hc)

/-- Decoding a header (R140). -/
theorem errorsIn_decodeHeader (b : Buffer) (start limit : Nat) (hrange : ErrCode.outOfRange ∈ codes)
    (hframe : ErrCode.notAFrame ∈ codes) : ErrorsIn codes (decodeHeader b start limit) := by
  refine (errorsIn_require _ hrange).bind fun _ => (errorsIn_of_ne_raise (readByte_ne_raise b start)).bind fun magic => ?_
  cases versionOf magic with
  | none => exact errorsIn_raise hframe
  | some v => exact (errorsIn_require _ hrange).bind fun _ => (errorsIn_readBytes b start _).bind fun _ => errorsIn_ok _

/-- The errors of a command that decodes the header at ARG0 first (R140, R252). -/
theorem errorsIn_viewHeader_bind {s : State} {f : Header → Run State} (hrange : ErrCode.outOfRange ∈ codes)
    (hframe : ErrCode.notAFrame ∈ codes) (hf : ∀ h, ErrorsIn codes (f h)) : ErrorsIn codes (s.viewHeader >>= f) :=
  (errorsIn_decodeHeader s.ram _ _ hrange hframe).bind hf

end ErrorsIn

section CommandErrors

variable {s t : State}

/-- CKSUM's row of R252. -/
theorem cksum_err (h : exec .cksum s = .next t) : t.err = .ok ∨ t.err ∈ [ErrCode.outOfRange] := by
  refine ErrorsIn.err_of_finish ?_ h
  exact (errorsIn_require _ (by decide)).bind fun _ => (errorsIn_readBytes _ _ _).bind fun _ => errorsIn_ok _

/-- FV_DECODE's row of R252. -/
theorem fvDecode_err (h : exec .fvDecode s = .next t) : t.err = .ok ∨ t.err ∈ [ErrCode.outOfRange, .notAFrame] := by
  refine ErrorsIn.err_of_finish ?_ h
  exact errorsIn_viewHeader_bind (by decide) (by decide) fun _ => errorsIn_ok _

/-- FV_VALIDATE_CRC's row of R252. -/
theorem fvValidateCrc_err (h : exec .fvValidateCrc s = .next t) :
    t.err = .ok ∨ t.err ∈ [ErrCode.outOfRange, .notAFrame] := by
  refine ErrorsIn.err_of_finish ?_ h
  refine errorsIn_viewHeader_bind (by decide) (by decide) fun _ => (errorsIn_require _ (by decide)).bind fun _ => ?_
  exact (errorsIn_computedChecksum _ _ _ _).bind fun _ => (errorsIn_storedChecksum _ _ _).bind fun _ => errorsIn_ok _

/-- FV_HAS_SIG's row of R252. -/
theorem fvHasSig_err (h : exec .fvHasSig s = .next t) : t.err = .ok ∨ t.err ∈ [ErrCode.outOfRange, .notAFrame] := by
  refine ErrorsIn.err_of_finish ?_ h
  exact errorsIn_viewHeader_bind (by decide) (by decide) fun _ => errorsIn_ok _

/-- FV_VALIDATE_SIG's row of R252. -/
theorem fvValidateSig_err (h : exec .fvValidateSig s = .next t) :
    t.err = .ok ∨ t.err ∈ [ErrCode.outOfRange, .notAFrame, .badKeyLen] := by
  refine ErrorsIn.err_of_finish ?_ h
  refine errorsIn_viewHeader_bind (by decide) (by decide) fun hd => (errorsIn_require _ (by decide)).bind fun _ => ?_
  refine errorsIn_ite (errorsIn_ok _) ((errorsIn_require _ (by decide)).bind fun _ => ?_)
  refine (errorsIn_of_ne_raise (readKey_ne_raise _ _ _ _)).bind fun key => ?_
  exact (errorsIn_of_ne_raise (validateSignature_ne_raise _ _ _ hd key)).bind fun _ => errorsIn_ok _

/-- FV_SIG_TIMESTAMP's row of R252. -/
theorem fvSigTimestamp_err (h : exec .fvSigTimestamp s = .next t) :
    t.err = .ok ∨ t.err ∈ [ErrCode.outOfRange, .notAFrame] := by
  refine ErrorsIn.err_of_finish ?_ h
  refine errorsIn_viewHeader_bind (by decide) (by decide) fun hd => errorsIn_ite ?_ (errorsIn_ok _)
  refine (errorsIn_require _ (by decide)).bind fun _ => ?_
  exact (errorsIn_of_ne_raise (sigTimestamp_ne_raise _ _ hd)).bind fun _ => errorsIn_ok _

/-- FV_SIG_LINK_ID's row of R252. -/
theorem fvSigLinkId_err (h : exec .fvSigLinkId s = .next t) :
    t.err = .ok ∨ t.err ∈ [ErrCode.outOfRange, .notAFrame] := by
  refine ErrorsIn.err_of_finish ?_ h
  refine errorsIn_viewHeader_bind (by decide) (by decide) fun hd => errorsIn_ite ?_ (errorsIn_ok _)
  refine (errorsIn_require _ (by decide)).bind fun _ => ?_
  exact (errorsIn_of_ne_raise (readByte_ne_raise _ _)).bind fun _ => errorsIn_ok _

/-- PACK_V1's row of R252. -/
theorem packV1_err (h : exec .packV1 s = .next t) :
    t.err = .ok ∨ t.err ∈ [ErrCode.outOfRange, .payloadTooLarge, .msgidRange, .dstTooSmall] := by
  refine ErrorsIn.err_of_finish ?_ h
  refine (errorsIn_require _ (by decide)).bind fun _ => (errorsIn_require _ (by decide)).bind fun _ => ?_
  refine (errorsIn_require _ (by decide)).bind fun _ => (errorsIn_require _ (by decide)).bind fun _ => ?_
  exact (errorsIn_require _ (by decide)).bind fun _ => (errorsIn_readBytes _ _ _).bind fun _ => errorsIn_ok _

/-- PACK_V2's row of R252. -/
theorem packV2_err (h : exec .packV2 s = .next t) :
    t.err = .ok ∨ t.err ∈ [ErrCode.outOfRange, .payloadTooLarge, .signedFlagWithoutKey, .dstTooSmall, .badKeyLen] := by
  obtain ⟨_, _, _, -, -, -, -, -, -, -, -, -, -, rfl⟩ | ⟨c, hc, rfl⟩ := execPackV2_next h
  · exact .inl rfl
  · exact .inr hc

/-- RA_DROP's row of R252. -/
theorem raDrop_err (h : exec .raDrop s = .next t) : t.err = .ok := by
  cases h
  rfl

end CommandErrors

/-! ### The commands that need the instance -/

/-- A command that leaves NOT_ENABLED is one of the three that use the instance (R236, R252). -/
theorem instanceCommand_of_notEnabled {i : Instr} {s t : State} (hi : opcodeOf i ≠ none) (h : exec i s = .next t)
    (he : t.err = .notEnabled) : i = .scan ∨ i = .rplGet ∨ i = .raPush := by
  cases i with
  | scan => exact .inl rfl
  | rplGet => exact .inr (.inl rfl)
  | raPush => exact .inr (.inr rfl)
  | cksum => exact absurd (he ▸ cksum_err h) (by decide)
  | fvDecode => exact absurd (he ▸ fvDecode_err h) (by decide)
  | fvValidateCrc => exact absurd (he ▸ fvValidateCrc_err h) (by decide)
  | fvHasSig => exact absurd (he ▸ fvHasSig_err h) (by decide)
  | fvValidateSig => exact absurd (he ▸ fvValidateSig_err h) (by decide)
  | fvSigTimestamp => exact absurd (he ▸ fvSigTimestamp_err h) (by decide)
  | fvSigLinkId => exact absurd (he ▸ fvSigLinkId_err h) (by decide)
  | packV1 => exact absurd (he ▸ packV1_err h) (by decide)
  | packV2 => exact absurd (he ▸ packV2_err h) (by decide)
  | raDrop => exact absurd (he ▸ raDrop_err h) (by decide)
  | frameV1 | frameV2 | frameV2Signed => exact absurd rfl hi

/-- RPL_GET with an instance ends well (R131, R135). -/
theorem rplGet_err_enabled {s t : State} (he : s.enable = true) (h : exec .rplGet s = .next t) : t.err = .ok := by
  cases hm : s.replayMap.lookup (s.argNat 0) with
  | none =>
    cases (rplGet_absent he hm).symm.trans h
    rfl
  | some v =>
    cases (rplGet_present he hm).symm.trans h
    rfl

/-- An instance command that leaves NOT_ENABLED began with CTRL.ENABLE at 0 (R236). -/
theorem disabled_of_notEnabled {i : Instr} {s t : State} (hi : i = .scan ∨ i = .rplGet ∨ i = .raPush)
    (h : exec i s = .next t) (he : t.err = .notEnabled) : s.enable = false := by
  obtain rfl | rfl | rfl := hi
  · obtain ⟨_, -, -, -, -, rfl⟩ | ⟨c, -, rfl, hc⟩ := execScan_next h
    · cases he
    · exact hc he
  · refine Bool.eq_false_iff.mpr fun hon => ?_
    exact absurd (he.symm.trans (rplGet_err_enabled hon h)) (by decide)
  · obtain ⟨_, _, -, -, -, -, -, -, rfl⟩ | ⟨c, -, rfl, hc⟩ := execRaPush_next h
    · cases he
    · exact hc he

/-- Settles O55: the three check CTRL.ENABLE first, and NOT_ENABLED stands in no other command's row of R252. -/
theorem instanceCommands : Obligations.InstanceCommands := by
  unfold Obligations.InstanceCommands
  refine fun i s hi => ⟨fun hneeds hoff => ?_, fun t h he => ?_⟩
  · obtain rfl | rfl | rfl := hneeds
    · exact scan_disabled hoff
    · exact rplGet_disabled hoff
    · exact raPush_disabled hoff
  · have hneeds := instanceCommand_of_notEnabled hi h he
    exact ⟨disabled_of_notEnabled hneeds h he, hneeds⟩

/-! ### The host's accesses as steps -/

section Access

variable {s : State} {rest : List HostAccess} {off : BitVec 16}

/-- A register write is taken, and done to the register at its offset (R61, R62). -/
theorem step_registerWrite {v : Word} (hp : s.pending = .write off (leBytes 4 v.toNat) :: rest)
    (hreg : off.toNat < 0x100) (halign : off.toNat % 4 = 0) :
    step s = writeReg v ((s.setPending rest).respond .done) (regAt off.toNat) := by
  rw [step_write hp, hostWrite_register hreg halign]

/-- A write above the register window is taken, and done to its region (R61). -/
theorem step_memoryWrite {data : List Byte} (hp : s.pending = .write off data :: rest) (habove : 0x100 ≤ off.toNat)
    (hw : data.length = 1 ∨ data.length = 2 ∨ data.length = 4) (halign : off.toNat % data.length = 0)
    (hend : off.toNat < 0x8000 ∨ off.toNat + data.length ≤ 0x8000 + s.params.memSize ∨
      0x8000 + s.params.memSize ≤ off.toNat) :
    step s = writeRegion data ((s.setPending rest).respond .done) (regionOf s.params.memSize off.toNat) := by
  rw [step_write hp]
  exact hostWrite_memory (legalAccess_aligned habove hw halign hend)

/-- What a register reads as does not depend on the host's further accesses (log 1). -/
@[simp] theorem State.readReg_setPending (s : State) (p : List HostAccess) (r : Reg) :
    (s.setPending p).readReg r = s.readReg r := by
  cases r <;> rfl

/-- What a region reads as does not depend on the host's further accesses (log 1). -/
@[simp] theorem State.readRegion_setPending (s : State) (p : List HostAccess) (width : Nat) (r : Region) :
    (s.setPending p).readRegion width r = s.readRegion width r := by
  cases r with
  | register r => simp only [State.readRegion, State.readReg_setPending]
  | rxKey i | opKey i | frameRam i | reserved => rfl

/-- A register read answers the register's value, least significant byte first (R62, R237). -/
theorem step_registerRead (hp : s.pending = .read off 4 :: rest) (hreg : off.toNat < 0x100)
    (halign : off.toNat % 4 = 0) :
    step s = .next ((s.setPending rest).respond (.data (leBytes 4 (s.readReg (regAt off.toNat)).toNat))) := by
  rw [step_read hp, hostRead_register hreg halign, State.readReg_setPending]

/-- A read above the register window answers the bytes of its region (R61, R237). -/
theorem step_memoryRead {width : Nat} {bytes : List Byte} (hp : s.pending = .read off width :: rest)
    (habove : 0x100 ≤ off.toNat) (hw : width = 1 ∨ width = 2 ∨ width = 4) (halign : off.toNat % width = 0)
    (hend : off.toNat < 0x8000 ∨ off.toNat + width ≤ 0x8000 + s.params.memSize ∨
      0x8000 + s.params.memSize ≤ off.toNat)
    (hread : s.readRegion width (regionOf s.params.memSize off.toNat) = .ok bytes) :
    step s = .next ((s.setPending rest).respond (.data bytes)) := by
  have hlegal := legalAccess_aligned habove hw halign hend
  have hread' : (s.setPending rest).readRegion width (regionOf (s.setPending rest).params.memSize off.toNat) =
      .ok bytes := (State.readRegion_setPending s rest width _).trans hread
  rw [step_read hp, hostRead_memory (s := s.setPending rest) hlegal, hread']

end Access

/-! ### CTRL writes -/

section WriteCtrl

variable {s : State} {v : Word}

/-- SOFT_RESET comes first (R230, R233). -/
theorem writeCtrl_softReset (hreset : v.getLsbD 1 = true) : writeCtrl v s = s.dropInstance.setErr .ok := by
  simp only [writeCtrl, hreset, if_true, softReset]

/-- A write of ENABLE = 1 while it is 0 (R230). -/
theorem writeCtrl_eq_enable (hreset : v.getLsbD 1 = false) (hen : v.getLsbD 0 = true) (hoff : s.enable = false) :
    writeCtrl v s = enable s := by
  simp only [writeCtrl, hreset, hen, hoff, Bool.false_eq_true, if_false, Bool.not_false, Bool.and_self, if_true]

/-- Enabling a configuration that no instance can have (R231). -/
theorem writeCtrl_badConfig (hreset : v.getLsbD 1 = false) (hen : v.getLsbD 0 = true) (hoff : s.enable = false)
    (hbad : s.mapLoadFactor = 0#16 ∨ s.params.keyMax < s.rxKeyLen.toNat) : writeCtrl v s = s.setErr .badConfig :=
  (writeCtrl_eq_enable hreset hen hoff).trans (if_pos hbad)

/-- Enabling builds a fresh instance (R231). -/
theorem writeCtrl_enable (hreset : v.getLsbD 1 = false) (hen : v.getLsbD 0 = true) (hoff : s.enable = false)
    (hload : s.mapLoadFactor ≠ 0#16) (hkey : s.rxKeyLen.toNat ≤ s.params.keyMax) :
    writeCtrl v s =
      { s with enable := true, replayMap := [], acc := [], raCap := s.params.raInitCap, err := .ok } :=
  (writeCtrl_eq_enable hreset hen hoff).trans (if_neg (not_or.mpr ⟨hload, hkey.not_gt⟩))

/-- A write of ENABLE = 0 while it is 1 drops the instance (R230, R232). -/
theorem writeCtrl_disable (hreset : v.getLsbD 1 = false) (hen : v.getLsbD 0 = false) (hon : s.enable = true) :
    writeCtrl v s = s.dropInstance.setErr .ok := by
  simp only [writeCtrl, hreset, hen, hon, Bool.false_eq_true, if_false, Bool.false_and, Bool.not_false, Bool.and_self,
    if_true, disable]

/-- A write of ENABLE's own value (R230). -/
theorem writeCtrl_same (hreset : v.getLsbD 1 = false) (hen : v.getLsbD 0 = s.enable) :
    writeCtrl v s = s.setErr .ok := by
  simp only [writeCtrl, hreset, hen, Bool.and_not_self, Bool.not_and_self, Bool.false_eq_true, if_false]

end WriteCtrl

/-! ### What changes CTRL.ENABLE -/

/-- No instruction changes CTRL.ENABLE (R31, R43). -/
theorem exec_enable {i : Instr} {s t : State} (h : exec i s = .next t) : t.enable = s.enable := by
  cases exec_effect h <;> rfl

/-- A COMMAND write leaves CTRL.ENABLE (R235). -/
theorem issue_enable {w : Word} {s t : State} (h : issue w s = .next t) : t.enable = s.enable := by
  obtain ⟨i, hexec⟩ | rfl := issue_next h
  · exact exec_enable hexec
  · rfl

/-- A write to the frozen group leaves CTRL.ENABLE, its stored state doing so (R234). -/
theorem frozenWrite_enable {s stored : State} (h : stored.enable = s.enable) :
    (frozenWrite s stored).enable = s.enable := by
  unfold frozenWrite
  split
  · rfl
  · exact h

/-- Of the registers only CTRL changes CTRL.ENABLE (R230, R234, R235, R238). -/
theorem writeReg_enable {v : Word} {s t : State} {r : Reg} (h : writeReg v s r = .next t) (hr : r ≠ .ctrl) :
    t.enable = s.enable := by
  cases r with
  | ctrl => exact absurd rfl hr
  | command => exact issue_enable h
  | options | windowLo | windowHi | mapInitCap | mapLoadFactor | rxKeyLen =>
    cases h
    exact frozenWrite_enable rfl
  | id | status | opKeyLen | raLen | raCap | arg i | res i | reserved =>
    cases h
    rfl

/-- Of the regions only the register CTRL changes CTRL.ENABLE (R230, R234, R238). -/
theorem writeRegion_enable {data : List Byte} {s t : State} {r : Region} (h : writeRegion data s r = .next t)
    (hr : r ≠ .register .ctrl) : t.enable = s.enable := by
  cases r with
  | register r => exact writeReg_enable h fun hc => hr (congrArg Region.register hc)
  | rxKey i =>
    cases h
    exact frozenWrite_enable rfl
  | opKey i | frameRam i | reserved =>
    cases h
    rfl

/-- CTRL stands at one offset (R20). -/
theorem eq_of_regAt_ctrl {o : Nat} (h : regAt o = .ctrl) : o = 0x004 := by
  simp only [regAt, ite_eq_iff, reduceCtorEq, and_false, or_false, false_or, and_true] at h
  exact h.2

/-- CTRL is written by a four-byte access to its offset (R20, R61). -/
theorem ctrl_access {n o width : Nat} (h : regionOf n o = .register .ctrl) (hl : legalAccess n o width = true) :
    o = 0x004 ∧ width = 4 := by
  have ho : o = 0x004 := by
    obtain ⟨-, h'⟩ | ⟨-, -, h'⟩ | ⟨-, -, h'⟩ | ⟨-, -, h'⟩ | ⟨-, h'⟩ := regionOf_cases n o <;> rw [h'] at h
    · exact eq_of_regAt_ctrl (Region.register.inj h)
    all_goals cases h
  subst ho
  exact ⟨rfl, by simpa [legalAccess] using hl⟩

/-- Settles O9: a CTRL write is `writeCtrl`, whose branches are the statement's cases; and of a step's outcomes only a
legal write to CTRL touches ENABLE. -/
theorem ctrlWrite : Obligations.CtrlWrite := by
  unfold Obligations.CtrlWrite
  refine ⟨fun s v rest hp => ?_, fun s t h hne => ?_⟩
  · have hstep : step s = .next (writeCtrl v ((s.setPending rest).respond .done)) :=
      step_registerWrite hp (by decide) (by decide)
    rw [hstep]
    refine ⟨fun hreset => ?_, fun hreset hen hoff => ⟨fun hbad => ?_, fun hload hkey => ?_⟩,
      fun hreset hen hon => ?_, fun hreset hen => ?_⟩
    · exact congrArg Host.Outcome.next (writeCtrl_softReset hreset)
    · exact congrArg Host.Outcome.next (writeCtrl_badConfig hreset hen hoff hbad)
    · exact congrArg Host.Outcome.next (writeCtrl_enable hreset hen hoff hload hkey)
    · exact congrArg Host.Outcome.next (writeCtrl_disable hreset hen hon)
    · exact congrArg Host.Outcome.next (writeCtrl_same hreset hen)
  · obtain ⟨-, rfl⟩ | ⟨a, rest, hp, ⟨r, rfl, -⟩ | ⟨off, data, rfl, hl, hw⟩⟩ := step_cases h
    · exact absurd rfl hne
    · exact absurd rfl hne
    · have hctrl : regionOf s.params.memSize off.toNat = .register .ctrl :=
        not_not.mp fun hother => hne (writeRegion_enable hw hother :)
      obtain ⟨hoff, hlen⟩ := ctrl_access hctrl hl
      have hoff' : off = 0x004#16 := BitVec.eq_of_toNat_eq hoff
      subst hoff'
      exact ⟨data, rest, hp, hlen⟩

/-! ### Writes to the frozen group -/

/-- A write to the frozen group sets CFG_LOCKED while ENABLE is 1, and stores while it is 0 (R234). -/
theorem step_frozenWrite {s t stored : State} (h : step s = .next (frozenWrite t stored)) (he : t.enable = s.enable) :
    (s.enable = true → step s = .next (t.setErr .cfgLocked)) ∧ (s.enable = false → step s = .next stored) := by
  rw [h, ← he]
  exact ⟨fun hon => by rw [frozenWrite, if_pos hon], fun hoff => by rw [frozenWrite, if_neg (by simp [hoff])]⟩

/-- Settles O10: every offset of the group is written by `frozenWrite`. -/
theorem frozenGroupWrites : Obligations.FrozenGroupWrites := by
  unfold Obligations.FrozenGroupWrites
  refine fun s rest => ⟨fun v off stored hmem hp => ?_, fun off data hlo hhi hw halign hp => ?_⟩
  · refine step_frozenWrite ?_ rfl
    simp only [List.mem_cons, Prod.mk.injEq, List.not_mem_nil, or_false] at hmem
    obtain ⟨rfl, rfl⟩ | ⟨rfl, rfl⟩ | ⟨rfl, rfl⟩ | ⟨rfl, rfl⟩ | ⟨rfl, rfl⟩ | ⟨rfl, rfl⟩ := hmem <;>
      exact step_registerWrite hp (by decide) (by decide)
  · refine step_frozenWrite ?_ rfl
    rw [step_memoryWrite hp hlo hw halign (by omega), regionOf_rxKey_eq hlo hhi]
    rfl

/-! ### Writes that are ignored, and plain stores -/

/-- Settles O11: each offset's register or region, and what a write does to it. -/
theorem plainWrites : Obligations.PlainWrites := by
  unfold Obligations.PlainWrites
  refine fun s rest => ⟨fun v off hp => ⟨fun hmem => ?_, fun halign hres => ?_, fun hoff => ?_, fun i hoff => ?_⟩,
    fun off data hp hw halign => ⟨fun hlo hhi => ?_, fun hlo hfit => ?_, fun hres => ?_⟩⟩
  · simp only [List.mem_cons, List.not_mem_nil, or_false] at hmem
    obtain rfl | rfl | rfl | rfl | rfl | rfl | rfl | rfl := hmem <;>
      exact step_registerWrite hp (by decide) (by decide)
  · rw [step_registerWrite hp (by omega) halign, regAt_reserved halign hres]
    rfl
  · subst hoff
    exact step_registerWrite hp (by decide) (by decide)
  · rw [step_registerWrite hp (by omega) (by omega), regAt_arg hoff]
    rfl
  · rw [step_memoryWrite hp (by omega) hw halign (by omega), regionOf_opKey_eq hlo hhi]
    rfl
  · rw [step_memoryWrite hp (by omega) hw halign (by omega), regionOf_frameRam_eq hlo (by omega)]
    rfl
  · rw [step_memoryWrite hp (by omega) hw halign (by omega), regionOf_reserved_eq hres]
    rfl

/-! ### Reads -/

/-- CTRL as read (R23). -/
theorem State.ctrlWord_eq (s : State) : s.ctrlWord = BitVec.ofNat 32 s.enable.toNat := by
  unfold State.ctrlWord
  cases s.enable <;> rfl

/-- STATUS as read (R24). -/
theorem State.statusWord_eq (s : State) :
    s.statusWord = BitVec.ofNat 32 (256 * s.enable.toNat + s.err.toByte.toNat) := by
  unfold State.statusWord
  cases s.enable <;> cases s.err <;> rfl

/-- The bytes of zero are zeros (R9). -/
theorem leBytes_zero (n : Nat) : leBytes n 0 = List.replicate n 0#8 := by
  induction n with
  | zero => rfl
  | succ n ih => rw [leBytes, Nat.zero_div, ih, List.replicate_succ]

/-- A reserved offset reads as zeros (R34, R237). -/
theorem State.readReg_reserved_bytes (s : State) : leBytes 4 (s.readReg .reserved).toNat = [0#8, 0#8, 0#8, 0#8] :=
  leBytes_zero 4

/-- Settles O12: each offset's register or region, and what it reads as. -/
theorem hostReads : Obligations.HostReads := by
  unfold Obligations.HostReads
  refine fun s rest off width hp => ⟨fun v hwidth hmem => ?_, fun i hwidth hoff => ?_, fun hwidth halign hres => ?_,
    fun hw halign bytes hlen => ⟨fun hlo hhi hkey => ?_, fun hlo hhi hkey => ?_, fun hlo hfit hheld => ?_,
      fun hres => ?_⟩⟩
  · subst hwidth
    simp only [← State.ctrlWord_eq, ← State.statusWord_eq, BitVec.ofNat_toNat, List.mem_cons, Prod.mk.injEq,
      List.not_mem_nil, or_false] at hmem
    obtain ⟨rfl, rfl⟩ | ⟨rfl, rfl⟩ | ⟨rfl, rfl⟩ | ⟨rfl, rfl⟩ | ⟨rfl, rfl⟩ | ⟨rfl, rfl⟩ | ⟨rfl, rfl⟩ | ⟨rfl, rfl⟩ |
      ⟨rfl, rfl⟩ | ⟨rfl, rfl⟩ | ⟨rfl, rfl⟩ | ⟨rfl, rfl⟩ | ⟨rfl, rfl⟩ | ⟨rfl, rfl⟩ | ⟨rfl, rfl⟩ | ⟨rfl, rfl⟩ |
      ⟨rfl, rfl⟩ := hmem <;> exact step_registerRead hp (by decide) (by decide)
  · subst hwidth
    rw [step_registerRead hp (by omega) (by omega), regAt_arg hoff]
    rfl
  · subst hwidth
    rw [step_registerRead hp (by omega) halign, regAt_reserved halign hres, State.readReg_reserved_bytes]
  · subst hlen
    refine step_memoryRead hp hlo hw halign (by omega) ?_
    rw [regionOf_rxKey_eq hlo hhi]
    exact readKey_holds hkey
  · subst hlen
    refine step_memoryRead hp (by omega) hw halign (by omega) ?_
    rw [regionOf_opKey_eq hlo hhi]
    exact readKey_holds hkey
  · subst hlen
    refine step_memoryRead hp (by omega) hw halign (by omega) ?_
    rw [regionOf_frameRam_eq hlo (by omega)]
    exact State.readBytes_ram hheld
  · refine step_memoryRead hp (by omega) hw halign (by omega) ?_
    rw [regionOf_reserved_eq hres]
    rfl

end Sys2Proof.Machine

/-! Exceptions and reset (60_exceptions.md, 70_reset_and_hazards.md): what an error leaves and which errors a command can
leave (R252, R253), the accesses that are bus errors (R61, R258), and the state after reset, soft reset and disable
(R271). -/

namespace Sys2Proof.Machine

/-! ### Errors of an instruction -/

/-- Every instruction is a computation and its end (R253, R256, R272). -/
theorem exec_eq_finish (i : Instr) (s : State) : ∃ r, exec i s = finish s r := by
  cases i with
  | raDrop => exact ⟨.ok (s.setAcc [] s.raCap), rfl⟩
  | _ => exact ⟨_, rfl⟩

/-- Settles O53: the end of a computation leaves OK, or a raised code in the state that it started from. -/
theorem errorsChangeOnlyStatus : Obligations.ErrorsChangeOnlyStatus := by
  unfold Obligations.ErrorsChangeOnlyStatus
  intro i s t h herr
  obtain ⟨r, hr⟩ := exec_eq_finish i s
  obtain ⟨u, -, rfl⟩ | ⟨c, -, rfl⟩ := finish_next.mp (hr ▸ h)
  · exact absurd rfl herr
  · rfl

/-- SCAN's row of R252. -/
theorem scan_err {s t : State} (h : exec .scan s = .next t) :
    t.err = .ok ∨ t.err ∈ [ErrCode.notEnabled, .outOfRange] := by
  obtain ⟨_, -, -, -, -, rfl⟩ | ⟨c, hc, rfl, -⟩ := execScan_next h
  · exact .inl rfl
  · exact .inr hc

/-- RPL_GET's row of R252. -/
theorem rplGet_err {s t : State} (h : exec .rplGet s = .next t) : t.err = .ok ∨ t.err ∈ [ErrCode.notEnabled] := by
  refine ErrorsIn.err_of_finish ?_ h
  exact (errorsIn_require _ (by decide)).bind fun _ => errorsIn_ok _

/-- RA_PUSH's row of R252. -/
theorem raPush_err {s t : State} (h : exec .raPush s = .next t) :
    t.err = .ok ∨ t.err ∈ [ErrCode.notEnabled, .outOfRange, .raOverflow] := by
  obtain ⟨_, _, -, -, -, -, -, -, rfl⟩ | ⟨c, hc, rfl, -⟩ := execRaPush_next h
  · exact .inl rfl
  · exact .inr hc

/-- The errors of a chunk that arrives: RA_PUSH's but for its range (log 8). -/
theorem receive_err {s t : State} {bytes : List Byte} (h : receive bytes s = .next t) :
    t.err = .ok ∨ t.err ∈ [ErrCode.notEnabled, .raOverflow] := by
  obtain ⟨_, -, -, -, rfl⟩ | ⟨c, hc, rfl, -⟩ := receive_next h
  · exact .inl rfl
  · exact .inr hc

/-- Settles O54: R252's matrix, one row per instruction. -/
theorem errorMatrix : Obligations.ErrorMatrix := by
  unfold Obligations.ErrorMatrix
  intro i s t h
  cases i with
  | cksum => exact cksum_err h
  | fvDecode => exact fvDecode_err h
  | fvValidateCrc => exact fvValidateCrc_err h
  | fvHasSig => exact fvHasSig_err h
  | fvValidateSig => exact fvValidateSig_err h
  | fvSigTimestamp => exact fvSigTimestamp_err h
  | fvSigLinkId => exact fvSigLinkId_err h
  | packV1 => exact packV1_err h
  | packV2 => exact packV2_err h
  | scan => exact scan_err h
  | rplGet => exact rplGet_err h
  | raPush => exact raPush_err h
  | raDrop => exact .inl (raDrop_err h)
  | frameV1 | frameV2 | frameV2Signed => exact receive_err h

/-! ### Bus errors -/

/-- The accesses that R61 allows, in the register window and above it. -/
theorem legalAccess_iff {n o w : Nat} : legalAccess n o w = true ↔
    (o < 0x100 ∧ w = 4 ∧ o % 4 = 0) ∨
      (0x100 ≤ o ∧ (w = 1 ∨ w = 2 ∨ w = 4) ∧ o % w = 0 ∧ ¬ (o < 0x8000 + n ∧ 0x8000 + n < o + w)) := by
  by_cases ho : o < 0x100
  · simp [legalAccess, ho]
  · have habove : 0x100 ≤ o := Nat.not_lt.1 ho
    simp only [legalAccess_memory habove, ho, habove, false_and, false_or, true_and]

/-- No instruction touches the bus's answer (log 2). -/
theorem exec_response {i : Instr} {s t : State} (h : exec i s = .next t) : t.response = s.response := by
  cases exec_effect h <;> rfl

/-- A COMMAND write leaves the bus's answer (log 2). -/
theorem issue_response {w : Word} {s t : State} (h : issue w s = .next t) : t.response = s.response := by
  obtain ⟨i, hexec⟩ | rfl := issue_next h
  · exact exec_response hexec
  · rfl

/-- A CTRL write leaves the bus's answer (log 2). -/
theorem writeCtrl_response (v : Word) (s : State) : (writeCtrl v s).response = s.response := by
  obtain ⟨_, h⟩ | h | ⟨-, -, -, h⟩ := writeCtrl_cases v s <;> rw [h] <;> rfl

/-- A write to the frozen group leaves the bus's answer, its stored state doing so (log 2). -/
theorem frozenWrite_response {s stored : State} (h : stored.response = s.response) :
    (frozenWrite s stored).response = s.response := by
  unfold frozenWrite
  split
  · rfl
  · exact h

/-- What a write does to a register leaves the bus's answer to it (log 2). -/
theorem writeReg_response {v : Word} {s t : State} {r : Reg} (h : writeReg v s r = .next t) :
    t.response = s.response := by
  cases r with
  | ctrl =>
    cases h
    exact writeCtrl_response v s
  | command => exact issue_response h
  | options | windowLo | windowHi | mapInitCap | mapLoadFactor | rxKeyLen =>
    cases h
    exact frozenWrite_response rfl
  | id | status | opKeyLen | raLen | raCap | arg i | res i | reserved =>
    cases h
    rfl

/-- What a write does to its region leaves the bus's answer to it (log 2). -/
theorem writeRegion_response {data : List Byte} {s t : State} {r : Region} (h : writeRegion data s r = .next t) :
    t.response = s.response := by
  cases r with
  | register r => exact writeReg_response h
  | rxKey i =>
    cases h
    exact frozenWrite_response rfl
  | opKey i | frameRam i | reserved =>
    cases h
    rfl

/-- A legal read that completes is answered with its bytes (R237). -/
theorem hostRead_response {o w : Nat} {s t : State} (hl : legalAccess s.params.memSize o w = true)
    (h : hostRead o w s = .next t) : ∃ bytes, t.response = .data bytes := by
  rw [hostRead_memory hl] at h
  split at h
  next bytes _ =>
    cases h
    exact ⟨bytes, rfl⟩
  next code hraise => exact absurd hraise (State.readRegion_ne_raise s w _ code)
  next => cases h

/-- A legal write that completes is answered as taken (R61). -/
theorem hostWrite_response {o : Nat} {data : List Byte} {s t : State}
    (hl : legalAccess s.params.memSize o data.length = true) (h : hostWrite o data s = .next t) :
    t.response = .done := by
  rw [hostWrite_memory hl] at h
  exact writeRegion_response h

/-- Settles O13: the statement's condition is `legalAccess`, on which reads and writes branch; a legal access is
answered with bytes, or as taken. -/
theorem busErrors : Obligations.BusErrors := by
  unfold Obligations.BusErrors
  intro s a rest off width hp hform allowed
  have hallowed : legalAccess s.params.memSize off width = true ↔ allowed := legalAccess_iff
  rw [← hallowed]
  cases a with
  | read o n =>
    cases hform
    rw [step_read hp]
    refine ⟨fun hbad => if_neg hbad, fun hl t h herr => ?_⟩
    obtain ⟨bytes, hdata⟩ := hostRead_response (s := s.setPending rest) hl h
    exact absurd (hdata.symm.trans herr) nofun
  | write o data =>
    cases hform
    rw [step_write hp]
    refine ⟨fun hbad => if_neg hbad, fun hl t h herr => ?_⟩
    exact absurd ((hostWrite_response (s := s.setPending rest) hl h).symm.trans herr) nofun

/-! ### Reset, soft reset and disable -/

/-- Settles O8: reset's values are the fields of `State.resetWith`, and the two CTRL writes are cases of O9. -/
theorem resetValues : Obligations.ResetValues := by
  unfold Obligations.ResetValues
  refine ⟨rfl, fun p => ?_, fun s v rest hp hv => ?_⟩
  · have hargs : ∀ i, (State.resetWith p).arg i = 0#32 := fun i => Vector.getElem_replicate i.isLt
    have hres : ∀ i : Fin 4, (State.resetWith p).res[i] = 0#32 := fun i => Vector.getElem_replicate i.isLt
    exact ⟨rfl, rfl, rfl, rfl, rfl, rfl, rfl, rfl, rfl, hargs, hres, rfl, rfl, rfl, rfl, rfl,
      fun _ => ⟨rfl, rfl, rfl⟩⟩
  · obtain ⟨hsoft, -, hdisable, -⟩ := ctrlWrite.1 s v rest hp
    cases hreset : v.getLsbD 1 with
    | true => exact hsoft hreset
    | false =>
      obtain ⟨hoff, hon⟩ := hv.resolve_left (Bool.eq_false_iff.1 hreset)
      exact hdisable hreset hoff hon

end Sys2Proof.Machine

/-! Reads of bytes never written since reset (R272): which bytes each computation needs, and that it faults on one of them
when they are not all written; for the host's reads, CKSUM, RA_PUSH, the packers, the FV_ commands and SCAN. -/

namespace Sys2Proof.Machine

/-! ### Computations that fault on an unwritten byte -/

/-- Every byte of `[a, a+n)` in a buffer has been written. -/
abbrev Buffer.written (b : Buffer) (a n : Nat) : Prop := ∀ i, i < n → (b (a + i)).isSome = true

/-- The computation faults, naming a byte that is unwritten in `b` (R272). -/
def FaultsAt {α : Type} (b : Buffer) (unwritten : Nat → Fault) (x : Run α) : Prop :=
  ∃ a, b a = none ∧ x = .error (.fault (unwritten a))

/-- The computation reads bytes of `b`, all of them written exactly when `P` holds: then it ends well, and else it faults
on one of them (R272). -/
structure Needs {α : Type} (b : Buffer) (P : Prop) (x : Run α) : Prop where
  ends : P → ∃ v, x = .ok v
  faults : ¬ P → FaultsAt b .unwrittenByte x

section FaultsAt

variable {α β : Type} {b : Buffer} {unwritten : Nat → Fault} {x : Run α}

/-- What comes after a fault is not reached. -/
theorem FaultsAt.bind (h : FaultsAt b unwritten x) (f : α → Run β) : FaultsAt b unwritten (x >>= f) := by
  obtain ⟨a, ha, rfl⟩ := h
  exact ⟨a, ha, rfl⟩

/-- A fault after a computation that ended well. -/
theorem FaultsAt.of_ok {v : α} {f : α → Run β} (hx : x = .ok v) (h : FaultsAt b unwritten (f v)) :
    FaultsAt b unwritten (x >>= f) := by
  subst hx
  exact h

/-- A fault after a check that passed. -/
theorem FaultsAt.of_require {p : Prop} [Decidable p] {c : ErrCode} {f : Unit → Run β} (hp : p)
    (h : FaultsAt b unwritten (f ())) : FaultsAt b unwritten (require p c >>= f) :=
  .of_ok (require_pos hp c) h

/-- A command whose computation faults has no continuation (R272). -/
theorem FaultsAt.finish {r : Run State} (h : FaultsAt b unwritten r) (s : State) :
    ∃ a, b a = none ∧ finish s r = .fault (unwritten a) := by
  obtain ⟨a, ha, rfl⟩ := h
  exact ⟨a, ha, rfl⟩

end FaultsAt

section Needs

variable {α β : Type} {b : Buffer} {P Q : Prop}

/-- A range of bytes is written when its two parts are. -/
theorem Buffer.written_add {a m n : Nat} : b.written a (m + n) ↔ b.written a m ∧ b.written (a + m) n := by
  refine ⟨fun h => ⟨fun i hi => h i (by omega), fun i hi => ?_⟩, fun ⟨hm, hn⟩ i hi => ?_⟩
  · rw [Nat.add_assoc]
    exact h (m + i) (by omega)
  · by_cases him : i < m
    · exact hm i him
    · have hrest := hn (i - m) (by omega)
      rwa [Nat.add_assoc, Nat.add_sub_cancel' (Nat.not_lt.1 him)] at hrest

/-- A range of one byte. -/
theorem Buffer.written_one {a : Nat} : b.written a 1 ↔ (b a).isSome = true := by
  simp only [Buffer.written, Nat.lt_one_iff, forall_eq, Nat.add_zero]

/-- Reading one byte needs it. -/
theorem needs_readByte (b : Buffer) (a : Nat) : Needs b (b.written a 1) (readByte b a) := by
  rw [Buffer.written_one]
  refine ⟨fun h => ?_, fun h => ?_⟩
  · obtain ⟨v, hv⟩ := Option.isSome_iff_exists.1 h
    exact ⟨v, readByte_some hv⟩
  · have hnone : b a = none := Option.not_isSome_iff_eq_none.1 h
    exact ⟨a, hnone, readByte_none hnone⟩

/-- Reading bytes needs them. -/
theorem needs_readBytes (b : Buffer) (a n : Nat) : Needs b (b.written a n) (readBytes b a n) :=
  ⟨readBytes_written, readBytes_unwritten⟩

/-- A result computed from what was read needs nothing more. -/
theorem Needs.map {x : Run α} (hx : Needs b P x) (g : α → β) : Needs b P (x >>= fun v => .ok (g v)) := by
  refine ⟨fun hP => ?_, fun hP => (hx.faults hP).bind _⟩
  obtain ⟨v, rfl⟩ := hx.ends hP
  exact ⟨g v, rfl⟩

/-- Two computations one after the other need the bytes of both. -/
theorem Needs.bind {x : Run α} {f : α → Run β} (hx : Needs b P x) (hf : ∀ v, Needs b Q (f v)) :
    Needs b (P ∧ Q) (x >>= f) := by
  refine ⟨fun ⟨hP, hQ⟩ => ?_, fun hPQ => ?_⟩
  · obtain ⟨v, rfl⟩ := hx.ends hP
    exact (hf v).ends hQ
  · by_cases hP : P
    · obtain ⟨v, hv⟩ := hx.ends hP
      exact .of_ok hv ((hf v).faults fun hQ => hPQ ⟨hP, hQ⟩)
    · exact (hx.faults hP).bind f

end Needs

/-! ### The bytes that the Frame View needs -/

/-- Decoding needs the magic byte first (R140). -/
theorem decodeHeader_unwrittenMagic {b : Buffer} {start limit : Nat} (hin : start < limit) (hb : b start = none) :
    FaultsAt b .unwrittenByte (decodeHeader b start limit) :=
  .of_require hin ⟨start, hb, by rw [readByte_none hb, run_error_bind]⟩

/-- Computing and reading a frame's checksum needs its bytes from the one after the magic to the last of the checksum
(R83, R90). -/
theorem needs_checksums (b : Buffer) (start : Nat) (h : Header) (extra : Byte) {β : Type}
    (g : BitVec 16 → BitVec 16 → β) :
    Needs b (b.written (start + 1) (h.headerLen - 1 + h.n) ∧ b.written (start + h.headerLen + h.n) 2)
      (computedChecksum b start h extra >>= fun computed =>
        storedChecksum b start h >>= fun stored => .ok (g computed stored)) :=
  ((needs_readBytes b _ _).map _).bind fun computed => ((needs_readBytes b _ _).map _).map (g computed)

/-- A frame whose magic is written is written through its checksum when the bytes that the checksums need are. -/
theorem written_throughChecksum {b : Buffer} {start : Nat} {h : Header} (hmagic : (b start).isSome = true)
    (hcovered : b.written (start + 1) (h.headerLen - 1 + h.n)) (hstored : b.written (start + h.headerLen + h.n) 2) :
    b.written start h.throughChecksum := by
  have hpos := (headerLen_bounds h.version).1
  have hlen : h.throughChecksum = 1 + (h.headerLen - 1 + h.n) + 2 := by
    rw [Header.throughChecksum, Header.headerLen]
    omega
  have hend : start + (1 + (h.headerLen - 1 + h.n)) = start + h.headerLen + h.n := by
    rw [Header.headerLen]
    omega
  rw [hlen, Buffer.written_add, Buffer.written_add, Buffer.written_one, hend]
  exact ⟨⟨hmagic, hcovered⟩, hstored⟩

/-- Reading a trailer's timestamp needs its six bytes (R149). -/
theorem needs_sigTimestamp (b : Buffer) (start : Nat) (h : Header) :
    Needs b (b.written (start + h.throughChecksum + 1) 6) (sigTimestamp b start h) := (needs_readBytes b _ _).map _

/-- Comparing a signature needs the frame through its checksum and the 13 bytes of its trailer (R147). -/
theorem needs_validateSignature (s : State) (b : Buffer) (start : Nat) (h : Header) (key : List Byte) :
    Needs b (b.written start (h.throughChecksum + 13)) (validateSignature s b start h key) := by
  have hparts : b.written start (h.throughChecksum + 13) ↔
      b.written start h.throughChecksum ∧ b.written (start + h.throughChecksum) 1 ∧
        b.written (start + h.throughChecksum + 1) 6 ∧ b.written (start + h.throughChecksum + 7) 6 := by
    rw [show h.throughChecksum + 13 = h.throughChecksum + (1 + (6 + 6)) from rfl, Buffer.written_add,
      Buffer.written_add, Buffer.written_add, Nat.add_assoc (start + h.throughChecksum) 1 6]
  rw [hparts]
  exact (needs_readBytes b _ _).bind fun _ => (needs_readByte b _).bind fun _ =>
    (needs_sigTimestamp b start h).bind fun _ => (needs_readBytes b _ _).map _

/-! ### Host reads -/

/-- A host read above the register window of a region whose bytes are not all written has no continuation (R272). -/
theorem step_memoryRead_fault {s : State} {rest : List HostAccess} {off : BitVec 16} {width : Nat} {b : Buffer}
    {unwritten : Nat → Fault} (hp : s.pending = .read off width :: rest) (habove : 0x100 ≤ off.toNat)
    (hw : width = 1 ∨ width = 2 ∨ width = 4) (halign : off.toNat % width = 0)
    (hend : off.toNat < 0x8000 ∨ off.toNat + width ≤ 0x8000 + s.params.memSize ∨
      0x8000 + s.params.memSize ≤ off.toNat)
    (hread : FaultsAt b unwritten (s.readRegion width (regionOf s.params.memSize off.toNat))) :
    ∃ a, b a = none ∧ step s = .fault (unwritten a) := by
  obtain ⟨a, ha, hfault⟩ := hread
  have hlegal := legalAccess_aligned habove hw halign hend
  have hfault' : (s.setPending rest).readRegion width (regionOf (s.setPending rest).params.memSize off.toNat) =
      .error (.fault (unwritten a)) := (State.readRegion_setPending s rest width _).trans hfault
  exact ⟨a, ha, by rw [step_read hp, hostRead_memory (s := s.setPending rest) hlegal, hfault']⟩

/-- A read of a key window with an unwritten byte faults (R272). -/
theorem readKey_faultsAt {m : Memory} {unwritten : Nat → Fault} {a n i : Nat} (hi : i < n)
    (hm : m.read (a + i) = none) : FaultsAt m.read unwritten (readKey m unwritten a n) :=
  readKey_unwritten fun hall => by simpa [hm] using hall i hi

/-! ### CKSUM, RA_PUSH and the packers -/

section Commands

variable {s : State}

/-- CKSUM of a range that is not all written (R122). -/
theorem cksum_unwritten (hmem : s.inMem (s.argNat 0) (s.argNat 1)) (hw : ¬ s.written (s.argNat 0) (s.argNat 1)) :
    s.faultsOnByte (exec .cksum s) :=
  FaultsAt.finish (.of_require hmem (.bind ((needs_readBytes s.ram _ _).faults hw) _)) s

/-- RA_PUSH of a range that is not all written (R215). -/
theorem raPush_unwritten (he : s.enable = true) (hmem : s.inMem (s.argNat 0) (s.argNat 1))
    (hcap : s.raLen + s.argNat 1 ≤ s.params.raCapMax) (hw : ¬ s.written (s.argNat 0) (s.argNat 1)) :
    s.faultsOnByte (exec .raPush s) :=
  FaultsAt.finish (.of_require he <| .of_require hmem <| .of_require hcap <|
    .bind ((needs_readBytes s.ram _ _).faults hw) _) s

/-- PACK_V1 of a payload that is not all written (R163). -/
theorem packV1_unwritten (hlen : s.packPayloadLen ≤ 255) (hid : s.packMessageId.toNat ≤ 255)
    (hsrc : s.inMem s.packSrc s.packPayloadLen) (hroom : 6 + s.packPayloadLen + 2 ≤ s.packDstLen)
    (hdst : s.inMem s.packDst (6 + s.packPayloadLen + 2)) (hw : ¬ s.written s.packSrc s.packPayloadLen) :
    s.faultsOnByte (exec .packV1 s) :=
  FaultsAt.finish (.of_require hlen <| .of_require hid <| .of_require hsrc <| .of_require hroom <| .of_require hdst <|
    .bind ((needs_readBytes s.ram _ _).faults hw) _) s

/-- PACK_V2 of a payload that is not all written, which is read before the destination is checked (R164; log 13). -/
theorem packV2_unwritten (hlen : s.packPayloadLen ≤ 255) (hk : s.opKeyLen.toNat ≤ s.params.keyMax)
    (hflag : ¬ (s.packIncompat.getLsbD 0 = true ∧ s.opKeyLen = 0#8)) (hsrc : s.inMem s.packSrc s.packPayloadLen)
    (hw : ¬ s.written s.packSrc s.packPayloadLen) : s.faultsOnByte (exec .packV2 s) :=
  FaultsAt.finish (.of_require hlen <| .of_require hk <| .of_require hflag <| .of_require hsrc <|
    .bind ((needs_readBytes s.ram _ _).faults hw) _) s

/-- A key that is not all written is not empty (R29, R30). -/
theorem keyLen_ne_zero {m : Memory} {len : BitVec 8} (hkey : ¬ ∀ i, i < len.toNat → (m.read i).isSome = true) :
    len ≠ 0#8 := by
  rintro rfl
  exact hkey fun i hi => absurd hi (Nat.not_lt_zero i)

/-- PACK_V2 with room for the untrimmed signed frame, under a key that is not all written (R162, R164; log 12). -/
theorem packV2_keyUnwritten (hlen : s.packPayloadLen ≤ 255) (hk : s.opKeyLen.toNat ≤ s.params.keyMax)
    (hkey : ¬ s.opKeyWritten) (hsrc : s.inMem s.packSrc s.packPayloadLen)
    (hw : s.written s.packSrc s.packPayloadLen) (hroom : 25 + s.packPayloadLen ≤ s.packDstLen)
    (hdst : s.packDst + (25 + s.packPayloadLen) ≤ s.params.memSize) : s.faultsOnOpKey (exec .packV2 s) := by
  have hne := keyLen_ne_zero hkey
  obtain ⟨payload, hread⟩ := (needs_readBytes s.ram s.packSrc s.packPayloadLen).ends hw
  obtain ⟨hpay, hbytes⟩ := readBytes_ok hread
  have hkept := s.keptLen_le payload
  have htotal : s.packTotal (s.keptLen payload) ≤ 25 + s.packPayloadLen := by
    rw [State.packTotal, if_neg hne]
    omega
  have hpack : FaultsAt s.opKey.read .unwrittenOpKey (s.packBytes (payload.take (s.keptLen payload))) := by
    rw [State.packBytes, if_neg hne]
    exact FaultsAt.bind (State.readOpKey_unwritten hkey) _
  rw [packV2_read hlen hk (fun hflag => hne hflag.2) hsrc hpay fun i hi => hbytes i (hpay ▸ hi)]
  exact FaultsAt.finish (.of_require (htotal.trans hroom) <|
    .of_require ((Nat.add_le_add_left htotal _).trans hdst) (hpack.bind _)) s

/-! ### The FV_ commands -/

/-- An FV_ command whose header's decoding faults (R140). -/
theorem exec_of_viewHeader_fault {i : Instr}
    (hi : i ∈ [Instr.fvDecode, .fvValidateCrc, .fvHasSig, .fvValidateSig, .fvSigTimestamp, .fvSigLinkId])
    (hv : FaultsAt s.ram .unwrittenByte s.viewHeader) : s.faultsOnByte (exec i s) := by
  obtain ⟨f, he⟩ := exec_eq_viewHeader_bind hi s
  rw [he]
  exact (hv.bind f).finish s

variable {h : Header}

/-- FV_VALIDATE_CRC of a frame that is not all written through its checksum (R143, R144). -/
theorem fvValidateCrc_unwritten (hv : s.viewHeader = .ok h) (hfit : s.argNat 0 + h.totalLen ≤ s.params.memSize)
    (hw : ¬ s.written (s.argNat 0) h.throughChecksum) : s.faultsOnByte (exec .fvValidateCrc s) := by
  obtain ⟨-, ⟨m, hm, -⟩, -⟩ := decodeHeader_ok hv
  have hmagic : (s.ram (s.argNat 0)).isSome = true := Option.isSome_of_eq_some hm
  exact FaultsAt.finish (.of_ok hv <| .of_require hfit <| (needs_checksums s.ram _ h _ _).faults fun hboth =>
    hw (written_throughChecksum hmagic hboth.1 hboth.2)) s

variable (hv : s.viewHeader = .ok h) (hs : h.signed = true) (hfit : s.argNat 0 + h.totalLen ≤ s.params.memSize)
include hv hs hfit

/-- FV_SIG_LINK_ID of a signed frame whose link id is unwritten (R149, R151). -/
theorem fvSigLinkId_unwritten (hw : s.frameRam.read (s.argNat 0 + h.throughChecksum) = none) :
    s.faultsOnByte (exec .fvSigLinkId s) := by
  refine FaultsAt.finish (.of_ok hv ?_) s
  rw [if_pos hs]
  exact .of_require hfit (.bind ⟨_, hw, readByte_none hw⟩ _)

/-- FV_SIG_TIMESTAMP of a signed frame whose timestamp is not all written (R149, R150). -/
theorem fvSigTimestamp_unwritten (hw : ¬ s.written (s.argNat 0 + h.throughChecksum + 1) 6) :
    s.faultsOnByte (exec .fvSigTimestamp s) := by
  refine FaultsAt.finish (.of_ok hv ?_) s
  rw [if_pos hs]
  exact .of_require hfit (.bind ((needs_sigTimestamp s.ram _ h).faults hw) _)

/-- FV_VALIDATE_SIG of a whole signed frame under a key faults where reading the key or comparing does (R148). -/
theorem fvValidateSig_fault {b : Buffer} {unwritten : Nat → Fault} (hne : s.opKeyLen ≠ 0#8)
    (hk : s.opKeyLen.toNat ≤ s.params.keyMax)
    (hf : FaultsAt b unwritten (s.readOpKey >>= fun key =>
      validateSignature s s.ram (s.argNat 0) h key >>= fun valid => .ok (s.setRes 0 (boolWord valid)))) :
    ∃ a, b a = none ∧ exec .fvValidateSig s = .fault (unwritten a) := by
  have hslow : ¬ (h.signed = false ∨ s.opKeyLen = 0#8) := by simp [hs, hne]
  refine FaultsAt.finish (.of_ok hv <| .of_require hk ?_) s
  rw [if_neg hslow]
  exact .of_require hfit hf

/-- FV_VALIDATE_SIG of a signed frame that is not all written, its key written (R147). -/
theorem fvValidateSig_unwritten (hne : s.opKeyLen ≠ 0#8) (hk : s.opKeyLen.toNat ≤ s.params.keyMax)
    (hkey : s.opKeyWritten) (hw : ¬ s.written (s.argNat 0) (h.throughChecksum + 13)) :
    s.faultsOnByte (exec .fvValidateSig s) := by
  obtain ⟨key, hread⟩ : ∃ key, s.readOpKey = .ok key := readKey_written fun i hi => by
    rw [Nat.zero_add]
    exact hkey i hi
  exact fvValidateSig_fault hv hs hfit hne hk
    (.of_ok hread (.bind ((needs_validateSignature s s.ram _ h key).faults hw) _))

/-- FV_VALIDATE_SIG of a signed frame under a key that is not all written (R147; log 12). -/
theorem fvValidateSig_keyUnwritten (hne : s.opKeyLen ≠ 0#8) (hk : s.opKeyLen.toNat ≤ s.params.keyMax)
    (hkey : ¬ s.opKeyWritten) : s.faultsOnOpKey (exec .fvValidateSig s) :=
  fvValidateSig_fault hv hs hfit hne hk (FaultsAt.bind (State.readOpKey_unwritten hkey) _)

end Commands

/-! ### SCAN -/

section Scan

variable {s : State} {b b' : Buffer} {unwritten : Nat → Fault} {start stop : Nat} {m : ReplayMap}

/-- A scan from before bytes that are no magic is the scan from after them (R181 step 1). -/
theorem scanBuffer_noise {noise : List Byte} (hheld : ∀ i, i < noise.length → b (start + i) = noise[i]?)
    (hplain : ∀ x ∈ noise, x ≠ 0xFE#8 ∧ x ≠ 0xFD#8) (hle : start + noise.length ≤ stop) :
    s.scanBuffer b start stop m = s.scanBuffer b (start + noise.length) stop m := by
  have hfuel : stop - start = noise.length + (stop - (start + noise.length)) := by omega
  rw [State.scanBuffer, State.scanBuffer, hfuel, scanFrom_noise noise _ _ _ _ hheld hplain]

/-- A scan that meets an unwritten byte (R181, R272). -/
theorem scanBuffer_unwritten (hin : start < stop) (hb : b start = none) :
    FaultsAt b .unwrittenByte (s.scanBuffer b start stop m) := by
  obtain ⟨fuel, hfuel⟩ : ∃ fuel, stop - start = fuel + 1 := ⟨stop - start - 1, by omega⟩
  rw [State.scanBuffer, hfuel, State.scanFrom]
  exact .bind ⟨start, hb, readByte_none hb⟩ _

/-- A scan at a candidate whose header is inside the range decodes it, and checks it when the frame is whole and the mode
strict (R181 steps 3 to 7). -/
theorem scanBuffer_candidate {x : Byte} {v : Version} (hx : b start = some x) (hv : versionOf x = some v)
    (hfit : start + v.headerLen ≤ stop) :
    ∃ f : Header → Run Scan, s.scanBuffer b start stop m = decodeHeader b start stop >>= f ∧
      ∀ h : Header, start + h.totalLen ≤ stop → s.strict = true →
        ∃ g : Verdict × ReplayMap → Run Scan, f h = s.strictOk b start h m >>= g := by
  have hpos := (headerLen_bounds v).1
  obtain ⟨fuel, hfuel⟩ : ∃ fuel, stop - start = fuel + 1 := ⟨stop - start - 1, by omega⟩
  have hhead : ¬ fuel + 1 < v.headerLen := by omega
  simp only [State.scanBuffer, hfuel, State.scanFrom, readByte_some hx, run_ok_bind, hv]
  refine ⟨_, if_neg hhead, fun h hwhole hst => ?_⟩
  have hin : ¬ fuel + 1 < h.totalLen := by omega
  have hcheck : ¬ s.strict = false := by simp [hst]
  exact ⟨_, (if_neg hin).trans (if_neg hcheck)⟩

/-- A scan at a candidate whose header is inside the range and not all written (R181, R272; log 11). -/
theorem scanBuffer_headerUnwritten {x : Byte} {v : Version} (hx : b start = some x) (hv : versionOf x = some v)
    (hfit : start + v.headerLen ≤ stop) (hw : ¬ b.written start v.headerLen) :
    FaultsAt b .unwrittenByte (s.scanBuffer b start stop m) := by
  obtain ⟨f, hf, -⟩ := scanBuffer_candidate (s := s) (m := m) hx hv hfit
  rw [hf]
  exact FaultsAt.bind (decodeHeader_unwritten hx hv hfit hw) f

/-- A strict scan at a whole candidate faults where its strict check does (R181 step 7, R272). -/
theorem scanBuffer_strictFault {h : Header} (hst : s.strict = true) (hd : decodeHeader b start stop = .ok h)
    (hfit : start + h.totalLen ≤ stop) (hf : FaultsAt b' unwritten (s.strictOk b start h m)) :
    FaultsAt b' unwritten (s.scanBuffer b start stop m) := by
  obtain ⟨hhead, ⟨x, hx, hv⟩, -⟩ := decodeHeader_ok hd
  obtain ⟨f, hscan, hcheck⟩ := scanBuffer_candidate (s := s) (m := m) hx hv hhead
  obtain ⟨g, hg⟩ := hcheck h hfit hst
  rw [hscan]
  refine .of_ok hd ?_
  rw [hg]
  exact hf.bind g

/-- A strict check that comes to its signature condition faults where that does (R182). -/
theorem strictOk_signatureFault {c : Nat} {h : Header} (hu : h.unknownFlags = false)
    (hr : s.refusesUnsigned h = false) (hf : FaultsAt b' unwritten (s.signaturePasses b c h)) :
    FaultsAt b' unwritten (s.strictOk b c h m) := by
  simp only [State.strictOk, hu, hr, Bool.false_eq_true, if_false]
  exact hf.bind _

/-- A signature that is asked for, under a receive key that is not all written (R185; log 12). -/
theorem signaturePasses_keyUnwritten {c : Nat} {h : Header} (hs : h.signed = true) (hq : s.requireSignature = true)
    (hkey : ¬ s.rxKeyWritten) : FaultsAt s.rxKey.read .unwrittenRxKey (s.signaturePasses b c h) := by
  have hon : (h.signed && s.requireSignature) = true := by simp [hs, hq]
  rw [State.signaturePasses, if_pos hon, if_neg (keyLen_ne_zero hkey)]
  exact FaultsAt.bind (State.readRxKey_unwritten hkey) _

/-- A strict scan that begins at a whole signed frame with known flags, under REQUIRE_SIGNATURE and a receive key that is
not all written (R181 to R185; log 12). -/
theorem scanBuffer_keyUnwritten {f : FrameV2} {t : Trailer} (hwf : (Instr.frameV2Signed f t).wf = true)
    (hflags : f.incompat &&& 0xFE#8 = 0#8) (hst : s.strict = true) (hq : s.requireSignature = true)
    (hkey : ¬ s.rxKeyWritten) (hfit : start + (25 + f.payload.length) ≤ stop)
    (hheld : ∀ i, i < (f.bytes ++ t.bytes).length → b (start + i) = (f.bytes ++ t.bytes)[i]?) :
    FaultsAt s.rxKey.read .unwrittenRxKey (s.scanBuffer b start stop m) := by
  obtain ⟨hf, hs, -⟩ := frameV2Signed_wf_iff.1 hwf
  have hbytes : f.bytes ++ t.bytes = f.header ++ (f.payload ++ (leBytes 2 f.checksum.toNat ++ t.bytes)) := by
    simp only [FrameV2.bytes, List.append_assoc]
  have hheader : ∀ i, i < f.header.length → b (start + i) = f.header[i]? := fun i hi => by
    rw [hbytes, List.length_append] at hheld
    rw [hheld i (Nat.lt_add_right _ hi), List.getElem?_append_left hi]
  have hd : decodeHeader b start stop = .ok (FrameV2.view f) := decodeHeader_frameV2 (by omega) hheader
  refine scanBuffer_strictFault hst hd (FrameV2.view_totalLen_signed hf hs ▸ hfit) ?_
  exact strictOk_signatureFault (Header.unknownFlags_eq_false_iff.2 hflags)
    (State.refusesUnsigned_eq_false_iff.2 (.inl hs)) (signaturePasses_keyUnwritten hs hq hkey)

/-- SCAN of a range whose scan faults (R192). -/
theorem execScan_fault (he : s.enable = true) (h1 : s.argNat 1 ≤ s.params.memSize) (h0 : s.argNat 0 ≤ s.argNat 1)
    (hf : FaultsAt b unwritten (s.scanBuffer s.ram (s.argNat 0) (s.argNat 1) s.replayMap)) :
    ∃ a, b a = none ∧ exec .scan s = .fault (unwritten a) := by
  obtain ⟨a, ha, hfault⟩ := hf
  exact ⟨a, ha, scan_fault he h1 h0 hfault⟩

/-- SCAN faults where the scan behind leading bytes that are no magic does (R181 step 1, R192). -/
theorem execScan_fault_behind {noise : List Byte} (he : s.enable = true) (h1 : s.argNat 1 ≤ s.params.memSize)
    (hnoise : s.holds (s.argNat 0) noise) (hplain : ∀ x ∈ noise, x ≠ 0xFE#8 ∧ x ≠ 0xFD#8)
    (hle : s.argNat 0 + noise.length ≤ s.argNat 1)
    (hf : FaultsAt b unwritten (s.scanBuffer s.ram (s.argNat 0 + noise.length) (s.argNat 1) s.replayMap)) :
    ∃ a, b a = none ∧ exec .scan s = .fault (unwritten a) := by
  refine execScan_fault he h1 (by omega) ?_
  rwa [scanBuffer_noise (b := s.ram) hnoise hplain hle]

/-- A chunk that arrives at an empty ACC faults where the first scan of its bytes does (R211, R212). -/
theorem receive_fault {bytes : List Byte} (he : s.enable = true) (hacc : s.acc = [])
    (hcap : bytes.length ≤ s.params.raCapMax)
    (hf : FaultsAt b unwritten (s.scanBuffer (accBuffer bytes) 0 bytes.length s.replayMap)) :
    ∃ a, b a = none ∧ receive bytes s = .fault (unwritten a) := by
  have hfit : s.raLen + bytes.length ≤ s.params.raCapMax := by
    rw [State.raLen_eq, hacc]
    exact (Nat.zero_add _).trans_le hcap
  have hdrain : FaultsAt b unwritten (s.drain (s.acc ++ bytes)) := by
    rw [hacc]
    exact hf.bind _
  exact FaultsAt.finish (.of_require he <| .of_require hfit <| hdrain.bind _) s

end Scan

/-- Settles O14: each clause is one of the faults above, the checks before it passed. -/
theorem unwrittenReadsFault : Obligations.UnwrittenReadsFault := by
  unfold Obligations.UnwrittenReadsFault
  refine ⟨fun s rest off width hp hw halign => ⟨fun hlo hfit hun => ?_, fun i hi => ⟨fun hlo hhi hun => ?_,
      fun hlo hhi hun => ?_⟩⟩,
    fun s hmem hun => ⟨cksum_unwritten hmem hun, fun he hcap => raPush_unwritten he hmem hcap hun⟩,
    fun s hlen hsrc hun => ⟨fun hid hroom hdst => ?_, fun hk hflag => ?_⟩,
    fun s i hi hin => ⟨fun hm => ?_, fun hm hfit hun => ?_, fun hm hfit hun => ?_⟩,
    fun s f hwf hh hfit hun => ?_, fun s f hwf hh => ?_,
    fun s hlen hk hkey hsrc hw hroom hdst => packV2_keyUnwritten hlen hk hkey hsrc hw hroom hdst,
    fun s noise he h1 hnoise hplain => ?_, fun s f t hwf hflags he hst hq hkey hh => ⟨fun h1 hfit => ?_,
      fun h1 hfit hcap hacc => ?_⟩⟩
  · refine step_memoryRead_fault hp (by omega) hw halign (by omega) ?_
    rw [regionOf_frameRam_eq hlo (by omega)]
    exact (needs_readBytes s.ram _ _).faults hun
  · refine step_memoryRead_fault hp hlo hw halign (by omega) ?_
    rw [regionOf_rxKey_eq hlo hhi]
    exact readKey_faultsAt hi hun
  · refine step_memoryRead_fault hp (by omega) hw halign (by omega) ?_
    rw [regionOf_opKey_eq hlo hhi]
    exact readKey_faultsAt hi hun
  · exact packV1_unwritten hlen hid hsrc (by omega) (by change _ ≤ _; omega) hun
  · refine packV2_unwritten hlen hk (fun hboth => ?_) hsrc hun
    exact hflag.elim (fun hclear => absurd (hboth.1.symm.trans hclear) (by decide)) fun hne => hne hboth.2
  · exact exec_of_viewHeader_fault hi (decodeHeader_unwrittenMagic hin hm)
  · exact exec_of_viewHeader_fault hi (decodeHeader_unwritten (v := .v1) hm rfl hfit hun)
  · exact exec_of_viewHeader_fault hi (decodeHeader_unwritten (v := .v2) hm rfl hfit hun)
  · have hv : s.viewHeader = .ok (FrameV1.view f) := State.viewHeader_frameV1 (by omega) hh
    exact fvValidateCrc_unwritten hv (FrameV1.view_totalLen hwf ▸ hfit) (FrameV1.view_throughChecksum hwf ▸ hun)
  · intro through
    have hthrough : (FrameV2.view f).throughChecksum = through := FrameV2.view_throughChecksum hwf
    have hview : s.argNat 0 + through ≤ s.params.memSize → s.viewHeader = .ok (FrameV2.view f) := fun hfit =>
      State.viewHeader_frameV2 (by omega) hh
    refine ⟨fun hfit hun => ?_, fun hs hfit => ?_⟩
    · exact fvValidateCrc_unwritten (hview (by omega)) (FrameV2.view_totalLen hwf ▸ hfit) (hthrough ▸ hun)
    · have hv := hview (by omega)
      have hwhole : s.argNat 0 + (FrameV2.view f).totalLen ≤ s.params.memSize := by
        rw [FrameV2.view_totalLen_signed hwf hs]
        omega
      rw [← hthrough]
      exact ⟨fvSigLinkId_unwritten hv hs hwhole, fvSigTimestamp_unwritten hv hs hwhole, fun hne hk =>
        ⟨fvValidateSig_unwritten hv hs hwhole hne hk, fvValidateSig_keyUnwritten hv hs hwhole hne hk⟩⟩
  · intro c
    refine ⟨fun hc hm => ?_, fun hm hfit hun => ?_, fun hm hfit hun => ?_⟩
    · exact execScan_fault_behind he h1 hnoise hplain hc.le (scanBuffer_unwritten hc hm)
    · exact execScan_fault_behind he h1 hnoise hplain (by omega)
        (scanBuffer_headerUnwritten (v := .v1) hm rfl hfit hun)
    · exact execScan_fault_behind he h1 hnoise hplain (by omega)
        (scanBuffer_headerUnwritten (v := .v2) hm rfl hfit hun)
  · exact execScan_fault he h1 (by omega) (scanBuffer_keyUnwritten hwf hflags hst hq hkey hfit hh)
  · have hlen : (f.bytes ++ t.bytes).length = 25 + f.payload.length := by
      obtain ⟨-, -, ht⟩ := frameV2Signed_wf_iff.1 hwf
      rw [List.length_append, FrameV2.bytes_length, Trailer.bytes_length, ht]
      omega
    rw [execRaPush_eq_receive (h1.trans hlen.symm) (hlen ▸ hfit) hh]
    refine receive_fault he hacc (hlen ▸ hcap) (scanBuffer_keyUnwritten hwf hflags hst hq hkey (by omega) ?_)
    intro i _
    rw [Nat.zero_add, accBuffer]

end Sys2Proof.Machine
